-- ==== Sys2Proof/Word.lean ====
section
/-! DEFINITION. The word type of the ECGR2 machine and the register index (spec/00_scope.md R9, spec/10_state.md R21). -/

namespace Sys2Proof

/-- R9, `bits32`: a 32-bit pattern with no numeric meaning of its own. -/
abbrev Word := BitVec 32

/-- R27: every register index is a 4-bit field, so exactly 0 to 15 exist. -/
abbrev RegIdx := Fin 16

end Sys2Proof
end

