-- ==== Sys2Proof/Config.lean ====
section
/-! DEFINITION. What an implementation fixes for a run (spec/00_scope.md R7): the open parameters of the spec. Each opaque
constant has no body, so nothing in Lean can evaluate it. The limits the spec sets on a parameter are applied where it is
read (`Machine.nativeNan`, `Machine.expFn`, `Machine.logFn`), so that the constants here can be entirely free. -/

namespace Sys2Proof.Config

/-- R7, R29: the width of the program index in a gate-level build. The model's own index is a natural number. -/
def pcWidth : Nat := 32

/-- One call of the native unit (R190) with its operands, as far as a host may let the payload of a NaN depend on it
(R196: "a function of the operation and operands"). -/
inductive NativeCall where
  | divide (a b : Word)
  | squareRoot (a : Word)
  | exponent (a : Word)
  | logarithm (a : Word)
  deriving DecidableEq, Repr

/-- The host's choice behind `NATIVE_NAN` (R196), before it is held to a NaN-class pattern. DESIGN CHOICE, log 5: a
function of the operation and its operands, one of the two forms R196 offers. Safe. -/
opaque nativeNanChoice : NativeCall → Word

/-- The host's choice behind `EXP_FN` (R276). `expSwitch k` is the operand rank from which the host's e^x delivers at least
the result of order key `k`, wherever R276 leaves both that result and a smaller one admissible. Log 6. Safe. -/
opaque expSwitch : Nat → Nat

/-- The host's choice behind `LOG_FN` (R277), in the form of `expSwitch`. Log 7. Safe. -/
opaque logSwitch : Nat → Nat

end Sys2Proof.Config
end

