-- ==== Sys2Proof/Syntax.lean ====
section
/-! DEFINITION. The instructions of the ECGR2 ISA: one constructor per row of spec/opcode_table.json, in its order
(spec/30_encoding.md R81), with the fields its format gives it (R74 to R78). -/

namespace Sys2Proof

/-- R81: the fixed enumeration of 22 operations. Ignored bits of a word (R88) are no part of the instruction. -/
inductive Instr where
  /-- R113, format SET. -/
  | set (rd : RegIdx) (imm23 : BitVec 23)
  /-- R114, format GET: `rd` is the register read. -/
  | get (rd : RegIdx)
  /-- R115. -/
  | move (rd ra : RegIdx)
  /-- R140. -/
  | fadd (rd ra rb : RegIdx)
  /-- R141. -/
  | fsub (rd ra rb : RegIdx)
  /-- R220. -/
  | fneg (rd ra : RegIdx)
  /-- R180. -/
  | fmul (rd ra rb : RegIdx)
  /-- R185. -/
  | fdiv (rd ra rb : RegIdx)
  /-- R243. -/
  | floor (rd ra : RegIdx)
  /-- R244. -/
  | ceil (rd ra : RegIdx)
  /-- R245. -/
  | round (rd ra : RegIdx)
  /-- R222. -/
  | fabs (rd ra : RegIdx)
  /-- R221. -/
  | finv (rd ra : RegIdx)
  /-- R224. -/
  | min (rd ra rb : RegIdx)
  /-- R225. -/
  | max (rd ra rb : RegIdx)
  /-- R200, format RI: `imm19` is the unsigned count. -/
  | pow (rd ra : RegIdx) (imm19 : BitVec 19)
  /-- R263. -/
  | sin (rd ra : RegIdx)
  /-- R264. -/
  | cos (rd ra : RegIdx)
  /-- R265. -/
  | tan (rd ra : RegIdx)
  /-- R276. -/
  | exp (rd ra : RegIdx)
  /-- R277. -/
  | log (rd ra : RegIdx)
  /-- R278. -/
  | sqrt (rd ra : RegIdx)
  deriving DecidableEq, Repr

/-- Why the decoder gives no instruction for a word. -/
inductive DecodeReject where
  /-- R87: the opcode field is 22 to 31. -/
  | unknownOpcode (opcode : BitVec 5)
  deriving DecidableEq, Repr

/-- R81: the opcode number of an instruction. -/
def Instr.opcode : Instr → BitVec 5
  | .set _ _ => 0
  | .get _ => 1
  | .move _ _ => 2
  | .fadd _ _ _ => 3
  | .fsub _ _ _ => 4
  | .fneg _ _ => 5
  | .fmul _ _ _ => 6
  | .fdiv _ _ _ => 7
  | .floor _ _ => 8
  | .ceil _ _ => 9
  | .round _ _ => 10
  | .fabs _ _ => 11
  | .finv _ _ => 12
  | .min _ _ _ => 13
  | .max _ _ _ => 14
  | .pow _ _ _ => 15
  | .sin _ _ => 16
  | .cos _ _ => 17
  | .tan _ _ => 18
  | .exp _ _ => 19
  | .log _ _ => 20
  | .sqrt _ _ => 21

end Sys2Proof
end

