-- ==== Sys2Proof/Decode.lean ====
section
/-! DEFINITION. The `instruction_decoder` sub-block (spec/30_encoding.md R71 to R81), total on every word and rejecting by
name, and after it the encoder of the same formats. -/

namespace Sys2Proof

/-! ### The decoder -/

/-- R79: the decoder's outputs, all produced for every word whatever the opcode. -/
structure Fields where
  opcode : BitVec 5
  rd : RegIdx
  ra : RegIdx
  rb : RegIdx
  imm19 : BitVec 19
  imm23 : BitVec 23
  deriving DecidableEq, Repr

/-- R72, the decoder's one primitive, where `left >= right` holds: the unsigned value of the bits `left` down to `right`. -/
def bitRange (w : Word) (left right : Nat) : Nat := (w.toNat >>> right) % 2 ^ (left - right + 1)

/-- R79. -/
def decodeFields (w : Word) : Fields where
  opcode := w.extractLsb' 27 5
  rd := (w.extractLsb' 23 4).toFin
  ra := (w.extractLsb' 19 4).toFin
  rb := (w.extractLsb' 15 4).toFin
  imm19 := w.extractLsb' 0 19
  imm23 := w.extractLsb' 0 23

/-- R81: the instruction an opcode number selects, with the fields of its format (R74 to R78); 22 to 31 select none (R87). -/
def selectInstr (opcode : Nat) (f : Fields) : Except DecodeReject Instr :=
  match opcode with
  | 0 => .ok (.set f.rd f.imm23)
  | 1 => .ok (.get f.rd)
  | 2 => .ok (.move f.rd f.ra)
  | 3 => .ok (.fadd f.rd f.ra f.rb)
  | 4 => .ok (.fsub f.rd f.ra f.rb)
  | 5 => .ok (.fneg f.rd f.ra)
  | 6 => .ok (.fmul f.rd f.ra f.rb)
  | 7 => .ok (.fdiv f.rd f.ra f.rb)
  | 8 => .ok (.floor f.rd f.ra)
  | 9 => .ok (.ceil f.rd f.ra)
  | 10 => .ok (.round f.rd f.ra)
  | 11 => .ok (.fabs f.rd f.ra)
  | 12 => .ok (.finv f.rd f.ra)
  | 13 => .ok (.min f.rd f.ra f.rb)
  | 14 => .ok (.max f.rd f.ra f.rb)
  | 15 => .ok (.pow f.rd f.ra f.imm19)
  | 16 => .ok (.sin f.rd f.ra)
  | 17 => .ok (.cos f.rd f.ra)
  | 18 => .ok (.tan f.rd f.ra)
  | 19 => .ok (.exp f.rd f.ra)
  | 20 => .ok (.log f.rd f.ra)
  | 21 => .ok (.sqrt f.rd f.ra)
  | _ => .error (.unknownOpcode f.opcode)

/-- R81: the instruction a word is, by its opcode field alone. R88: a bit the format does not use is not looked at. -/
def decode (w : Word) : Except DecodeReject Instr := selectInstr (decodeFields w).opcode.toNat (decodeFields w)

/-- The host's view of the decoder: the low `nbits` bits of `w` laid out as one 32-bit word, every higher bit zero. The one
length of an instruction is 32 bits (R70) and the store holds whole words (spec/20_memory.md R53), so no byte order enters. -/
def wordOfTable (nbits w : Nat) : Word := BitVec.ofNat 32 (w % 2 ^ nbits)

/-- The instruction the decoder reads from a row's word of spec/opcode_table.json. -/
def decodeTableWord (nbits w : Nat) : Option Instr := (decode (wordOfTable nbits w)).toOption

/-! ### The encoder -/

/-- A 4-bit register field (R71, R76, R77). -/
def regField (r : RegIdx) : BitVec 4 := BitVec.ofFin r

/-- R74, format SET. -/
def encodeSET (op : BitVec 5) (rd : RegIdx) (imm23 : BitVec 23) : Word := op ++ regField rd ++ imm23

/-- R75, format GET, ignored bits zero (R88). -/
def encodeGET (op : BitVec 5) (rd : RegIdx) : Word := op ++ regField rd ++ 0#23

/-- R76, format R1, ignored bits zero (R88). -/
def encodeR1 (op : BitVec 5) (rd ra : RegIdx) : Word := op ++ regField rd ++ regField ra ++ 0#19

/-- R77, format R2, ignored bits zero (R88). -/
def encodeR2 (op : BitVec 5) (rd ra rb : RegIdx) : Word :=
  op ++ regField rd ++ regField ra ++ regField rb ++ 0#15

/-- R78, format RI. -/
def encodeRI (op : BitVec 5) (rd ra : RegIdx) (imm19 : BitVec 19) : Word :=
  op ++ regField rd ++ regField ra ++ imm19

/-- The word of an instruction: the table of R81 with the formats of R74 to R78. -/
def encode : Instr → Word
  | .set rd imm23 => encodeSET 0 rd imm23
  | .get rd => encodeGET 1 rd
  | .move rd ra => encodeR1 2 rd ra
  | .fadd rd ra rb => encodeR2 3 rd ra rb
  | .fsub rd ra rb => encodeR2 4 rd ra rb
  | .fneg rd ra => encodeR1 5 rd ra
  | .fmul rd ra rb => encodeR2 6 rd ra rb
  | .fdiv rd ra rb => encodeR2 7 rd ra rb
  | .floor rd ra => encodeR1 8 rd ra
  | .ceil rd ra => encodeR1 9 rd ra
  | .round rd ra => encodeR1 10 rd ra
  | .fabs rd ra => encodeR1 11 rd ra
  | .finv rd ra => encodeR1 12 rd ra
  | .min rd ra rb => encodeR2 13 rd ra rb
  | .max rd ra rb => encodeR2 14 rd ra rb
  | .pow rd ra imm19 => encodeRI 15 rd ra imm19
  | .sin rd ra => encodeR1 16 rd ra
  | .cos rd ra => encodeR1 17 rd ra
  | .tan rd ra => encodeR1 18 rd ra
  | .exp rd ra => encodeR1 19 rd ra
  | .log rd ra => encodeR1 20 rd ra
  | .sqrt rd ra => encodeR1 21 rd ra

end Sys2Proof
end

