-- ==== Sys2Proof/Machine/State.lean ====
section
/-! DEFINITION. The architectural state (spec/10_state.md R20), the reasons a step can stop, and the state after reset
(R40). -/

namespace Sys2Proof.Machine

/-- spec/60_exceptions.md R300, R301: the three fatal errors, the `code` of a fault record. -/
inductive FaultCode where
  /-- R304: an inverted bit range. Nothing raises it. -/
  | decodeError
  /-- R302: the opcode field is 22 to 31. -/
  | unknownOpcode
  /-- R303: a negative count at the power operation. -/
  | unsupportedOperation
  deriving DecidableEq, Repr

/-- R301: the numbers the spec assigns; 0 is never a code. -/
def FaultCode.number : FaultCode → Nat
  | .decodeError => 1
  | .unknownOpcode => 2
  | .unsupportedOperation => 3

/-- spec/10_state.md R34: the record a fatal error leaves. -/
structure FaultRecord where
  code : FaultCode
  /-- The program index of the faulting instruction. -/
  index : Nat
  deriving DecidableEq, Repr

/-- spec/10_state.md R20: the four items of the architectural state, and with them the run's input PROGRAM (R39), held here
because a step is a function of the state alone (log 1). -/
structure State where
  /-- R21: the register file, 16 cells of 32 bits. -/
  x : Vector Word 16
  /-- R29: the index into PROGRAM of the instruction being executed, in words. -/
  pc : Nat
  /-- R32: the output sequence, in program order of the Gets. -/
  out : List Word
  /-- R34: the fault status. -/
  fault : Option FaultRecord
  /-- spec/20_memory.md R51: the instruction store, read-only for the whole run. -/
  program : List Word
  deriving DecidableEq, Repr

/-- Why no step exists. These are not the spec's fatal errors: raising one of those is a next state (R306). -/
inductive Fault where
  /-- R34: "While it is not `none` no step exists." The step raises it in the fault state, with the record the state holds.
  Safe: the machine is stuck there until reset (R307). -/
  | halted (r : FaultRecord)
  /-- R31: the program index has reached the end of PROGRAM, the run is over and no further step exists. The step raises it.
  Safe. -/
  | runOver
  deriving DecidableEq, Repr

/-- Why the model refuses an instruction. -/
inductive Refusal where
  /-- An instruction without a meaning, raised by its arm of `exec`. No arm raises it: every instruction has its meaning. Safe. -/
  | notModelled (mnemonic : String)
  deriving DecidableEq, Repr

/-- R40, spec/70_reset_and_hazards.md R331: the state after reset: every register zero, index 0, no output, no fault. The
instruction store is the host's to place before reset is released (R332); here nothing is placed (log 1). -/
def State.reset : State where
  x := Vector.replicate 16 0
  pc := 0
  out := []
  fault := none
  program := []

end Sys2Proof.Machine
end

