-- ==== Sys2Proof/Machine/Operands.lean ====
section
/-! DEFINITION. The operand forms: the fields of a 32-bit pattern (spec/00_scope.md R8 to R14), the decoder's primitive
(spec/30_encoding.md R72), the two read ports (spec/10_state.md R23), the immediates (R80) and the `float_codec`
(spec/40_sequencer_set_get_move.md R116, R118). -/

namespace Sys2Proof.Machine

/-! ### FloatBits32 (R11) -/

/-- R11: the sign bit, true for 1. -/
def sign (v : Word) : Bool := v.getLsbD 31

/-- R11: the stored exponent field, 0 to 255. -/
def expf (v : Word) : Nat := (v.extractLsb' 23 8).toNat

/-- R11: the 23-bit mantissa field. -/
def frac (v : Word) : Nat := (v.extractLsb' 0 23).toNat

/-- R11: the 24-bit significand "with implicit leading 1 restored", whatever the exponent field is
(spec/41_add_sub.md R143). -/
def sig (v : Word) : Nat := 2 ^ 23 + frac v

/-- R11: `{s, e[7:0], m[22:0]}`. -/
def pack (s : Bool) (e m : Nat) : Word := BitVec.ofBool s ++ BitVec.ofNat 8 e ++ BitVec.ofNat 23 m

/-- R14: the index of the highest set bit of a positive integer. -/
def msb (n : Nat) : Nat := n.log2

/-- R14. -/
def lowmask (n : Nat) : Nat := 2 ^ n - 1

/-! ### The decoder's primitive (R72) -/

/-- R72: "Fails with a RangeError if `left < right`", the DecodeError of spec/60_exceptions.md R304. -/
def extractField (w : Word) (left right : Nat) : Except FaultCode Nat :=
  if left < right then .error .decodeError else .ok (bitRange w left right)

/-! ### Register and immediate operands -/

/-- R21, R23: a read of the register file. It has no side effect (R23). -/
def readReg (s : State) (i : RegIdx) : Word := s.x[i]

/-- R80: `imm19` as ALU operand B, a non-negative count. -/
def immediateB (imm19 : BitVec 19) : Word := imm19.setWidth 32

/-! ### The float codec -/

/-- R116: ReducedFloat23 to FloatBits32: the sign, the 5-bit exponent plus 112, the 17-bit mantissa left-justified over six
zero bits. -/
def codecDecode (r : BitVec 23) : Word :=
  r.extractLsb' 22 1 ++ BitVec.ofNat 8 ((r.extractLsb' 17 5).toNat + 112) ++ r.extractLsb' 0 17 ++ 0#6

/-- R118, the assembler's side: the low 6 mantissa bits truncated. Outside the format's domain (exponent field 112 to 143) the
spec gives no value (log 10). -/
def codecEncode (v : Word) : Option (BitVec 23) :=
  if 112 ≤ expf v ∧ expf v ≤ 143 then
    some (BitVec.ofBool (sign v) ++ BitVec.ofNat 5 (expf v - 112) ++ v.extractLsb' 6 17)
  else none

end Sys2Proof.Machine
end

