-- ==== Sys2Proof/Machine/Flags.lean ====
section
/-! DEFINITION. The hardware has no flag and no condition code (spec/10_state.md R35): "Degenerate arithmetic is reported in
band, by the sentinel value in the destination register". This file holds those in-band conditions: the named patterns
(spec/00_scope.md R12), the predicates on them (R13), the classification of the native unit (spec/42_mul_div_pow.md R191) and
its NaN (R196). -/

namespace Sys2Proof.Machine

/-! ### Named patterns (R12) -/

/-- The NaN/error sentinel. -/
def SENT : Word := 0xFFFFFFFF
def POS_INF : Word := 0x7F800000
def NEG_INF : Word := 0xFF800000
def ZERO : Word := 0x00000000
def NEG_ZERO : Word := 0x80000000
/-- 1.0. -/
def ONE : Word := 0x3F800000
/-- -1.0. -/
def NEG_ONE : Word := 0xBF800000
/-- The sign mask. -/
def SIGN : Word := 0x80000000
/-- The magnitude mask. -/
def ABS : Word := 0x7FFFFFFF

/-! ### Predicates of the bit-level operations (R13) -/

/-- R13: the sentinel or a signed infinity. -/
def isSpecial (v : Word) : Bool := v == SENT || v &&& ABS == POS_INF

/-- R13: zero of either sign. -/
def isZero (v : Word) : Bool := v &&& ABS == 0

/-! ### The native unit's view (R191) -/

/-- R191. -/
inductive IeeeClass where
  | nan
  | inf
  | zero
  | finite
  deriving DecidableEq, Repr

/-- R191: the sentinel is a NaN here. -/
def ieeeClass (v : Word) : IeeeClass :=
  if expf v = 255 then (if frac v = 0 then .inf else .nan)
  else if expf v = 0 ∧ frac v = 0 then .zero
  else .finite

/-- R191: `|ieee_val v|` in units of 2^-149, the weight of the lowest bit of a subnormal: every finite value is a whole number
of them. A subnormal has no implicit 1. -/
def ieeeMag (v : Word) : Nat :=
  if expf v = 0 then frac v else (2 ^ 23 + frac v) * 2 ^ (expf v - 1)

/-- R196: the pattern of a NaN that a native operation produces: any NaN-class pattern the host chooses, `0x7FC00000` where the
free choice is no NaN. Nothing may rest on which (R196); log 5. -/
def nativeNan (call : Config.NativeCall) : Word :=
  if ieeeClass (Config.nativeNanChoice call) = .nan then Config.nativeNanChoice call else 0x7FC00000

end Sys2Proof.Machine
end

