-- ==== Sys2Proof/Machine/Ops.lean ====
section
/-! DEFINITION. The named operations over the state: the write port (spec/10_state.md R24), the output append (R32), the
program index (R30), raising a fatal error (spec/60_exceptions.md R306) and reset, the only way out of one (R307), the fetch
(spec/20_memory.md R52) and what the host sees (spec/10_state.md R33). -/

namespace Sys2Proof.Machine

/-- What a step answers. -/
abbrev StepResult := Host.Outcome State Fault Refusal

/-- R24: the one write port. Every register is an ordinary cell (R22). -/
def State.writeReg (s : State) (i : RegIdx) (v : Word) : State := { s with x := s.x.set i v }

/-- R32: "one appended per Get instruction encountered in program order". -/
def State.appendOut (s : State) (v : Word) : State := { s with out := s.out ++ [v] }

/-- R30: the one change of the program index. -/
def State.advance (s : State) : State := { s with pc := s.pc + 1 }

/-! ### Raising a fatal error and leaving it -/

/-- spec/60_exceptions.md R306: "atomically: `fault <- (code, pc)`". The registers, the output, the index and the program are
as they were, no handler is entered, and no step exists afterwards (R34). -/
def State.raise (s : State) (code : FaultCode) : State := { s with fault := some ⟨code, s.pc⟩ }

/-- spec/70_reset_and_hazards.md R330: reset asserted in any state, the fault state included. R307: there is no other return
from a fault. The program stays where the host placed it (R332, log 12). -/
def State.assertReset (s : State) : State := { State.reset with program := s.program }

/-- R332: a run starts from reset with PROGRAM in place. -/
def State.load (program : List Word) : State := { State.reset with program := program }

/-! ### The commit phase (spec/40_sequencer_set_get_move.md R120) -/

/-- R111: `x[rd] <- v ; pc <- pc + 1`. -/
def writeBack (rd : RegIdx) (v : Word) (s : State) : StepResult := .next (s.writeReg rd v).advance

/-- R111, R120: the commit of an operation that may raise: if it does, no state changes except the fault status. -/
def writeBackOrRaise (rd : RegIdx) (r : Except FaultCode Word) (s : State) : StepResult :=
  match r with
  | .ok v => writeBack rd v s
  | .error code => .next (s.raise code)

/-- R112, R114: `out <- out ++ [v] ; pc <- pc + 1`. The register file is not changed. -/
def emit (v : Word) (s : State) : StepResult := .next (s.appendOut v).advance

/-! ### Fetch -/

/-- spec/20_memory.md R52: the word at the program index, none when the run is over (spec/10_state.md R31). -/
def fetch (s : State) : Option Word := s.program[s.pc]?

/-- The host's hook behind `State.withFetchWord`: the word placed where the next step fetches. A store shorter than the index
is filled up with zero words, which no step runs (log 1). A recorded fault is cleared, since no step exists in the fault
state. -/
def placeFetchWord (s : State) (w : Word) : State :=
  { s with
    fault := none
    program := s.program.take s.pc ++ List.replicate (s.pc - s.program.length) 0 ++ w :: s.program.drop (s.pc + 1) }

/-! ### What the host sees (R33) -/

/-- R33, R34: the run result. -/
inductive RunResult where
  /-- The run is not over. -/
  | running
  /-- "each a raw 32-bit pattern". -/
  | values (vs : List Word)
  /-- The fault record, and no value list. -/
  | faulted (r : FaultRecord)
  deriving DecidableEq, Repr

/-- R33: `out` if it is not empty, otherwise the 16 registers in index order; in the fault state the record. -/
def runResult (s : State) : RunResult :=
  match s.fault with
  | some r => .faulted r
  | none =>
    if s.pc < s.program.length then .running
    else if s.out = [] then .values s.x.toList
    else .values s.out

end Sys2Proof.Machine
end

