-- ==== Sys2Proof/Machine/AddSub.lean ====
section
/-! DEFINITION. Fadd and Fsub with the `mantissa_alignment_engine` and the `rounding_unit` (spec/41_add_sub.md). Extended
significands are natural numbers below 2^29 whose bit 0 is the sticky bit (R144); exponents are integers (R146). -/

namespace Sys2Proof.Machine

/-- R144, the alignment engine: a 24-bit significand over a 4-bit tail, shifted right by the exponent difference, every bit
shifted out folded into the sticky bit. -/
def align (m d : Nat) : Nat :=
  let ext := m <<< 4
  (ext >>> d) ||| (if ext &&& lowmask d ≠ 0 then 1 else 0)

/-- R145: the magnitude and the sign of the sum, the larger-exponent operand first. -/
def combine (sB : Bool) (xB : Nat) (sS : Bool) (xS : Nat) : Nat × Bool :=
  if sB = sS then (xB + xS, sB)
  else if xS ≤ xB then (xB - xS, sB)
  else (xS - xB, sS)

/-- R146: the implicit bit brought to bit 27. -/
def normalize (x : Nat) (e : Int) : Nat × Int :=
  let p := msb x
  if p = 28 then ((x >>> 1) ||| (x &&& 1), e + 1)
  else if p < 27 then (x <<< (27 - p), e - ((27 - p : Nat) : Int))
  else (x, e)

/-- R148: above the half-way threshold, or exactly at it with a negative result. -/
def roundsUp (s : Bool) (tail : Nat) : Bool := decide (8 < tail) || (decide (tail = 8) && s)

/-- R147 to R149, the range check before the rounding unit, and the rounding unit with its carry. -/
def roundSum (s : Bool) (x : Nat) (e : Int) : Word :=
  if e < 1 ∨ 254 < e then SENT
  else
    let m := x >>> 4
    if roundsUp s (x % 16) then
      if m + 1 = 2 ^ 24 then
        (if 254 < e + 1 then SENT else pack s (e + 1).toNat 0)
      else pack s e.toNat (m + 1)
    else pack s e.toNat m

/-- R143 to R149, the general path, the first operand the one with the larger exponent field (either when they are equal). -/
def addOrdered (big small : Word) : Word :=
  let xs := combine (sign big) (sig big <<< 4) (sign small) (align (sig small) (expf big - expf small))
  let xe := normalize xs.1 (expf big)
  roundSum xs.2 xe.1 xe.2

/-- R150, the whole of addition: the shortcuts of R142 in their order, then the general path. -/
def add (a b : Word) : Word :=
  if isSpecial a || isSpecial b then SENT
  else if isZero a then b
  else if isZero b then a
  else if a ^^^ b = SIGN then ZERO
  else if expf b ≤ expf a then addOrdered a b
  else addOrdered b a

/-- R141: "flip the sign bit of operand B, then run addition". -/
def subtract (a b : Word) : Word := add a (b ^^^ SIGN)

/-- R140. -/
def execFadd (rd ra rb : RegIdx) (s : State) : StepResult :=
  writeBack rd (add (readReg s ra) (readReg s rb)) s

/-- R141. -/
def execFsub (rd ra rb : RegIdx) (s : State) : StepResult :=
  writeBack rd (subtract (readReg s ra) (readReg s rb)) s

end Sys2Proof.Machine
end

