-- ==== Sys2Proof/Machine/DataMove.lean ====
section
/-! DEFINITION. Set, Get, Move (spec/40_sequencer_set_get_move.md R112 to R115). -/

namespace Sys2Proof.Machine

/-- R113: `x[rd] <- codec_decode(imm23)`. -/
def execSet (rd : RegIdx) (imm23 : BitVec 23) (s : State) : StepResult := writeBack rd (codecDecode imm23) s

/-- R114: `out <- out ++ [x[rd]]`. -/
def execGet (rd : RegIdx) (s : State) : StepResult := emit (readReg s rd) s

/-- R115: the ALU's identity: operand A, bit for bit. -/
def identity (a : Word) : Word := a

/-- R115. -/
def execMove (rd ra : RegIdx) (s : State) : StepResult := writeBack rd (identity (readReg s ra)) s

end Sys2Proof.Machine
end

