-- ==== Sys2Proof/Machine/ExpLog.lean ====
section
/-! DEFINITION. Exp and Log (spec/45_transcendental.md R275 to R277). `EXP_FN` and `LOG_FN` are open parameters of the spec,
held by it to fixed values at the special operands, to within 1 ULP of e^v and ln v elsewhere, and to be monotone. Here the
admissible results of an operand are computed as an interval of patterns, and a free switch point (`Config.expSwitch`,
`Config.logSwitch`) picks inside it (logs 6, 7, 8).

Fixed point: a natural number `n` stands for `n / 2^420`. The one estimate used is `1 + x ≤ e^x`: squaring `1 + v/2^128` 128
times, rounding down, stays below `e^v`, and the reciprocal of the same for `-v` stays above it. -/

namespace Sys2Proof.Machine

/-! ### Order keys -/

/-- A natural number that orders the non-NaN patterns by value, a negative pattern below a positive one. -/
def orderKey (v : Word) : Nat := if sign v then 2 ^ 31 - (v &&& ABS).toNat else 2 ^ 31 + (v &&& ABS).toNat

/-- The pattern of an order key; the key of zero gives +0. -/
def ofOrderKey (k : Nat) : Word :=
  if 2 ^ 31 ≤ k then BitVec.ofNat 32 (k - 2 ^ 31) else SIGN ||| BitVec.ofNat 32 (2 ^ 31 - k)

/-- The greatest key in `lo` to `lo + n` whose switch point the operand has reached, `lo` if none. With a monotone `lo` and
`lo + n` this is monotone in `rank`, and every monotone choice inside the intervals is of this form. -/
def pick (switch : Nat → Nat) (rank lo : Nat) : Nat → Nat
  | 0 => lo
  | n + 1 => if switch (lo + n + 1) ≤ rank then lo + n + 1 else pick switch rank lo n

/-! ### Bounds of e^v -/

/-- `k` squarings of a fixed-point number, each rounded down. -/
def squareDown : Nat → Nat → Nat
  | 0, x => x
  | k + 1, x => squareDown k ((x * x) >>> 420)

/-- A lower bound of `2^420 * e^v`, `v = mag * 2^-149` or its negation, for `mag < 2^156` (|v| below 128). -/
def expLower (neg : Bool) (mag : Nat) : Nat :=
  squareDown 128 (if neg then 2 ^ 420 - mag * 2 ^ 143 else 2 ^ 420 + mag * 2 ^ 143)

/-- An upper bound of `2^420 * e^v`, from `e^v = 1 / e^(-v)`. -/
def expUpper (neg : Bool) (mag : Nat) : Nat := 2 ^ 840 / expLower (!neg) mag + 1

/-! ### Patterns and fixed point -/

/-- The fixed-point value of the non-negative pattern `p`, exact. The infinity counts as 2^128, the value after the largest
finite one. -/
def gridValue (p : Nat) : Nat := ieeeMag (BitVec.ofNat 32 p) * 2 ^ 271

/-- The greatest non-negative pattern whose value is at most a fixed-point number. -/
def gridFloor (x : Nat) : Nat :=
  if x.log2 < 294 then x >>> 271
  else if 548 ≤ x.log2 then 0x7F800000
  else (x.log2 - 293) * 2 ^ 23 + (x >>> (x.log2 - 23) - 2 ^ 23)

/-- The least non-negative pattern whose value is at least a fixed-point number, the infinity past the last. -/
def gridCeil (x : Nat) : Nat :=
  if gridFloor x < 0x7F800000 ∧ gridValue (gridFloor x) < x then gridFloor x + 1 else gridFloor x

/-- The least non-negative pattern within 1 ULP of every number just above `x`: the pattern at or below `x`, or the one before
it in the first half step of a binade, where the ULP is twice the step below. -/
def gridLow (x : Nat) : Nat :=
  if 294 < x.log2 ∧ x.log2 ≤ 548 ∧ x >>> (x.log2 - 24) = 2 ^ 24 then gridFloor x - 1 else gridFloor x

/-! ### EXP_FN -/

/-- R276 (iv): the least and the greatest pattern within 1 ULP of e^v, for a finite non-zero operand; by (iii) and (v) none below
1.0 for a positive operand, none above it for a negative one. The next pattern at or above e^v is the greatest within 1 ULP.
From |v| = 128 on, e^v is past every finite pattern, or below every positive one. -/
def expBounds (a : Word) : Nat × Nat :=
  if 2 ^ 156 ≤ ieeeMag a then (if sign a then (0, 1) else (0x7F800000, 0x7F800000))
  else
    let lo := gridLow (expLower (sign a) (ieeeMag a))
    let hi := gridCeil (expUpper (sign a) (ieeeMag a))
    if sign a then (lo, min hi 0x3F800000) else (max lo 0x3F800000, hi)

/-- R276, `EXP_FN`: (i) NaN, (ii) the infinities, (iii) the zeros, (iv) and (v) a free monotone choice within 1 ULP. -/
def expFn (a : Word) : Word :=
  match ieeeClass a with
  | .nan => nativeNan (.exponent a)
  | .inf => if sign a then ZERO else POS_INF
  | .zero => ONE
  | .finite =>
    let b := expBounds a
    ofOrderKey (pick Config.expSwitch (orderKey a) (2 ^ 31 + b.1) (b.2 - b.1))

/-- R276. -/
def execExp (rd ra : RegIdx) (s : State) : StepResult := writeBack rd (expFn (readReg s ra)) s

/-! ### LOG_FN -/

/-- `m * 2^-149 ≤ |ln v|` for the operand `v = mag * 2^-149`, decided by a bound of e^(±m): with `certain` it holds wherever the
answer is true, without it it fails wherever the answer is false. |ln v| is below 128 for every operand. -/
def lnReaches (certain : Bool) (mag m : Nat) : Bool :=
  if 2 ^ 156 ≤ m then false
  else if mag < 2 ^ 149 then
    decide (mag * 2 ^ 271 ≤ (if certain then expLower true m else expUpper true m))
  else
    decide ((if certain then expUpper false m else expLower false m) ≤ mag * 2 ^ 271)

/-- The greatest pattern that passes `lnReaches`, one bit a step, the highest first. -/
def lnSearch (certain : Bool) (mag : Nat) : Nat → Nat → Nat
  | 0, p => p
  | i + 1, p =>
    lnSearch certain mag i
      (if lnReaches certain mag (ieeeMag (BitVec.ofNat 32 (p + 2 ^ i))) then p + 2 ^ i else p)

/-- R277 (vi): the least and the greatest magnitude pattern within 1 ULP of |ln v|, for a positive finite operand other than
1.0; the least as in `gridLow`. -/
def logBounds (mag : Nat) : Nat × Nat :=
  let pl := lnSearch true mag 31 0
  let pu := lnSearch false mag 31 0
  let half := ieeeMag (BitVec.ofNat 32 (pl - 1)) + 2 ^ (expf (BitVec.ofNat 32 pl) - 1)
  (if lnReaches true mag half then pl else pl - 1, pu + 1)

/-- R277, `LOG_FN`, the natural logarithm: (i) NaN, (ii) the zeros, (iii) negative operands, (iv) infinity, (v) 1.0, (vi) a free
monotone choice within 1 ULP. -/
def logFn (a : Word) : Word :=
  if ieeeClass a = .nan then nativeNan (.logarithm a)
  else if ieeeClass a = .zero then NEG_INF
  else if sign a then nativeNan (.logarithm a)
  else if ieeeClass a = .inf then POS_INF
  else if a = ONE then ZERO
  else
    let b := logBounds (ieeeMag a)
    let lo := if ieeeMag a < 2 ^ 149 then 2 ^ 31 - b.2 else 2 ^ 31 + b.1
    ofOrderKey (pick Config.logSwitch (orderKey a) lo (b.2 - b.1))

/-- R277. -/
def execLog (rd ra : RegIdx) (s : State) : StepResult := writeBack rd (logFn (readReg s ra)) s

end Sys2Proof.Machine
end

