-- ==== Sys2Proof/Machine/FloorCeilRound.lean ====
section
/-! DEFINITION. Floor, Ceil, Round (spec/44_floor_ceil_round.md). -/

namespace Sys2Proof.Machine

/-- R241, R242: the whole word with its `n` low bits cleared. -/
def maskFraction (a : Word) (n : Nat) : Word := a &&& ~~~BitVec.ofNat 32 (lowmask n)

/-- R241: the candidate with the smaller magnitude. -/
def magDown (a : Word) : Word :=
  if expf a < 127 then ZERO
  else if 150 ≤ expf a then a
  else maskFraction a (150 - expf a)

/-- R242: the candidate with the larger magnitude; the carry runs into the exponent field. -/
def magUp (a : Word) : Word :=
  if expf a < 127 then pack (sign a) 0x7F 0
  else if 150 ≤ expf a then a
  else if a &&& BitVec.ofNat 32 (lowmask (150 - expf a)) = 0 then a
  else maskFraction a (150 - expf a) + BitVec.ofNat 32 (2 ^ (150 - expf a))

/-- R243: by magnitude from 1.0 on, whatever the sign (R247). -/
def floor (a : Word) : Word :=
  if expf a < 127 then (if sign a then NEG_ONE else ZERO) else magDown a

/-- R244. -/
def ceil (a : Word) : Word :=
  if expf a < 127 then (if sign a then ZERO else ONE) else magUp a

/-- R245: bit `i` of the significand, counted down from the integer point: zero outside 0 to 23. -/
def discardedBit (a : Word) (n k : Nat) : Bool := decide (k ≤ n) && (sig a).testBit (n - k)

/-- R245: the two most significant discarded bits select, with addition's tie rule. -/
def round (a : Word) : Word :=
  if 150 ≤ expf a then a
  else
    let n := 150 - expf a
    let k1 := discardedBit a n 1
    let k0 := discardedBit a n 2
    if k1 && (k0 || sign a) then magUp a else magDown a

/-- R243. -/
def execFloor (rd ra : RegIdx) (s : State) : StepResult := writeBack rd (floor (readReg s ra)) s

/-- R244. -/
def execCeil (rd ra : RegIdx) (s : State) : StepResult := writeBack rd (ceil (readReg s ra)) s

/-- R245. -/
def execRound (rd ra : RegIdx) (s : State) : StepResult := writeBack rd (round (readReg s ra)) s

end Sys2Proof.Machine
end

