-- ==== Sys2Proof/Machine/MulPow.lean ====
section
/-! DEFINITION. Fmul and Pow (spec/42_mul_div_pow.md R180 to R182, R200 to R203). -/

namespace Sys2Proof.Machine

/-- R181: the shortcuts, then the 48-bit product renormalized by at most one position and truncated. -/
def mul (a b : Word) : Word :=
  if isSpecial a || isSpecial b then SENT
  else
    let s := sign a != sign b
    if isZero a || isZero b then pack s 0 0
    else
      let p := sig a * sig b
      let e₀ : Int := (expf a : Int) + (expf b : Int) - 127
      let m := if 2 ^ 47 ≤ p then p >>> 24 else p >>> 23
      let e := if 2 ^ 47 ≤ p then e₀ + 1 else e₀
      if e < 1 ∨ 254 < e then SENT else pack s e.toNat m

/-- R201, "repeat": `k` more multiplications, the accumulator on the left. -/
def mulRepeat (a : Word) : Nat → Word → Word
  | 0, r => r
  | k + 1, r => mulRepeat a k (mul r a)

/-- R201, R202: operand B is a 32-bit count; one with bit 31 set is negative and fails. A count of 0 gives 1.0 whatever operand
A is, a count of 1 operand A unchanged. -/
def power (a n : Word) : Except FaultCode Word :=
  if n.getLsbD 31 then .error .unsupportedOperation
  else if n = 0 then .ok ONE
  else .ok (mulRepeat a (n.toNat - 1) a)

/-- R180. -/
def execFmul (rd ra rb : RegIdx) (s : State) : StepResult :=
  writeBack rd (mul (readReg s ra) (readReg s rb)) s

/-- R200: the count is the zero-extended immediate; a failure of the power operation raises (spec/60_exceptions.md R303). -/
def execPow (rd ra : RegIdx) (imm19 : BitVec 19) (s : State) : StepResult :=
  writeBackOrRaise rd (power (readReg s ra) (immediateB imm19)) s

end Sys2Proof.Machine
end

