-- ==== Sys2Proof/Machine/Native.lean ====
section
/-! DEFINITION. The native unit (spec/42_mul_div_pow.md R190 to R196): IEEE-754 binary32 division, and the correctly rounded
square root (spec/45_transcendental.md R278), with Fdiv and Sqrt. Exact positive rationals are pairs of a numerator and a
denominator. -/

namespace Sys2Proof.Machine

/-! ### Exact rationals -/

/-- `(num / den) / 2^k` as a pair. -/
def scaleRatio (num den : Nat) (k : Int) : Nat × Nat :=
  if 0 ≤ k then (num, den * 2 ^ k.toNat) else (num * 2 ^ (-k).toNat, den)

/-- `floor(log2(num / den))` of a positive rational. -/
def ratioLog2 (num den : Nat) : Int :=
  let k : Int := (num.log2 : Int) - (den.log2 : Int)
  let r := scaleRatio num den k
  if r.2 ≤ r.1 then k else k - 1

/-- R192: the integer nearest to `num / den`, a tie to the even one. -/
def nearestEven (num den : Nat) : Nat :=
  let m := num / den
  let rem := num % den
  if den < 2 * rem ∨ (2 * rem = den ∧ m % 2 = 1) then m + 1 else m

/-- R192: the exact positive rational `num / den` with a sign, rounded to binary32. -/
def ieeeRound (s : Bool) (num den : Nat) : Word :=
  let e := max (ratioLog2 num den) (-126)
  let n := scaleRatio num den (e - 23)
  let m₀ := nearestEven n.1 n.2
  let m := if m₀ = 2 ^ 24 then 2 ^ 23 else m₀
  let e' := if m₀ = 2 ^ 24 then e + 1 else e
  if m < 2 ^ 23 then pack s 0 m
  else if 127 < e' then pack s 0xFF 0
  else pack s (e' + 127).toNat (m - 2 ^ 23)

/-! ### Division -/

/-- R193, row by row. -/
def ieeeDiv (a b : Word) : Word :=
  let s := sign a != sign b
  match ieeeClass a, ieeeClass b with
  | .nan, _ => nativeNan (.divide a b)
  | _, .nan => nativeNan (.divide a b)
  | .inf, .inf => nativeNan (.divide a b)
  | .inf, _ => pack s 0xFF 0
  | _, .inf => pack s 0 0
  | .zero, .zero => nativeNan (.divide a b)
  | .finite, .zero => pack s 0xFF 0
  | .zero, .finite => pack s 0 0
  | .finite, .finite => ieeeRound s (ieeeMag a) (ieeeMag b)

/-- R185: "delegated to the host's native floating-point divide". -/
def execFdiv (rd ra rb : RegIdx) (s : State) : StepResult :=
  writeBack rd (ieeeDiv (readReg s ra) (readReg s rb)) s

/-! ### Square root -/

/-- One binary digit of the root a step, the highest first. -/
def isqrtLoop (n : Nat) : Nat → Nat → Nat
  | 0, r => r
  | i + 1, r => isqrtLoop n i (if (r + 2 ^ i) * (r + 2 ^ i) ≤ n then r + 2 ^ i else r)

/-- R278: "the integer with R*R <= X < (R+1)*(R+1)". -/
def isqrt (n : Nat) : Nat := isqrtLoop n (n.log2 / 2 + 1) 0

/-- R278, the positive finite case: `n * 2^p` through the integer square root, the added half standing for "inexact". -/
def sqrtFinite (n : Nat) (p : Int) : Word :=
  let k : Nat := if p % 2 = 0 then 52 else 53
  let x := n * 2 ^ k
  let r := isqrt x
  let twice := 2 * r + (if r * r = x then 0 else 1)
  let q := scaleRatio twice 1 (1 - (p - k) / 2)
  ieeeRound false q.1 q.2

/-- R278: the tests in the rule's order. -/
def ieeeSqrt (a : Word) : Word :=
  if ieeeClass a = .nan then nativeNan (.squareRoot a)
  else if ieeeClass a = .zero then a
  else if sign a then nativeNan (.squareRoot a)
  else if ieeeClass a = .inf then a
  else if expf a = 0 then sqrtFinite (frac a) (-149)
  else sqrtFinite (2 ^ 23 + frac a) ((expf a : Int) - 150)

/-- R278. -/
def execSqrt (rd ra : RegIdx) (s : State) : StepResult := writeBack rd (ieeeSqrt (readReg s ra)) s

end Sys2Proof.Machine
end

