-- ==== Sys2Proof/Machine/Series.lean ====
section
/-! DEFINITION. Sin, Cos, Tan (spec/45_transcendental.md R260 to R270): a 12-term series evaluated with the ALU's own `mul`
and `add`, the sign flip and the divide (R261). -/

namespace Sys2Proof.Machine

/-- R260: the binary32 value nearest to pi/180. -/
def DEG : Word := 0x3C8EFA35

/-- R262: `(2k+2)(2k+3)` for `k` = 0 to 10. -/
def sinDen : List Word :=
  [0x40C00000, 0x41A00000, 0x42280000, 0x42900000, 0x42DC0000, 0x431C0000,
   0x43520000, 0x43880000, 0x43AB0000, 0x43D20000, 0x43FD0000]

/-- R262: `(2k+1)(2k+2)` for `k` = 0 to 10. -/
def cosDen : List Word :=
  [0x40000000, 0x41400000, 0x41F00000, 0x42600000, 0x42B40000, 0x43040000,
   0x43360000, 0x43700000, 0x43990000, 0x43BE0000, 0x43E70000]

/-- R262, R263: the loop over the denominators: multiply, divide, then sum. `t` is the current term, `s` the sum so far. -/
def seriesSum (nx2 : Word) : List Word → Word → Word → Word
  | [], _, s => s
  | den :: dens, t, s =>
    let t' := ieeeDiv (mul t nx2) den
    seriesSum nx2 dens t' (add s t')

/-- R263: radians. -/
def radians (a : Word) : Word := mul a DEG

/-- R263: `-(x^2)`; "the flip is applied to whatever mul returns". -/
def negSquare (x : Word) : Word := mul x x ^^^ SIGN

/-- R263. -/
def sine (a : Word) : Word := seriesSum (negSquare (radians a)) sinDen (radians a) (radians a)

/-- R264. -/
def cosine (a : Word) : Word := seriesSum (negSquare (radians a)) cosDen ONE ONE

/-- R265: "sine result divided by cosine result (native divide)". -/
def tangent (a : Word) : Word := ieeeDiv (sine a) (cosine a)

/-- R263. -/
def execSin (rd ra : RegIdx) (s : State) : StepResult := writeBack rd (sine (readReg s ra)) s

/-- R264. -/
def execCos (rd ra : RegIdx) (s : State) : StepResult := writeBack rd (cosine (readReg s ra)) s

/-- R265. -/
def execTan (rd ra : RegIdx) (s : State) : StepResult := writeBack rd (tangent (readReg s ra)) s

end Sys2Proof.Machine
end

