-- ==== Sys2Proof/Machine/SignMinMax.lean ====
section
/-! DEFINITION. Fneg, Finv, Fabs, Min, Max (spec/43_sign_minmax.md). Every pattern is an ordinary operand of these (R226). -/

namespace Sys2Proof.Machine

/-- R220: "flip only the sign bit". -/
def negate (a : Word) : Word := a ^^^ SIGN

/-- R221: "exactly the function of Fneg"; not a reciprocal. -/
def inverse (a : Word) : Word := a ^^^ SIGN

/-- R222: "clear the sign bit". -/
def absolute (a : Word) : Word := a &&& ABS

/-- R223: sign, then exponent field, then mantissa field, the last two reversed between two negative patterns. -/
def less (a b : Word) : Bool :=
  if sign a != sign b then sign a
  else if expf a ≠ expf b then (if sign a then expf b < expf a else expf a < expf b)
  else if frac a ≠ frac b then (if sign a then frac b < frac a else frac a < frac b)
  else false

/-- R224. -/
def minimum (a b : Word) : Word := if less b a then b else a

/-- R225. -/
def maximum (a b : Word) : Word := if less a b then b else a

/-- R220. -/
def execFneg (rd ra : RegIdx) (s : State) : StepResult := writeBack rd (negate (readReg s ra)) s

/-- R221. -/
def execFinv (rd ra : RegIdx) (s : State) : StepResult := writeBack rd (inverse (readReg s ra)) s

/-- R222. -/
def execFabs (rd ra : RegIdx) (s : State) : StepResult := writeBack rd (absolute (readReg s ra)) s

/-- R224. -/
def execMin (rd ra rb : RegIdx) (s : State) : StepResult :=
  writeBack rd (minimum (readReg s ra) (readReg s rb)) s

/-- R225. -/
def execMax (rd ra rb : RegIdx) (s : State) : StepResult :=
  writeBack rd (maximum (readReg s ra) (readReg s rb)) s

end Sys2Proof.Machine
end

