-- ==== Sys2Proof/Machine/Dispatch.lean ====
section
/-! DEFINITION. One arm per instruction (spec/30_encoding.md R81), each a call of its meaning. -/

namespace Sys2Proof.Machine

def exec (i : Instr) (s : State) : Host.Outcome State Fault Refusal :=
  match i with
  | .set rd imm23 => Sys2Proof.Machine.execSet rd imm23 s
  | .get rd => Sys2Proof.Machine.execGet rd s
  | .move rd ra => Sys2Proof.Machine.execMove rd ra s
  | .fadd rd ra rb => Sys2Proof.Machine.execFadd rd ra rb s
  | .fsub rd ra rb => Sys2Proof.Machine.execFsub rd ra rb s
  | .fneg rd ra => Sys2Proof.Machine.execFneg rd ra s
  | .fmul rd ra rb => Sys2Proof.Machine.execFmul rd ra rb s
  | .fdiv rd ra rb => Sys2Proof.Machine.execFdiv rd ra rb s
  | .floor rd ra => Sys2Proof.Machine.execFloor rd ra s
  | .ceil rd ra => Sys2Proof.Machine.execCeil rd ra s
  | .round rd ra => Sys2Proof.Machine.execRound rd ra s
  | .fabs rd ra => Sys2Proof.Machine.execFabs rd ra s
  | .finv rd ra => Sys2Proof.Machine.execFinv rd ra s
  | .min rd ra rb => Sys2Proof.Machine.execMin rd ra rb s
  | .max rd ra rb => Sys2Proof.Machine.execMax rd ra rb s
  | .pow rd ra imm19 => Sys2Proof.Machine.execPow rd ra imm19 s
  | .sin rd ra => Sys2Proof.Machine.execSin rd ra s
  | .cos rd ra => Sys2Proof.Machine.execCos rd ra s
  | .tan rd ra => Sys2Proof.Machine.execTan rd ra s
  | .exp rd ra => Sys2Proof.Machine.execExp rd ra s
  | .log rd ra => Sys2Proof.Machine.execLog rd ra s
  | .sqrt rd ra => Sys2Proof.Machine.execSqrt rd ra s

end Sys2Proof.Machine
end

