-- ==== Sys2Proof/Machine/Step.lean ====
section
/-! DEFINITION. One step of the sequencer (spec/40_sequencer_set_get_move.md R110, R111) and the host's fetch hook. -/

namespace Sys2Proof.Machine

/-- R111: "A step exists if and only if `fault` is none and `pc < length(PROGRAM)`"; where none exists the answer says why. The
fetched word runs, or, if its opcode selects no instruction, raises UnknownOpcode (spec/60_exceptions.md R302). -/
def step (s : State) : Host.Outcome State Fault Refusal :=
  match s.fault with
  | some r => .fault (.halted r)
  | none =>
    match fetch s with
    | none => .fault .runOver
    | some w =>
      match decode w with
      | .ok i => exec i s
      | .error (.unknownOpcode _) => .next (s.raise .unknownOpcode)

/-- The state with a row's word where the next step fetches it (log 1). -/
def State.withFetchWord (s : State) (nbits w : Nat) : State := placeFetchWord s (wordOfTable nbits w)

end Sys2Proof.Machine
end

