-- ==== Sys2Proof/Machine/Control.lean ====
section
/-! DEFINITION. The `control_signal_table` (spec/30_encoding.md R82 to R86) and the ALU's dispatch `apply`
(spec/40_sequencer_set_get_move.md R119). -/

namespace Sys2Proof.Machine

/-- R82: the 20 ALU operations. The selector's "none" is `Option.none`. -/
inductive AluOp where
  | identity
  | add
  | subtract
  | negate
  | multiply
  | divide
  | floor
  | ceiling
  | round
  | absolute
  | inverse
  | minimum
  | maximum
  | power
  | sine
  | cosine
  | tangent
  | exponent
  | logarithm
  | squareRoot
  deriving DecidableEq, Repr

/-- R82. -/
inductive BSrc where
  | register
  | immediate
  deriving DecidableEq, Repr

/-- R82. -/
inductive WbSrc where
  | aluResult
  | codecDecode
  deriving DecidableEq, Repr

/-- R82, R83: the outputs of the table. -/
structure ControlSignals where
  aluOp : Option AluOp
  bSrc : BSrc
  wbSrc : WbSrc
  regWrite : Bool
  isGet : Bool
  illegal : Bool
  deriving DecidableEq, Repr

/-- R86: the selector's number, not normative: the opcode for opcodes 2 to 21, 0 for "none". -/
def aluSelector : Option AluOp → BitVec 5
  | none => 0
  | some .identity => 2
  | some .add => 3
  | some .subtract => 4
  | some .negate => 5
  | some .multiply => 6
  | some .divide => 7
  | some .floor => 8
  | some .ceiling => 9
  | some .round => 10
  | some .absolute => 11
  | some .inverse => 12
  | some .minimum => 13
  | some .maximum => 14
  | some .power => 15
  | some .sine => 16
  | some .cosine => 17
  | some .tangent => 18
  | some .exponent => 19
  | some .logarithm => 20
  | some .squareRoot => 21

/-- A row of R82 whose write-back value is the ALU's. -/
def aluRow (op : AluOp) (b : BSrc) : ControlSignals :=
  { aluOp := some op, bSrc := b, wbSrc := .aluResult, regWrite := true, isGet := false, illegal := false }

/-- R82, row by row, and R83 for Get and for opcodes 22 to 31, whose other outputs are don't-cares (log 9). -/
def control (opcode : BitVec 5) : ControlSignals :=
  match opcode.toNat with
  | 0 => { aluOp := none, bSrc := .register, wbSrc := .codecDecode, regWrite := true, isGet := false, illegal := false }
  | 1 => { aluOp := none, bSrc := .register, wbSrc := .aluResult, regWrite := false, isGet := true, illegal := false }
  | 2 => aluRow .identity .register
  | 3 => aluRow .add .register
  | 4 => aluRow .subtract .register
  | 5 => aluRow .negate .register
  | 6 => aluRow .multiply .register
  | 7 => aluRow .divide .register
  | 8 => aluRow .floor .register
  | 9 => aluRow .ceiling .register
  | 10 => aluRow .round .register
  | 11 => aluRow .absolute .register
  | 12 => aluRow .inverse .register
  | 13 => aluRow .minimum .register
  | 14 => aluRow .maximum .register
  | 15 => aluRow .power .immediate
  | 16 => aluRow .sine .register
  | 17 => aluRow .cosine .register
  | 18 => aluRow .tangent .register
  | 19 => aluRow .exponent .register
  | 20 => aluRow .logarithm .register
  | 21 => aluRow .squareRoot .register
  | _ => { aluOp := none, bSrc := .register, wbSrc := .aluResult, regWrite := false, isGet := false, illegal := true }

/-- R119: "Stateless function `apply(op, a, b) -> result`"; the power operation alone can fail. -/
def apply (op : AluOp) (a b : Word) : Except FaultCode Word :=
  match op with
  | .identity => .ok (identity a)
  | .add => .ok (add a b)
  | .subtract => .ok (subtract a b)
  | .negate => .ok (negate a)
  | .multiply => .ok (mul a b)
  | .divide => .ok (ieeeDiv a b)
  | .floor => .ok (floor a)
  | .ceiling => .ok (ceil a)
  | .round => .ok (round a)
  | .absolute => .ok (absolute a)
  | .inverse => .ok (inverse a)
  | .minimum => .ok (minimum a b)
  | .maximum => .ok (maximum a b)
  | .power => power a b
  | .sine => .ok (sine a)
  | .cosine => .ok (cosine a)
  | .tangent => .ok (tangent a)
  | .exponent => .ok (expFn a)
  | .logarithm => .ok (logFn a)
  | .squareRoot => .ok (ieeeSqrt a)

end Sys2Proof.Machine
end

