-- ==== Sys2Proof/Machine/Sequencer.lean ====
section
/-! DEFINITION. The sequencer as the spec wires it (spec/40_sequencer_set_get_move.md R110 to R112): decoder outputs, control
signals, read ports, ALU or codec, gated write port. It is a second design of the step: `Machine.step` runs the decoded
instruction's own meaning, this one routes the word's fields by the control table. That the two agree is a statement. -/

namespace Sys2Proof.Machine

/-- spec/10_state.md R23: read port A; its index multiplexer selects `rd` when the opcode is Get. -/
def readPortA (c : ControlSignals) (f : Fields) (s : State) : Word := readReg s (if c.isGet then f.rd else f.ra)

/-- R23: read port B. -/
def readPortB (f : Fields) (s : State) : Word := readReg s f.rb

/-- R111: operand B, from the immediate or read port B. -/
def operandB (c : ControlSignals) (f : Fields) (s : State) : Word :=
  match c.bSrc with
  | .immediate => immediateB f.imm19
  | .register => readPortB f s

/-- R111: the write-back value. `apply(none, a, b)` is never called (R119); that cell answers as an unsupported operation. -/
def writeBackValue (c : ControlSignals) (f : Fields) (s : State) : Except FaultCode Word :=
  match c.wbSrc, c.aluOp with
  | .codecDecode, _ => .ok (codecDecode f.imm23)
  | .aluResult, some op => apply op (readPortA c f s) (operandB c f s)
  | .aluResult, none => .error .unsupportedOperation

/-- spec/10_state.md R24: the write port "gated by a write-enable signal". -/
def gatedWrite (c : ControlSignals) (f : Fields) (v : Word) (s : State) : State :=
  if c.regWrite then s.writeReg f.rd v else s

/-- R111, the step function as written there. -/
def sequencerStep (s : State) : StepResult :=
  match s.fault with
  | some r => .fault (.halted r)
  | none =>
    match fetch s with
    | none => .fault .runOver
    | some w =>
      let f := decodeFields w
      let c := control f.opcode
      if c.isGet then .next (s.appendOut (readPortA c f s)).advance
      else if c.illegal then .next (s.raise .unknownOpcode)
      else
        match writeBackValue c f s with
        | .ok v => .next (gatedWrite c f v s).advance
        | .error code => .next (s.raise code)

end Sys2Proof.Machine
end

