-- ==== Sys2Proof/WellFormed.lean ====
section
/-! DEFINITION. The well-formedness checks. Every value of every field of a legal instruction is legal (spec/30_encoding.md
R89), and the types of `Instr` hold each field to its width, so an `Instr` needs no check of its own. What can be ill formed
is a word (an opcode that selects nothing, an ignored bit that an assembler should have written as zero) and a program. -/

namespace Sys2Proof

/-- R87, R89: the word's opcode field selects an instruction. -/
def Word.legal (w : Word) : Bool := w.extractLsb' 27 5 ≤ 21

/-- The bits of a word that the instruction selected by an opcode uses (R74 to R78): all 32 for SET and RI, opcode and rd for
GET, opcode, rd, ra and rb for R2, opcode, rd and ra for R1. An illegal opcode uses its own field only. -/
def Word.usedMask (op : BitVec 5) : Word :=
  match op.toNat with
  | 0 | 15 => 0xFFFFFFFF
  | 1 => 0xFF800000
  | 3 | 4 | 6 | 7 | 13 | 14 => 0xFFFF8000
  | 2 | 5 | 8 | 9 | 10 | 11 | 12 | 16 | 17 | 18 | 19 | 20 | 21 => 0xFFF80000
  | _ => 0xF8000000

/-- R88, "An assembler should write zero there": a legal word whose ignored bits are zero. -/
def Word.canonical (w : Word) : Bool :=
  w.legal && (w &&& Word.usedMask (w.extractLsb' 27 5) == w)

/-- R29, R51: a program that a gate-level build with a `width`-bit program index can hold. -/
def programFits (width : Nat) (p : List Word) : Bool := p.length < 2 ^ width

/-- Every word of a program selects an instruction, so a run of it raises no UnknownOpcode (R302). -/
def programLegal (p : List Word) : Bool := p.all Word.legal

end Sys2Proof
end

