-- ==== Sys2Proof/Safety.lean ====
section
/-! DEFINITION. What counts as a safe state and a safe run, and the other terms the claims use. -/

namespace Sys2Proof.Machine

/-- spec/40_sequencer_set_get_move.md R111: "A step exists if and only if `fault` is none and `pc < length(PROGRAM)`". -/
def CanStep (s : State) : Prop := s.fault = none ∧ s.pc < s.program.length

/-- The number of Get words of a list (opcode 1, spec/30_encoding.md R75). -/
def getCount (p : List Word) : Nat := p.countP (fun w => (decodeFields w).opcode == 1)

/-- What every state of a run satisfies. -/
structure RunInv (s : State) : Prop where
  /-- spec/10_state.md R31: the index "never exceeds `length(PROGRAM)`". -/
  pc_le : s.pc ≤ s.program.length
  /-- spec/60_exceptions.md R309: the first instruction that raises ends the run, so every word before the index is legal. -/
  legal_before : ∀ w ∈ s.program.take s.pc, Word.legal w = true
  /-- R32: "one appended per Get instruction encountered in program order". -/
  out_count : s.out.length = getCount (s.program.take s.pc)
  /-- R301, R302, R306: the one fault a program can reach, with the index of its word. -/
  fault_here : ∀ r, s.fault = some r →
    r.code = .unknownOpcode ∧ r.index = s.pc ∧ ∃ w, fetch s = some w ∧ Word.legal w = false

/-! ### What an instruction leaves -/

/-- The instruction completes at `s` with the next state in which register `rd` holds `v`, the index is one higher (R30), and
every other register, the output, the fault status and the program are as they were. -/
def WritesOnly (i : Instr) (s : State) (rd : RegIdx) (v : Word) : Prop :=
  ∃ t, exec i s = .next t ∧ readReg t rd = v ∧ (∀ r, r ≠ rd → readReg t r = readReg s r) ∧
    t.pc = s.pc + 1 ∧ t.out = s.out ∧ t.fault = s.fault ∧ t.program = s.program

/-- The form of the spec's worked examples: with the named registers holding the named patterns, a step at the word `w` leaves
`v` in register `rd`. -/
def RunsTo (w : Word) (inputs : List (RegIdx × Word)) (rd : RegIdx) (v : Word) : Prop :=
  ∀ s, (∀ p ∈ inputs, readReg s p.1 = p.2) →
    ∃ t, step (placeFetchWord s w) = .next t ∧ readReg t rd = v

/-! ### Exact values -/

/-- `(-1)^sign * sig * 2^(expf - 150)` in units of 2^-150: the value the bit-level operations give a pattern
(spec/41_add_sub.md R143, R152). -/
def bitLevelValue (v : Word) : Int := if sign v then -(sig v * 2 ^ expf v : Nat) else (sig v * 2 ^ expf v : Nat)

/-- spec/41_add_sub.md R152, the mathematical procedure: a sum of units of 2^-150, not zero, rounded to 24 significant bits to
nearest, a tie toward minus infinity, and the sentinel outside the exponent range. -/
def roundExact (v : Int) : Word :=
  let n := v.natAbs
  let p := msb n
  if p < 24 ∨ 277 < p then SENT
  else
    let half := 2 ^ (p - 24)
    let m := n / 2 ^ (p - 23)
    let rem := n % 2 ^ (p - 23)
    let m' := if half < rem ∨ (rem = half ∧ v < 0) then m + 1 else m
    if m' = 2 ^ 24 then (if 277 < p + 1 then SENT else pack (decide (v < 0)) (p - 22) 0)
    else pack (decide (v < 0)) (p - 23) m'

/-- spec/42_mul_div_pow.md R191, `ieee_val`: the real value of a finite pattern, or of a zero. -/
noncomputable def ieeeVal (a : Word) : ℝ :=
  if sign a then -((ieeeMag a : ℝ) / 2 ^ 149) else (ieeeMag a : ℝ) / 2 ^ 149

/-- The real value of the non-negative pattern with the number `c`; the infinity counts as 2^128 (log 6). -/
noncomputable def patternValue (c : Nat) : ℝ := (gridValue c : ℝ) / 2 ^ 420

/-- The unit in the last place at a positive real number: 2^(E - 23), E its exponent but at least -126 (logs 6 and 7). -/
noncomputable def ulp (x : ℝ) : ℝ := 2 ^ (max (Int.log 2 x) (-126) - 23)

/-- A run of `p` that never reaches the fault state. -/
def SafeRun (p : List Word) : Prop :=
  ∀ (k : Nat) (s : State), core.run k (State.load p) = .next s → s.fault = none

end Sys2Proof.Machine
end

