-- ==== Sys2Proof/Certificates/Slice0/Obligations.lean ====
section
/-! DEFINITION. The statements for the provers. Each docstring names the rule of spec/ or the model's choice behind it. -/

open Sys2Proof Sys2Proof.Machine

/-! ### Decoding and encoding -/

/-- spec/95_test_vectors.md 2.9 and the worked examples: words written out from the formats of R74 to R78. -/
def Obligations.DecodesTheSampleWords : Prop :=
  decode 0x001E0000 = .ok (.set 0 0x1E0000) ∧
  decode 0x09800000 = .ok (.get 3) ∧
  decode 0x11080000 = .ok (.move 2 1) ∧
  decode 0x19890000 = .ok (.fadd 3 1 2) ∧
  decode 0x7908000A = .ok (.pow 2 1 10) ∧
  decode 0x7FFFFFFF = .ok (.pow 15 15 524287) ∧
  decode 0x097FFFFF = .ok (.get 2) ∧
  decode 0x110FFFFF = .ok (.move 2 1) ∧
  decode 0xAFFFFFFF = .ok (.sqrt 15 15) ∧
  decode 0xB0000000 = .error (.unknownOpcode 22) ∧
  decode 0xFFFFFFFF = .error (.unknownOpcode 31)

/-- R71, R74 to R78, R81: decoding the word of an instruction gives that instruction, for every operand. -/
def Obligations.DecodeOfEncodeIsTheInstruction : Prop :=
  ∀ i : Instr, decode (encode i) = .ok i

/-- R74 to R78, R88: encoding what a word decodes to gives the word with its ignored bits cleared. -/
def Obligations.EncodeOfDecodeClearsIgnoredBits : Prop :=
  ∀ (w : Word) (i : Instr), decode w = .ok i → encode i = w &&& Word.usedMask (decodeFields w).opcode

/-- R88: two words that agree on the bits their format uses run as the same instruction, in any state. -/
def Obligations.IgnoredBitsExecuteAsZeros : Prop :=
  ∀ w w' : Word, Word.legal w = true →
    w &&& Word.usedMask (decodeFields w).opcode = w' &&& Word.usedMask (decodeFields w).opcode →
    ∃ i, decode w = .ok i ∧ decode w' = .ok i ∧
      ∀ s, step (placeFetchWord s w) = exec i (placeFetchWord s w) ∧
        step (placeFetchWord s w') = exec i (placeFetchWord s w')

/-- R87: opcode 22 to 31 is a word of 0xB0000000 or more; it selects no instruction, and executing it raises UnknownOpcode. -/
def Obligations.WordsFromB0000000RaiseUnknownOpcode : Prop :=
  ∀ w : Word, (22 ≤ bitRange w 31 27 ↔ 0xB0000000 ≤ w.toNat) ∧
    (22 ≤ bitRange w 31 27 →
      (∀ i, decode w ≠ .ok i) ∧
      ∀ s, step (placeFetchWord s w) = .next ((placeFetchWord s w).raise .unknownOpcode))

/-- R72: `extractField` gives the unsigned value of an inclusive bit range and fails exactly when the range is inverted; none of
the decoder's own ranges (R79) is inverted (R304). -/
def Obligations.ExtractFieldReadsTheBitRange : Prop :=
  (∀ (w : Word) (left right : Nat), left < right → extractField w left right = .error .decodeError) ∧
  (∀ (w : Word) (left right : Nat), right ≤ left → ∃ n, extractField w left right = .ok n ∧
    n < 2 ^ (left - right + 1) ∧ ∀ k ≤ left - right, n.testBit k = w.getLsbD (right + k)) ∧
  (∀ w : Word, extractField w 31 27 = .ok (decodeFields w).opcode.toNat ∧
    extractField w 26 23 = .ok (decodeFields w).rd.val ∧ extractField w 22 19 = .ok (decodeFields w).ra.val ∧
    extractField w 18 15 = .ok (decodeFields w).rb.val ∧ extractField w 18 0 = .ok (decodeFields w).imm19.toNat ∧
    extractField w 22 0 = .ok (decodeFields w).imm23.toNat)

/-! ### The step -/

/-- R111: a step runs the instruction its word decodes to; what the instruction does includes the advance of the index. -/
def Obligations.StepRunsTheDecodedInstruction : Prop :=
  ∀ (s : State) (w : Word) (i : Instr), s.fault = none → fetch s = some w → decode w = .ok i → step s = exec i s

/-- R110, R111, R119, R82, R23, R24: the step that runs each instruction's own meaning is the step of the wired sub-blocks
(decoder fields, control table, read ports, `apply` or codec, gated write port), in every state. -/
def Obligations.StepIsTheWiredSequencer : Prop :=
  ∀ s : State, step s = sequencerStep s

/-- R111, R31, R34: a next state exists exactly when there is no fault and the index is inside PROGRAM; otherwise the answer
says which of the two failed (the names are the model's, log 4). -/
def Obligations.StepExistsOnlyInsideTheProgram : Prop :=
  ∀ s : State, ((∃ t, step s = .next t) ↔ CanStep s) ∧
    (∀ r, s.fault = some r → step s = .fault (.halted r)) ∧
    (s.fault = none → s.program.length ≤ s.pc → step s = .fault .runOver)

/-- R30: the index goes up by one, or stays at the instruction that raised. -/
def Obligations.PcAdvancesByOneOrStaysAtTheFault : Prop :=
  ∀ s t : State, step s = .next t → (t.fault = none → t.pc = s.pc + 1) ∧ (t.fault ≠ none → t.pc = s.pc)

/-- R32, R112: only a Get word changes the output, by appending the register its field `rd` names. -/
def Obligations.OnlyGetAppendsToTheOutput : Prop :=
  ∀ (s t : State) (w : Word), fetch s = some w → step s = .next t →
    t.out = if (decodeFields w).opcode = 1 then s.out ++ [readReg s (decodeFields w).rd] else s.out

/-- R24, R112, R306, R61: no step writes a register other than the word's `rd`, Get and a raised fault write none, and no step
writes the instruction store. -/
def Obligations.OnlyTheDestinationRegisterChanges : Prop :=
  ∀ (s t : State) (w : Word), fetch s = some w → step s = .next t →
    (∀ r, r ≠ (decodeFields w).rd → readReg t r = readReg s r) ∧
    ((decodeFields w).opcode = 1 ∨ 22 ≤ (decodeFields w).opcode → t.x = s.x) ∧ t.program = s.program

/-- R306: the entry into the fault state changes the fault status and nothing else, the run result is its record, and no step
exists after it. -/
def Obligations.FaultEntryChangesOnlyTheFaultStatus : Prop :=
  ∀ (s t : State) (r : FaultRecord), step s = .next t → t.fault = some r →
    r.index = s.pc ∧ t.x = s.x ∧ t.out = s.out ∧ t.pc = s.pc ∧ t.program = s.program ∧
    runResult t = .faulted r ∧ ∀ u, step t ≠ .next u

/-- R202, R303, R119: the power operation fails exactly on an operand B with bit 31 set, no other operation fails, the failure
committed is a fault entry, and no step of the machine ever records that fault or a DecodeError (R304). -/
def Obligations.OnlyANegativeCountIsUnsupported : Prop :=
  (∀ a b, apply .power a b = .error .unsupportedOperation ↔ b.getLsbD 31 = true) ∧
  (∀ op a b c, apply op a b = .error c → op = .power ∧ c = .unsupportedOperation) ∧
  (∀ (rd : RegIdx) (a b : Word) (s : State), b.getLsbD 31 = true →
    writeBackOrRaise rd (power a b) s = .next { s with fault := some ⟨.unsupportedOperation, s.pc⟩ }) ∧
  (∀ (s t : State) (r : FaultRecord), step s = .next t → t.fault = some r → r.code = .unknownOpcode)

/-! ### Reset, runs and what the host sees -/

/-- R40: the reset values. -/
def Obligations.ResetClearsTheState : Prop :=
  (∀ i : RegIdx, readReg State.reset i = 0x00000000) ∧ State.reset.pc = 0 ∧ State.reset.out = [] ∧
    State.reset.fault = none

/-- R330, R307, R331: asserted in any state, reset gives the reset values; no step leaves the fault state. That reset keeps the
program is the model's reading (log 12, DEDUCED from R39, where PROGRAM is the host's input and not state). -/
def Obligations.ResetIsTheOnlyExitFromAFault : Prop :=
  (∀ s : State, (∀ i : RegIdx, readReg s.assertReset i = 0) ∧ s.assertReset.pc = 0 ∧ s.assertReset.out = [] ∧
    s.assertReset.fault = none ∧ s.assertReset.program = s.program) ∧
  (∀ s t : State, s.fault ≠ none → step s ≠ .next t)

/-- R31, R32, R302, R306, R309: the invariant of a run is kept by every step, from every state that has it. -/
def Obligations.EveryStepKeepsTheRunInvariant : Prop :=
  ∀ s t : State, RunInv s → step s = .next t → RunInv t

/-- R40, R332: the invariant holds at reset, with nothing placed and with any program placed. -/
def Obligations.TheRunInvariantHoldsAtReset : Prop :=
  RunInv State.reset ∧ ∀ p : List Word, RunInv (State.load p)

/-- R31: from any state, as many steps as PROGRAM has words left, and one more, find no step to take. -/
def Obligations.EveryRunEndsWithinItsProgram : Prop :=
  ∀ s : State, ∃ r, core.run (s.program.length - s.pc + 1) s = .fault r

/-- R302, R309: a program's run stays out of the fault state exactly when each of its words selects an instruction. -/
def Obligations.LegalProgramsAreTheSafeOnes : Prop :=
  ∀ p : List Word, programLegal p = true ↔ SafeRun p

/-- R317: the number of steps taken equals the index while no fault has occurred. -/
def Obligations.StepsTakenEqualThePc : Prop :=
  ∀ (p : List Word) (k : Nat) (s : State), core.run k (State.load p) = .next s → s.fault = none → s.pc = k

/-- R33: what the host receives. -/
def Obligations.RunResultIsOutputOrRegistersOrFault : Prop :=
  ∀ s : State,
    (∀ r, s.fault = some r → runResult s = .faulted r) ∧
    (s.fault = none → s.pc = s.program.length →
      (s.out ≠ [] → runResult s = .values s.out) ∧
      (s.out = [] → runResult s = .values (List.ofFn fun i : Fin 16 => readReg s i))) ∧
    (∀ code, runResult (s.raise code) = .faulted ⟨code, s.pc⟩ ∧ (s.raise code).out = s.out ∧ (s.raise code).x = s.x)

/-- R119, R38: an instruction's effect on the registers depends on the registers alone. -/
def Obligations.RegistersDependOnlyOnRegisters : Prop :=
  ∀ (i : Instr) (s s' t : State), s.x = s'.x → exec i s = .next t → ∃ t', exec i s' = .next t' ∧ t'.x = t.x

/-! ### Set, Get, Move and the codec -/

/-- R116, R117: decode places sign, exponent field plus 112 and mantissa over six zero bits; every result is a normal value in the
format's range; corner cases. -/
def Obligations.CodecDecodePlacesTheFields : Prop :=
  (∀ r : BitVec 23, sign (codecDecode r) = r.getLsbD 22 ∧
    expf (codecDecode r) = (r.extractLsb' 17 5).toNat + 112 ∧
    frac (codecDecode r) = (r.extractLsb' 0 17).toNat * 2 ^ 6 ∧
    112 ≤ expf (codecDecode r) ∧ expf (codecDecode r) ≤ 143 ∧
    isZero (codecDecode r) = false ∧ isSpecial (codecDecode r) = false ∧ ieeeClass (codecDecode r) = .finite) ∧
  codecDecode 0x000000 = 0x38000000 ∧ codecDecode 0x400000 = 0xB8000000 ∧
  codecDecode 0x3FFFFF = 0x47FFFFC0 ∧ codecDecode 0x7FFFFF = 0xC7FFFFC0

/-- R118: encode then decode loses exactly the low 6 mantissa bits, inside the format's domain. -/
def Obligations.CodecRoundTripTruncatesSixBits : Prop :=
  ∀ v : Word, 112 ≤ expf v → expf v ≤ 143 →
    ∃ r, codecEncode v = some r ∧ codecDecode r = v &&& 0xFFFFFFC0

/-- R113. -/
def Obligations.SetWritesTheDecodedImmediate : Prop :=
  (∀ (rd : RegIdx) (imm : BitVec 23) (s : State), WritesOnly (.set rd imm) s rd (codecDecode imm)) ∧
  (control 0).aluOp = none ∧ (control 0).wbSrc = .codecDecode ∧
  (∀ imm : BitVec 23, codecDecode imm ≠ ZERO ∧ codecDecode imm ≠ POS_INF ∧ codecDecode imm ≠ NEG_INF ∧
    codecDecode imm ≠ SENT ∧ frac (codecDecode imm) % 64 = 0) ∧
  codecDecode 0x000000 = 0x38000000 ∧
  RunsTo 0x001E0000 [] 0 0x3F800000

/-- R114: Get appends its register and changes nothing else but the index. -/
def Obligations.GetAppendsItsRegister : Prop :=
  (∀ (rd : RegIdx) (s : State), ∃ t, exec (.get rd) s = .next t ∧ t.out = s.out ++ [readReg s rd] ∧
    t.x = s.x ∧ t.pc = s.pc + 1 ∧ t.fault = s.fault ∧ t.program = s.program) ∧
  (∃ t, exec (.get 15) State.reset = .next t ∧ t.out = [0x00000000]) ∧
  (∀ s : State, readReg s 3 = 0x40A00000 →
    ∃ t, step (placeFetchWord s 0x09800000) = .next t ∧ t.out = s.out ++ [0x40A00000])

/-- R115. -/
def Obligations.MoveCopiesItsOperand : Prop :=
  (∀ (rd ra : RegIdx) (s : State), WritesOnly (.move rd ra) s rd (readReg s ra)) ∧
  (control 2).aluOp = some .identity ∧ (control 2).wbSrc = .aluResult ∧
  RunsTo 0x11080000 [(1, 0x40000000)] 2 0x40000000

/-! ### Addition and subtraction -/

/-- R140. -/
def Obligations.FaddWritesTheSum : Prop :=
  (∀ (rd ra rb : RegIdx) (s : State), WritesOnly (.fadd rd ra rb) s rd (add (readReg s ra) (readReg s rb))) ∧
  (control 3).aluOp = some .add ∧ (control 3).bSrc = .register ∧ (control 3).wbSrc = .aluResult ∧
  RunsTo 0x19890000 [(1, 0x40000000), (2, 0x40400000)] 3 0x40A00000

/-- R141, and the corner cases of R155: the flip comes first, so the sentinel in operand B is not recognised. -/
def Obligations.FsubAddsTheFlippedOperand : Prop :=
  (∀ (rd ra rb : RegIdx) (s : State),
    WritesOnly (.fsub rd ra rb) s rd (add (readReg s ra) (readReg s rb ^^^ 0x80000000))) ∧
  (control 4).aluOp = some .subtract ∧ (control 4).bSrc = .register ∧ (control 4).wbSrc = .aluResult ∧
  (∀ x : Word, isSpecial x = false → isZero x = false → subtract x x = 0x00000000) ∧
  subtract 0x00000000 0x00000000 = 0x80000000 ∧ subtract 0x80000000 0x80000000 = 0x00000000 ∧
  subtract 0x00000000 0x40000000 = 0xC0000000 ∧ subtract 0x40000000 0x00000000 = 0x40000000 ∧
  subtract 0x40400000 0x40A00000 = 0xC0000000 ∧
  (∀ x : Word, subtract x 0x7F800000 = 0xFFFFFFFF ∧ subtract x 0xFF800000 = 0xFFFFFFFF ∧
    subtract 0xFFFFFFFF x = 0xFFFFFFFF) ∧
  subtract 0x3F800000 0xFFFFFFFF = 0xFFFFFFFF ∧ subtract 0xFF7FFFFF 0xFFFFFFFF = 0x7F7FFFFF ∧
  RunsTo 0x21890000 [(1, 0x40A00000), (2, 0x40400000)] 3 0x40000000

/-- R142: the three shortcuts in their order. -/
def Obligations.AdditionShortcutsInOrder : Prop :=
  ∀ a b : Word,
    (isSpecial a = true ∨ isSpecial b = true → add a b = 0xFFFFFFFF) ∧
    (isSpecial a = false → isSpecial b = false →
      (isZero a = true → add a b = b) ∧
      (isZero a = false → isZero b = true → add a b = a) ∧
      (isZero a = false → isZero b = false → a ^^^ b = 0x80000000 → add a b = 0x00000000))

/-- R152: on the general path addition is the exact sum of the two values, rounded to 24 bits to nearest with a tie toward minus
infinity, and the sentinel outside the exponent range. -/
def Obligations.AdditionIsTheExactSumRounded : Prop :=
  ∀ a b : Word, isSpecial a = false → isSpecial b = false → isZero a = false → isZero b = false →
    a ^^^ b ≠ 0x80000000 → add a b = roundExact (bitLevelValue a + bitLevelValue b)

/-- R153, its `x + 0 = x` for an x that is not a zero (two zeros return the second, R142). -/
def Obligations.AdditionCommutesAndCancels : Prop :=
  (∀ a b : Word, ¬(isZero a = true ∧ isZero b = true) → add a b = add b a) ∧
  add 0x00000000 0x80000000 = 0x80000000 ∧ add 0x80000000 0x00000000 = 0x00000000 ∧
  (∀ x : Word, isSpecial x = false → isZero x = false → add x 0x00000000 = x ∧ add x 0x80000000 = x ∧
    add x (x ^^^ 0x80000000) = 0x00000000) ∧
  (∀ x : Word, add 0xFFFFFFFF x = 0xFFFFFFFF ∧ add x 0xFFFFFFFF = 0xFFFFFFFF)

/-- R144: the alignment engine keeps the quotient and folds every lost bit into bit 0. -/
def Obligations.AlignmentFoldsLostBitsIntoSticky : Prop :=
  (∀ m : Nat, align m 0 = m * 16) ∧
  (∀ m d : Nat, m < 2 ^ 24 → 0 < m → 28 ≤ d → align m d = 1) ∧
  (∀ m d : Nat, align m d / 2 = m * 16 / 2 ^ d / 2 ∧
    (align m d % 2 = 1 ↔ m * 16 / 2 ^ d % 2 = 1 ∨ m * 16 % 2 ^ d ≠ 0))

/-! ### Multiplication and power -/

/-- R180. -/
def Obligations.FmulWritesTheProduct : Prop :=
  (∀ (rd ra rb : RegIdx) (s : State), WritesOnly (.fmul rd ra rb) s rd (mul (readReg s ra) (readReg s rb))) ∧
  (control 6).aluOp = some .multiply ∧ (control 6).bSrc = .register ∧ (control 6).wbSrc = .aluResult ∧
  RunsTo 0x31890000 [(1, 0x40000000), (2, 0x40400000)] 3 0x40C00000

/-- R181: the shortcuts, and otherwise the exact 48-bit product truncated to 24 bits, `c` the one renormalizing position, with
the sentinel outside the exponent range. -/
def Obligations.MultiplicationTruncatesTheProduct : Prop :=
  ∀ a b : Word,
    (isSpecial a = true ∨ isSpecial b = true → mul a b = 0xFFFFFFFF) ∧
    (isSpecial a = false → isSpecial b = false →
      (isZero a = true ∨ isZero b = true →
        isZero (mul a b) = true ∧ sign (mul a b) = (sign a != sign b)) ∧
      (isZero a = false → isZero b = false →
        ∃ c : Nat, (c = 1 ∧ 2 ^ 47 ≤ sig a * sig b ∨ c = 0 ∧ sig a * sig b < 2 ^ 47) ∧
          (expf a + expf b + c < 128 ∨ 381 < expf a + expf b + c → mul a b = 0xFFFFFFFF) ∧
          (128 ≤ expf a + expf b + c → expf a + expf b + c ≤ 381 →
            sign (mul a b) = (sign a != sign b) ∧ expf (mul a b) + 127 = expf a + expf b + c ∧
            sig (mul a b) * 2 ^ (23 + c) ≤ sig a * sig b ∧
            sig a * sig b < (sig (mul a b) + 1) * 2 ^ (23 + c))))

/-- R200: a Pow completes for every count its field can hold. -/
def Obligations.PowWritesThePower : Prop :=
  (∀ (rd ra : RegIdx) (imm : BitVec 19) (s : State),
    ∃ v, power (readReg s ra) (BitVec.ofNat 32 imm.toNat) = .ok v ∧ WritesOnly (.pow rd ra imm) s rd v) ∧
  (control 15).aluOp = some .power ∧ (control 15).bSrc = .immediate ∧ (control 15).wbSrc = .aluResult ∧
  RunsTo 0x7908000A [(1, 0x40000000)] 2 0x44800000

/-- R201: the repeated product with the accumulator on the left, its two ends, and its absorbing values. -/
def Obligations.PowerMultipliesRepeatedly : Prop :=
  (∀ a n : Word, n.getLsbD 31 = true → power a n = .error .unsupportedOperation) ∧
  (∀ a : Word, power a 0 = .ok 0x3F800000 ∧ power a 1 = .ok a) ∧
  (∀ (a : Word) (n : Nat), 1 ≤ n → n + 1 < 2 ^ 31 →
    ∃ v, power a (BitVec.ofNat 32 n) = .ok v ∧ power a (BitVec.ofNat 32 (n + 1)) = .ok (mul v a)) ∧
  (∀ a : Word, mul 0xFFFFFFFF a = 0xFFFFFFFF) ∧
  (∀ r a : Word, isZero r = true → isSpecial a = false →
    isZero (mul r a) = true ∧ sign (mul r a) = (sign r != sign a)) ∧
  (∀ n : Nat, n < 2 ^ 31 → power 0x3F800000 (BitVec.ofNat 32 n) = .ok 0x3F800000)

/-! ### Division and square root -/

/-- R185. -/
def Obligations.FdivWritesTheQuotient : Prop :=
  (∀ (rd ra rb : RegIdx) (s : State), WritesOnly (.fdiv rd ra rb) s rd (ieeeDiv (readReg s ra) (readReg s rb))) ∧
  (control 7).aluOp = some .divide ∧
  (∀ b : Word, ieeeClass (ieeeDiv 0xFFFFFFFF b) = .nan ∧ ieeeClass (ieeeDiv b 0xFFFFFFFF) = .nan) ∧
  RunsTo 0x39890000 [(1, 0x3F800000), (2, 0x40400000)] 3 0x3EAAAAAB

/-- R193, the rows with a NaN, an infinity or a zero. A produced NaN is known only to be a NaN (R196). -/
def Obligations.DivisionOfSpecialClasses : Prop :=
  ∀ a b : Word,
    (ieeeClass a = .nan ∨ ieeeClass b = .nan ∨ (ieeeClass a = .inf ∧ ieeeClass b = .inf) ∨
      (ieeeClass a = .zero ∧ ieeeClass b = .zero) → ieeeClass (ieeeDiv a b) = .nan) ∧
    ((ieeeClass a = .inf ∧ (ieeeClass b = .zero ∨ ieeeClass b = .finite)) ∨
      (ieeeClass a = .finite ∧ ieeeClass b = .zero) →
      ieeeDiv a b = if sign a = sign b then 0x7F800000 else 0xFF800000) ∧
    (((ieeeClass a = .zero ∨ ieeeClass a = .finite) ∧ ieeeClass b = .inf) ∨
      (ieeeClass a = .zero ∧ ieeeClass b = .finite) →
      ieeeDiv a b = if sign a = sign b then 0x00000000 else 0x80000000)

/-- R192, R193: the quotient of two finite values is the nearest pattern, even on a tie, with gradual underflow, and an infinity
exactly from the half-way point past the largest finite value on. `ieeeMag` counts units of 2^-149. -/
def Obligations.DivisionIsCorrectlyRounded : Prop :=
  ∀ a b : Word, ieeeClass a = .finite → ieeeClass b = .finite →
    sign (ieeeDiv a b) = (sign a != sign b) ∧ ieeeClass (ieeeDiv a b) ≠ .nan ∧
    (ieeeClass (ieeeDiv a b) = .inf ↔ ieeeMag b * ((2 ^ 25 - 1) * 2 ^ 252) ≤ ieeeMag a * 2 ^ 149) ∧
    (ieeeClass (ieeeDiv a b) ≠ .inf → ∀ p : Word, expf p < 255 →
      |(ieeeMag (ieeeDiv a b) * ieeeMag b : Int) - ieeeMag a * 2 ^ 149| ≤
        |(ieeeMag p * ieeeMag b : Int) - ieeeMag a * 2 ^ 149| ∧
      (|(ieeeMag (ieeeDiv a b) * ieeeMag b : Int) - ieeeMag a * 2 ^ 149| =
        |(ieeeMag p * ieeeMag b : Int) - ieeeMag a * 2 ^ 149| →
        ieeeMag p = ieeeMag (ieeeDiv a b) ∨ frac (ieeeDiv a b) % 2 = 0))

/-- R278, outside the positive finite values. -/
def Obligations.SqrtWritesTheRoot : Prop :=
  (∀ (rd ra : RegIdx) (s : State), WritesOnly (.sqrt rd ra) s rd (ieeeSqrt (readReg s ra))) ∧
  (control 21).aluOp = some .squareRoot ∧
  (∀ a : Word, (ieeeClass a = .nan → ieeeClass (ieeeSqrt a) = .nan) ∧ (ieeeClass a = .zero → ieeeSqrt a = a) ∧
    (sign a = true → ieeeClass a ≠ .zero → ieeeClass (ieeeSqrt a) = .nan)) ∧
  ieeeSqrt 0x7F800000 = 0x7F800000 ∧
  RunsTo 0xA9080000 [(1, 0x41100000)] 2 0x40400000

/-- R278: "The result is the binary32 value nearest to the exact square root": against the midpoint with any other finite
pattern, squared, in units of 2^-149. Results are normal. -/
def Obligations.SquareRootIsCorrectlyRounded : Prop :=
  ∀ a : Word, ieeeClass a = .finite → sign a = false →
    sign (ieeeSqrt a) = false ∧ 1 ≤ expf (ieeeSqrt a) ∧ expf (ieeeSqrt a) ≤ 254 ∧
    ∀ p : Word, expf p < 255 →
      (ieeeMag p < ieeeMag (ieeeSqrt a) → (ieeeMag p + ieeeMag (ieeeSqrt a)) ^ 2 ≤ 4 * ieeeMag a * 2 ^ 149) ∧
      (ieeeMag (ieeeSqrt a) < ieeeMag p → 4 * ieeeMag a * 2 ^ 149 ≤ (ieeeMag p + ieeeMag (ieeeSqrt a)) ^ 2)

/-! ### Sign operations, minimum and maximum -/

/-- R220, R221, R222: Fneg and Finv flip the sign bit and nothing else, Fabs clears it and nothing else. -/
def Obligations.SignOperationsTouchOnlyTheSignBit : Prop :=
  (∀ (rd ra : RegIdx) (s : State), ∃ v, WritesOnly (.fneg rd ra) s rd v ∧ WritesOnly (.finv rd ra) s rd v ∧
    sign v = !sign (readReg s ra) ∧ expf v = expf (readReg s ra) ∧ frac v = frac (readReg s ra)) ∧
  (∀ (rd ra : RegIdx) (s : State), ∃ v, WritesOnly (.fabs rd ra) s rd v ∧
    sign v = false ∧ expf v = expf (readReg s ra) ∧ frac v = frac (readReg s ra)) ∧
  (∀ a : Word, negate (negate a) = a ∧ absolute (absolute a) = absolute a) ∧
  (control 5).aluOp = some .negate ∧ (control 12).aluOp = some .inverse ∧ (control 11).aluOp = some .absolute ∧
  (control 5).wbSrc = .aluResult ∧
  negate 0x00000000 = 0x80000000 ∧ negate 0x80000000 = 0x00000000 ∧ negate 0xFFFFFFFF = 0x7FFFFFFF ∧
  negate 0x7F800000 = 0xFF800000 ∧ absolute 0x80000000 = 0x00000000 ∧ absolute 0xFFFFFFFF = 0x7FFFFFFF ∧
  absolute 0xFF800000 = 0x7F800000 ∧ isSpecial 0x7FFFFFFF = false ∧
  RunsTo 0x29080000 [(1, 0x40000000)] 2 0xC0000000 ∧ RunsTo 0x61080000 [(1, 0x40000000)] 2 0xC0000000 ∧
  RunsTo 0x59080000 [(1, 0xC0400000)] 2 0x40400000

/-- R223: a strict total order on all patterns, the magnitude order reversed below zero, from the sentinel up to 0x7FFFFFFF; on
patterns that are no NaN it is the numeric order (an infinity counts as the magnitude after the largest finite one), with -0
below +0. -/
def Obligations.LessIsAStrictTotalOrder : Prop :=
  (∀ a b : Word, (less a b = true ∧ less b a = false ∧ a ≠ b) ∨ (less a b = false ∧ less b a = true ∧ a ≠ b) ∨
    (less a b = false ∧ less b a = false ∧ a = b)) ∧
  (∀ a b c : Word, less a b = true → less b c = true → less a c = true) ∧
  (∀ a b : Word, less a b = true ↔
    if sign a ≠ sign b then sign a = true
    else if sign a = false then (a.extractLsb' 0 31).toNat < (b.extractLsb' 0 31).toNat
    else (b.extractLsb' 0 31).toNat < (a.extractLsb' 0 31).toNat) ∧
  (∀ v : Word, (v ≠ 0xFFFFFFFF → less 0xFFFFFFFF v = true) ∧ (v ≠ 0x7FFFFFFF → less v 0x7FFFFFFF = true)) ∧
  (∀ a b : Word, ieeeClass a ≠ .nan → ieeeClass b ≠ .nan →
    (less a b = true ↔ (a = 0x80000000 ∧ b = 0x00000000) ∨
      (if sign a then -(ieeeMag a : Int) else ieeeMag a) < (if sign b then -(ieeeMag b : Int) else ieeeMag b)))

/-- R224, R225: the two results are the two operands, Min and Max are commutative and associative, and the corner cases. -/
def Obligations.MinAndMaxWriteAnOperand : Prop :=
  (∀ (rd ra rb : RegIdx) (s : State), WritesOnly (.min rd ra rb) s rd
    (if less (readReg s rb) (readReg s ra) then readReg s rb else readReg s ra)) ∧
  (∀ (rd ra rb : RegIdx) (s : State), WritesOnly (.max rd ra rb) s rd
    (if less (readReg s ra) (readReg s rb) then readReg s rb else readReg s ra)) ∧
  (control 13).aluOp = some .minimum ∧ (control 14).aluOp = some .maximum ∧
  (control 13).bSrc = .register ∧ (control 14).bSrc = .register ∧
  (∀ a b : Word, (minimum a b = a ∧ maximum a b = b ∨ minimum a b = b ∧ maximum a b = a) ∧
    less (maximum a b) (minimum a b) = false) ∧
  (∀ a b : Word, minimum a b = minimum b a ∧ maximum a b = maximum b a) ∧
  (∀ a b c : Word, minimum (minimum a b) c = minimum a (minimum b c) ∧
    maximum (maximum a b) c = maximum a (maximum b c)) ∧
  minimum 0x80000000 0x3F800000 = 0x80000000 ∧ minimum 0x00000000 0x80000000 = 0x80000000 ∧
  minimum 0xBF800000 0xC0000000 = 0xC0000000 ∧ minimum 0xFFFFFFFF 0x3F800000 = 0xFFFFFFFF ∧
  minimum 0xFFFFFFFF 0xFF800000 = 0xFFFFFFFF ∧ minimum 0x7FC00000 0x7F800000 = 0x7F800000 ∧
  minimum 0x00000001 0x00000000 = 0x00000000 ∧
  maximum 0x80000000 0x3F800000 = 0x3F800000 ∧ maximum 0x00000000 0x80000000 = 0x00000000 ∧
  maximum 0xBF800000 0xC0000000 = 0xBF800000 ∧ maximum 0xFFFFFFFF 0x3F800000 = 0x3F800000 ∧
  maximum 0xFFFFFFFF 0xFF800000 = 0xFF800000 ∧ maximum 0x7FC00000 0x7F800000 = 0x7FC00000 ∧
  (∀ v : Word, maximum 0x7FFFFFFF v = 0x7FFFFFFF) ∧
  RunsTo 0x69890000 [(1, 0x40000000), (2, 0x40400000)] 3 0x40000000 ∧
  RunsTo 0x71890000 [(1, 0x40000000), (2, 0x40400000)] 3 0x40400000

/-! ### Floor, Ceil, Round -/

/-- R243, R244, R245: completion, the small branch of Floor and Ceil, and the worked examples. -/
def Obligations.FloorCeilRoundWriteTheirResult : Prop :=
  (∀ (rd ra : RegIdx) (s : State), WritesOnly (.floor rd ra) s rd (Machine.floor (readReg s ra)) ∧
    WritesOnly (.ceil rd ra) s rd (Machine.ceil (readReg s ra)) ∧
    WritesOnly (.round rd ra) s rd (Machine.round (readReg s ra))) ∧
  (∀ a : Word, expf a < 127 →
    Machine.floor a = (if sign a then 0xBF800000 else 0x00000000) ∧
    Machine.ceil a = (if sign a then 0x00000000 else 0x3F800000)) ∧
  RunsTo 0x41080000 [(1, 0x40300000)] 2 0x40000000 ∧
  RunsTo 0x49080000 [(1, 0x40300000)] 2 0x40400000 ∧
  RunsTo 0x51080000 [(1, 0x40300000)] 2 0x40400000

/-- R240 to R244, R247: from 1.0 on Floor and Ceil round the magnitude down and up to an integer, whatever the sign; a NaN or an
infinity passes through. `2^149` units are 1.0. -/
def Obligations.FloorAndCeilRoundTheMagnitude : Prop :=
  (∀ a : Word, 127 ≤ expf a → expf a < 255 →
    sign (Machine.floor a) = sign a ∧ ieeeMag (Machine.floor a) = ieeeMag a / 2 ^ 149 * 2 ^ 149 ∧
    sign (Machine.ceil a) = sign a ∧ ieeeMag (Machine.ceil a) = (ieeeMag a + (2 ^ 149 - 1)) / 2 ^ 149 * 2 ^ 149) ∧
  (∀ a : Word, 150 ≤ expf a → Machine.floor a = a ∧ Machine.ceil a = a ∧ Machine.round a = a)

/-- R245: Round takes the integer part of the magnitude, one more when the two fraction bits below the point are 11, or 10 in a
negative operand; a zero result is +0. -/
def Obligations.RoundLooksAtTwoFractionBits : Prop :=
  ∀ a : Word, expf a < 255 →
    (ieeeMag (Machine.round a) = 0 → Machine.round a = 0x00000000) ∧
    (ieeeMag (Machine.round a) ≠ 0 → sign (Machine.round a) = sign a) ∧
    ieeeMag (Machine.round a) =
      (ieeeMag a / 2 ^ 149 +
        if ieeeMag a / 2 ^ 147 % 4 = 3 ∨ (ieeeMag a / 2 ^ 147 % 4 = 2 ∧ sign a = true) then 1 else 0) * 2 ^ 149

/-! ### Transcendental instructions -/

/-- R263, with the constant of R260 and the divisors of R262 given as the integers they stand for. -/
def Obligations.SinSumsTwelveTerms : Prop :=
  (∀ (rd ra : RegIdx) (s : State), WritesOnly (.sin rd ra) s rd (sine (readReg s ra))) ∧
  (∀ a : Word, ∃ (x : Word) (t u : Nat → Word), x = mul a 0x3C8EFA35 ∧ t 0 = x ∧ u 0 = x ∧
    (∀ k < 11, t (k + 1) =
        ieeeDiv (mul (t k) (mul x x ^^^ 0x80000000)) (ieeeRound false ((2 * k + 2) * (2 * k + 3)) 1) ∧
      u (k + 1) = add (u k) (t (k + 1))) ∧
    sine a = u 11) ∧
  (control 16).aluOp = some .sine ∧ (control 16).wbSrc = .aluResult ∧
  RunsTo 0x81080000 [(1, 0x41F00000)] 2 0x3EFFFFFE

/-- R264, as R263. -/
def Obligations.CosSumsTwelveTerms : Prop :=
  (∀ (rd ra : RegIdx) (s : State), WritesOnly (.cos rd ra) s rd (cosine (readReg s ra))) ∧
  (∀ a : Word, ∃ (x : Word) (t u : Nat → Word), x = mul a 0x3C8EFA35 ∧ t 0 = 0x3F800000 ∧ u 0 = 0x3F800000 ∧
    (∀ k < 11, t (k + 1) =
        ieeeDiv (mul (t k) (mul x x ^^^ 0x80000000)) (ieeeRound false ((2 * k + 1) * (2 * k + 2)) 1) ∧
      u (k + 1) = add (u k) (t (k + 1))) ∧
    cosine a = u 11) ∧
  (control 17).aluOp = some .cosine ∧
  RunsTo 0x89080000 [(1, 0x42700000)] 2 0x3F000002

/-- R265: "when either series returns the sentinel the quotient is `NATIVE_NAN`", and Tan gives the sentinel only as that NaN.
`NATIVE_NAN` is the model's `nativeNan`, a NaN for each operation and operands (log 5, a form R196 offers). -/
def Obligations.TanDividesSineByCosine : Prop :=
  (∀ (rd ra : RegIdx) (s : State),
    WritesOnly (.tan rd ra) s rd (ieeeDiv (sine (readReg s ra)) (cosine (readReg s ra)))) ∧
  (control 18).aluOp = some .tangent ∧
  (∀ a : Word, sine a = 0xFFFFFFFF ∨ cosine a = 0xFFFFFFFF →
    tangent a = nativeNan (.divide (sine a) (cosine a)) ∧ ieeeClass (tangent a) = .nan) ∧
  (∀ a : Word, tangent a = 0xFFFFFFFF → nativeNan (.divide (sine a) (cosine a)) = 0xFFFFFFFF) ∧
  cosine 0x42B40000 = 0x33D06494 ∧ tangent 0x42B40000 = 0x4B1D3DCF ∧
  RunsTo 0x91080000 [(1, 0x42340000)] 2 0x3F7FFFFD

/-- R270 (a), (b), (c), (d), as far as it holds whatever NaN the native unit produces (log 5): Sin of 1 to 9 whole degrees and
Cos of 1 to 7 are the sentinel and from there to 90 degrees a number; the least subnormal, the infinities and the sentinel give
the sentinel; the zeros; and the rows of the table with numbers in them. `ieeeRound false d 1` is the pattern of `d` degrees. (The
rows that hold only for the default NaN, such as the sine of 0x7FC00000, are not claimed.) -/
def Obligations.SeriesOfSmallAndSpecialAngles : Prop :=
  (∀ d : Nat, 1 ≤ d → d ≤ 9 → sine (ieeeRound false d 1) = 0xFFFFFFFF) ∧
  (∀ d : Nat, 10 ≤ d → d ≤ 90 → sine (ieeeRound false d 1) ≠ 0xFFFFFFFF) ∧
  (∀ d : Nat, 1 ≤ d → d ≤ 7 → cosine (ieeeRound false d 1) = 0xFFFFFFFF) ∧
  (∀ d : Nat, 8 ≤ d → d ≤ 90 → cosine (ieeeRound false d 1) ≠ 0xFFFFFFFF) ∧
  (∀ a ∈ ([0x00000001, 0x7F800000, 0xFF800000, 0xFFFFFFFF] : List Word), sine a = 0xFFFFFFFF ∧ cosine a = 0xFFFFFFFF) ∧
  (∀ r ∈ ([(0x00000000, 0x80000000, 0x3F800000, 0x80000000), (0x80000000, 0x00000000, 0x3F800000, 0x00000000),
      (0x41200000, 0x3E31D0D4, 0x3F7C1C5C, 0x3E348F10), (0x41F00000, 0x3EFFFFFE, 0x3F5DB3D8, 0x3F13CD39),
      (0xC1F00000, 0xBEFFFFFE, 0x3F5DB3D8, 0xBF13CD39), (0x42340000, 0x3F3504F2, 0x3F3504F4, 0x3F7FFFFD),
      (0x42700000, 0x3F5DB3D6, 0x3F000002, 0x3FDDB3D3), (0x42B40000, 0x3F7FFFFF, 0x33D06494, 0x4B1D3DCF),
      (0x43340000, 0x342D2E6D, 0xBF800000, 0xB42D2E6D), (0x43B40000, 0xB7001328, 0x3F7FFE8D, 0xB70013E2),
      (0x447A0000, 0xC8F132A4, 0xC92847F2, 0x3F37767E)] : List (Word × Word × Word × Word)),
    sine r.1 = r.2.1 ∧ cosine r.1 = r.2.2.1 ∧ tangent r.1 = r.2.2.2) ∧
  cosine 0x41000000 = 0x3F7D8236 ∧ cosine 0x41100000 = 0x3F7CD925

/-- R264, R181: the cosine series sees the angle only through its square, so the sign of an angle that is not the sentinel or
its flip does not matter. -/
def Obligations.CosineIsEven : Prop :=
  ∀ a : Word, a ≠ 0xFFFFFFFF → a ≠ 0x7FFFFFFF → cosine (a ^^^ 0x80000000) = cosine a

/-- R276 (i) to (iv): the special operands; every other result is a non-negative non-NaN pattern. Of a finite non-zero operand the
result lies in the interval the free choice is made from (log 6), whose ends enclose e^v, the lower one less than 2 and the
upper one less than 3 ULP away, and are both the infinity where e^v overflows. -/
def Obligations.ExpAtSpecialOperands : Prop :=
  (∀ (rd ra : RegIdx) (s : State), WritesOnly (.exp rd ra) s rd (expFn (readReg s ra))) ∧
  (∀ a : Word, ieeeClass a = .nan → ieeeClass (expFn a) = .nan) ∧
  expFn 0x7F800000 = 0x7F800000 ∧ expFn 0xFF800000 = 0x00000000 ∧
  expFn 0x00000000 = 0x3F800000 ∧ expFn 0x80000000 = 0x3F800000 ∧
  (∀ a : Word, ieeeClass a ≠ .nan → sign (expFn a) = false ∧ ieeeClass (expFn a) ≠ .nan) ∧
  (∀ a : Word, ieeeClass a = .finite →
    (expBounds a).1 ≤ (expFn a).toNat ∧ (expFn a).toNat ≤ (expBounds a).2 ∧
    (Real.exp (ieeeVal a) < 2 ^ 128 →
      patternValue (expBounds a).1 ≤ Real.exp (ieeeVal a) ∧
      Real.exp (ieeeVal a) < patternValue (expBounds a).1 + 2 * ulp (Real.exp (ieeeVal a)) ∧
      Real.exp (ieeeVal a) ≤ patternValue (expBounds a).2 ∧
      patternValue (expBounds a).2 < Real.exp (ieeeVal a) + 3 * ulp (Real.exp (ieeeVal a))) ∧
    (2 ^ 128 ≤ Real.exp (ieeeVal a) → expBounds a = (0x7F800000, 0x7F800000))) ∧
  RunsTo 0x99080000 [(1, 0x00000000)] 2 0x3F800000

/-- R277 (i) to (vi): the special operands; of any other positive operand the sign of the result, and its magnitude in the
interval the free choice is made from (log 7), whose ends enclose |ln v|, the lower one less than 2 and the upper one less than
3 ULP away. -/
def Obligations.LogAtSpecialOperands : Prop :=
  (∀ (rd ra : RegIdx) (s : State), WritesOnly (.log rd ra) s rd (logFn (readReg s ra))) ∧
  (∀ a : Word, ieeeClass a = .nan → ieeeClass (logFn a) = .nan) ∧
  logFn 0x00000000 = 0xFF800000 ∧ logFn 0x80000000 = 0xFF800000 ∧
  (∀ a : Word, sign a = true → ieeeClass a ≠ .zero → ieeeClass (logFn a) = .nan) ∧
  logFn 0x7F800000 = 0x7F800000 ∧ logFn 0x3F800000 = 0x00000000 ∧
  (∀ a : Word, ieeeClass a = .finite → sign a = false → a ≠ 0x3F800000 →
    (sign (logFn a) = true ↔ ieeeVal a < 1) ∧
    (logBounds (ieeeMag a)).1 ≤ (absolute (logFn a)).toNat ∧ (absolute (logFn a)).toNat ≤ (logBounds (ieeeMag a)).2 ∧
    patternValue (logBounds (ieeeMag a)).1 ≤ |Real.log (ieeeVal a)| ∧
    |Real.log (ieeeVal a)| < patternValue (logBounds (ieeeMag a)).1 + 2 * ulp |Real.log (ieeeVal a)| ∧
    |Real.log (ieeeVal a)| ≤ patternValue (logBounds (ieeeMag a)).2 ∧
    patternValue (logBounds (ieeeMag a)).2 < |Real.log (ieeeVal a)| + 3 * ulp |Real.log (ieeeVal a)|) ∧
  RunsTo 0xA1080000 [(1, 0x3F800000)] 2 0x00000000

/-- R276 (iv), (v): the model shuts out no Exp that the rule admits. A pattern less than 1 ULP from e^v (the ULP taken at the
exponent of e^v, log 6; exactly 1 ULP away is no case, e^v being irrational), not below 1.0 for a positive operand, lies in the
interval of its operand; the result is the key picked in it; each pattern of the interval is picked under some switch function,
and every monotone choice inside the intervals under one. Where e^v overflows the result is the infinity. -/
def Obligations.ExpAdmitsEveryResultWithinOneUlp : Prop :=
  (∀ (a : Word) (c : Nat), ieeeClass a = .finite → c ≤ 0x7F800000 → (sign a = false → 0x3F800000 ≤ c) →
    |patternValue c - Real.exp (ieeeVal a)| < ulp (Real.exp (ieeeVal a)) →
    (expBounds a).1 ≤ c ∧ c ≤ (expBounds a).2) ∧
  (∀ a : Word, ieeeClass a = .finite → 2 ^ 31 + (expFn a).toNat =
    pick Config.expSwitch (orderKey a) (2 ^ 31 + (expBounds a).1) ((expBounds a).2 - (expBounds a).1)) ∧
  (∀ (a : Word) (c : Nat), ieeeClass a = .finite → (expBounds a).1 ≤ c → c ≤ (expBounds a).2 →
    ∃ sw, pick sw (orderKey a) (2 ^ 31 + (expBounds a).1) ((expBounds a).2 - (expBounds a).1) = 2 ^ 31 + c) ∧
  (∀ f : Word → Nat, (∀ a, ieeeClass a = .finite → (expBounds a).1 ≤ f a ∧ f a ≤ (expBounds a).2) →
    (∀ a b, ieeeClass a = .finite → ieeeClass b = .finite → orderKey a ≤ orderKey b → f a ≤ f b) →
    ∃ sw, ∀ a, ieeeClass a = .finite →
      pick sw (orderKey a) (2 ^ 31 + (expBounds a).1) ((expBounds a).2 - (expBounds a).1) = 2 ^ 31 + f a) ∧
  (∀ a : Word, ieeeClass a = .finite → 2 ^ 128 ≤ Real.exp (ieeeVal a) → expFn a = 0x7F800000)

/-- R276 (v): whatever the host's choice, Exp does not decrease. Its results are non-negative patterns, ordered as numbers. -/
def Obligations.ExpIsMonotone : Prop :=
  ∀ a b : Word, ieeeClass a ≠ .nan → ieeeClass b ≠ .nan → orderKey a ≤ orderKey b →
    (expFn a).toNat ≤ (expFn b).toNat

/-- R277 (vi): whatever the host's choice, Log does not decrease from +0 to the infinity. -/
def Obligations.LogIsMonotone : Prop :=
  ∀ a b : Word, sign a = false → ieeeClass a ≠ .nan → ieeeClass b ≠ .nan → orderKey a ≤ orderKey b →
    orderKey (logFn a) ≤ orderKey (logFn b)

/-- R277 (vi), as for Exp: a magnitude less than 1 ULP from |ln v| lies in the interval of its operand, the ULP taken at the
exponent of |ln v|, which is the model's choice (log 7); the result is the key picked in it, negative below 1.0; each key of
the interval is picked under some switch function, and every monotone choice inside the intervals under one. -/
def Obligations.LogAdmitsEveryResultWithinOneUlp : Prop :=
  let dom : Word → Prop := fun a => ieeeClass a = .finite ∧ sign a = false ∧ a ≠ 0x3F800000
  let lo : Word → Nat := fun a =>
    if ieeeMag a < 2 ^ 149 then 2 ^ 31 - (logBounds (ieeeMag a)).2 else 2 ^ 31 + (logBounds (ieeeMag a)).1
  let width : Word → Nat := fun a => (logBounds (ieeeMag a)).2 - (logBounds (ieeeMag a)).1
  (∀ (a : Word) (c : Nat), dom a → c ≤ 0x7F800000 →
    abs (patternValue c - |Real.log (ieeeVal a)|) < ulp |Real.log (ieeeVal a)| →
    (logBounds (ieeeMag a)).1 ≤ c ∧ c ≤ (logBounds (ieeeMag a)).2) ∧
  (∀ a : Word, dom a → orderKey (logFn a) = pick Config.logSwitch (orderKey a) (lo a) (width a)) ∧
  (∀ (a : Word) (c : Nat), dom a → (logBounds (ieeeMag a)).1 ≤ c → c ≤ (logBounds (ieeeMag a)).2 →
    ∃ sw, pick sw (orderKey a) (lo a) (width a) = if ieeeMag a < 2 ^ 149 then 2 ^ 31 - c else 2 ^ 31 + c) ∧
  (∀ f : Word → Nat, (∀ a, dom a → lo a ≤ f a ∧ f a ≤ lo a + width a) →
    (∀ a b, dom a → dom b → orderKey a ≤ orderKey b → f a ≤ f b) →
    ∃ sw, ∀ a, dom a → pick sw (orderKey a) (lo a) (width a) = f a)
end

