-- ==== Sys2Proof/Laws/Encode.lean ====
section
/-! SUPPORT. The encoder's formats and the decoder's fields as numbers (spec/30_encoding.md R74 to R79). -/

namespace Sys2Proof

theorem toNat_append_eq {m n : Nat} (a : BitVec m) (b : BitVec n) : (a ++ b).toNat = a.toNat * 2 ^ n + b.toNat := by
  rw [BitVec.toNat_append, ← Nat.shiftLeft_add_eq_or_of_lt b.isLt, Nat.shiftLeft_eq]

@[simp] theorem toNat_regField (r : RegIdx) : (regField r).toNat = r.val := rfl

theorem toNat_encodeSET (op : BitVec 5) (rd : RegIdx) (imm : BitVec 23) :
    (encodeSET op rd imm).toNat = (op.toNat * 2 ^ 4 + rd.val) * 2 ^ 23 + imm.toNat := by
  simp only [encodeSET, toNat_append_eq, toNat_regField]

theorem toNat_encodeGET (op : BitVec 5) (rd : RegIdx) :
    (encodeGET op rd).toNat = (op.toNat * 2 ^ 4 + rd.val) * 2 ^ 23 := by
  simp only [encodeGET, toNat_append_eq, toNat_regField, BitVec.toNat_ofNat, Nat.zero_mod, Nat.add_zero]

theorem toNat_encodeR1 (op : BitVec 5) (rd ra : RegIdx) :
    (encodeR1 op rd ra).toNat = ((op.toNat * 2 ^ 4 + rd.val) * 2 ^ 4 + ra.val) * 2 ^ 19 := by
  simp only [encodeR1, toNat_append_eq, toNat_regField, BitVec.toNat_ofNat, Nat.zero_mod, Nat.add_zero]

theorem toNat_encodeR2 (op : BitVec 5) (rd ra rb : RegIdx) :
    (encodeR2 op rd ra rb).toNat =
      (((op.toNat * 2 ^ 4 + rd.val) * 2 ^ 4 + ra.val) * 2 ^ 4 + rb.val) * 2 ^ 15 := by
  simp only [encodeR2, toNat_append_eq, toNat_regField, BitVec.toNat_ofNat, Nat.zero_mod, Nat.add_zero]

theorem toNat_encodeRI (op : BitVec 5) (rd ra : RegIdx) (imm : BitVec 19) :
    (encodeRI op rd ra imm).toNat = ((op.toNat * 2 ^ 4 + rd.val) * 2 ^ 4 + ra.val) * 2 ^ 19 + imm.toNat := by
  simp only [encodeRI, toNat_append_eq, toNat_regField]

/-! ### The decoder's fields -/

theorem decodeFields_opcode (w : Word) : (decodeFields w).opcode.toNat = w.toNat / 2 ^ 27 := by
  have := w.isLt
  simp only [decodeFields, BitVec.extractLsb'_toNat, Nat.shiftRight_eq_div_pow]
  omega

theorem decodeFields_rd (w : Word) : (decodeFields w).rd.val = w.toNat / 2 ^ 23 % 16 := by
  simp only [decodeFields, BitVec.val_toFin, BitVec.extractLsb'_toNat, Nat.shiftRight_eq_div_pow]

theorem decodeFields_ra (w : Word) : (decodeFields w).ra.val = w.toNat / 2 ^ 19 % 16 := by
  simp only [decodeFields, BitVec.val_toFin, BitVec.extractLsb'_toNat, Nat.shiftRight_eq_div_pow]

theorem decodeFields_rb (w : Word) : (decodeFields w).rb.val = w.toNat / 2 ^ 15 % 16 := by
  simp only [decodeFields, BitVec.val_toFin, BitVec.extractLsb'_toNat, Nat.shiftRight_eq_div_pow]

theorem decodeFields_imm19 (w : Word) : (decodeFields w).imm19.toNat = w.toNat % 2 ^ 19 := by
  simp only [decodeFields, BitVec.extractLsb'_toNat, Nat.shiftRight_zero]

theorem decodeFields_imm23 (w : Word) : (decodeFields w).imm23.toNat = w.toNat % 2 ^ 23 := by
  simp only [decodeFields, BitVec.extractLsb'_toNat, Nat.shiftRight_zero]

end Sys2Proof
end

