-- ==== Sys2Proof/Laws/Native.lean ====
section
/-! SUPPORT. The integer square root (spec/45_transcendental.md R278), the choice inside an interval, and the bounds of e^v
behind `EXP_FN` and `LOG_FN` (R276, R277). -/

namespace Sys2Proof.Machine

/-! ### Integer square root -/

theorem isqrtLoop_spec (n : Nat) : ∀ i r, r * r ≤ n → n < (r + 2 ^ i) * (r + 2 ^ i) →
    isqrtLoop n i r * isqrtLoop n i r ≤ n ∧ n < (isqrtLoop n i r + 1) * (isqrtLoop n i r + 1)
  | 0, r, hl, hu => by simpa [isqrtLoop] using ⟨hl, hu⟩
  | i + 1, r, hl, hu => by
    unfold isqrtLoop
    have h2 : r + 2 ^ (i + 1) = r + 2 ^ i + 2 ^ i := by rw [pow_succ]; omega
    split
    · exact isqrtLoop_spec n i _ ‹_› (h2 ▸ hu)
    · exact isqrtLoop_spec n i _ hl (by omega)

/-- R278: `R*R ≤ X < (R+1)*(R+1)`. -/
theorem isqrt_spec (n : Nat) : isqrt n * isqrt n ≤ n ∧ n < (isqrt n + 1) * (isqrt n + 1) := by
  apply isqrtLoop_spec n _ 0 (Nat.zero_le _)
  have h := Nat.lt_log2_self (n := n)
  rw [Nat.zero_add, ← pow_add]
  exact h.trans_le (Nat.pow_le_pow_right (by decide) (by omega))

/-! ### The choice inside an interval -/

theorem pick_ge (sw : Nat → Nat) (rank lo : Nat) : ∀ n, lo ≤ pick sw rank lo n
  | 0 => le_rfl
  | n + 1 => by
    unfold pick
    split
    · omega
    · exact pick_ge sw rank lo n

theorem pick_le (sw : Nat → Nat) (rank lo : Nat) : ∀ n, pick sw rank lo n ≤ lo + n
  | 0 => le_rfl
  | n + 1 => by
    unfold pick
    split
    · omega
    · exact (pick_le sw rank lo n).trans (by omega)

/-- A key of the interval above the one picked has its switch point above the operand's rank. -/
theorem pick_max (sw : Nat → Nat) (rank lo : Nat) : ∀ n k, pick sw rank lo n < k → k ≤ lo + n → rank < sw k
  | 0, k, h, hk => by simp only [pick] at h; omega
  | n + 1, k, h, hk => by
    unfold pick at h
    split at h
    · omega
    · rcases Nat.lt_or_ge k (lo + n + 1) with hlt | hge
      · exact pick_max sw rank lo n k h (by omega)
      · obtain rfl : k = lo + n + 1 := by omega
        omega

/-- The key picked is the lowest of the interval or one whose switch point the operand has reached. -/
theorem pick_reached (sw : Nat → Nat) (rank lo : Nat) : ∀ n, pick sw rank lo n = lo ∨ sw (pick sw rank lo n) ≤ rank
  | 0 => .inl rfl
  | n + 1 => by
    unfold pick
    split
    · exact .inr ‹_›
    · exact pick_reached sw rank lo n

/-- spec/45_transcendental.md R276 (v), R277 (vi): over intervals whose ends do not decrease, the free choice is monotone. -/
theorem pick_mono (sw : Nat → Nat) {r r' lo lo' n n' : Nat} (hr : r ≤ r') (hlo : lo ≤ lo') (hhi : lo + n ≤ lo' + n') :
    pick sw r lo n ≤ pick sw r' lo' n' := by
  by_contra hlt
  have hgt := Nat.lt_of_not_le hlt
  have hsw := pick_max sw r' lo' n' _ hgt ((pick_le sw r lo n).trans hhi)
  have := pick_ge sw r' lo' n'
  rcases pick_reached sw r lo n with h | h <;> omega

/-- The key picked is one whose switch point the operand has reached, none above it having been reached: it is determined. -/
theorem pick_eq (sw : Nat → Nat) (rank lo n c : Nat) (hlo : lo ≤ c) (hhi : c ≤ lo + n) (hc : sw c ≤ rank)
    (habove : ∀ k, c < k → rank < sw k) : pick sw rank lo n = c := by
  rcases Nat.lt_trichotomy (pick sw rank lo n) c with h | h | h
  · have := pick_max sw rank lo n c h hhi
    omega
  · exact h
  · have := habove _ h
    rcases pick_reached sw rank lo n with hr | hr <;> omega

/-- Whatever the interval, some switch function picks any given key of it. -/
theorem exists_switch (rank lo n c : Nat) (hlo : lo ≤ c) (hhi : c ≤ lo + n) : ∃ sw, pick sw rank lo n = c :=
  ⟨fun k => if k ≤ c then 0 else rank + 1, pick_eq _ rank lo n c hlo hhi (by simp) fun k hk => by
    simp only [if_neg (Nat.not_le.2 hk)]
    omega⟩

/-- Every monotone choice inside the intervals is made by one switch function. -/
theorem exists_switch_of_mono {ι : Type} (p : ι → Prop) (rank lo n f : ι → Nat)
    (hf : ∀ a, p a → lo a ≤ f a ∧ f a ≤ lo a + n a) (mono : ∀ a b, p a → p b → rank a ≤ rank b → f a ≤ f b)
    (bound : Nat) (hb : ∀ a, p a → rank a < bound) :
    ∃ sw, ∀ a, p a → pick sw (rank a) (lo a) (n a) = f a := by
  classical
  refine ⟨fun k => if h : ∃ r a, p a ∧ k ≤ f a ∧ rank a = r then Nat.find h else bound, fun a ha =>
    pick_eq _ _ _ _ _ (hf a ha).1 (hf a ha).2 ?_ fun k hk => ?_⟩
  · have h : ∃ r b, p b ∧ f a ≤ f b ∧ rank b = r := ⟨rank a, a, ha, le_rfl, rfl⟩
    rw [dif_pos h]
    exact Nat.find_min' h ⟨a, ha, le_rfl, rfl⟩
  · split
    case isTrue h =>
      obtain ⟨b, hpb, hkb, hrb⟩ := Nat.find_spec h
      by_contra hle
      have := mono b a hpb ha (by omega)
      omega
    case isFalse h => exact hb a ha

/-! ### Bounds of e^v -/

/-- Each squaring doubles the exponent, and rounding down keeps the bound. -/
theorem squareDown_le_exp : ∀ (k x : Nat) (t : ℝ), (x : ℝ) ≤ 2 ^ 420 * Real.exp t →
    (squareDown k x : ℝ) ≤ 2 ^ 420 * Real.exp (2 ^ k * t)
  | 0, x, t, h => by simpa [squareDown] using h
  | k + 1, x, t, h => by
    have hx : (0 : ℝ) ≤ x := Nat.cast_nonneg x
    have ht : Real.exp (2 * t) = Real.exp t * Real.exp t := by rw [two_mul, Real.exp_add]
    have hstep : (((x * x) >>> 420 : Nat) : ℝ) ≤ 2 ^ 420 * Real.exp (2 * t) := by
      rw [Nat.shiftRight_eq_div_pow]
      have hden : ((2 ^ 420 : Nat) : ℝ) = 2 ^ 420 := Nat.cast_pow 2 420
      refine Nat.cast_div_le.trans ?_
      rw [hden, div_le_iff₀ (by positivity), Nat.cast_mul, ht]
      nlinarith
    have := squareDown_le_exp k _ _ hstep
    rwa [← mul_assoc, ← pow_succ] at this

/-- The value of `mag * 2^-149`, negated where `neg`. -/
noncomputable def signedReal (neg : Bool) (mag : Nat) : ℝ := if neg then -((mag : ℝ) / 2 ^ 149) else (mag : ℝ) / 2 ^ 149

theorem signedReal_not (neg : Bool) (mag : Nat) : signedReal (!neg) mag = -signedReal neg mag := by
  cases neg <;> simp [signedReal]

/-- What the squarings start from. -/
theorem expStart_cast (neg : Bool) (mag : Nat) (h : mag < 2 ^ 156) :
    ((if neg then 2 ^ 420 - mag * 2 ^ 143 else 2 ^ 420 + mag * 2 ^ 143 : Nat) : ℝ) =
      2 ^ 420 * (signedReal neg mag / 2 ^ 128 + 1) := by
  have hsplit : (2 : ℝ) ^ 420 * ((mag : ℝ) / 2 ^ 149 / 2 ^ 128) = (mag : ℝ) * 2 ^ 143 := by
    rw [show (420 : ℕ) = 143 + 149 + 128 from rfl, pow_add, pow_add]
    field_simp
  cases neg
  · simp only [signedReal, Bool.false_eq_true, if_false, Nat.cast_add, Nat.cast_mul, Nat.cast_pow, Nat.cast_ofNat]
    rw [mul_add, hsplit, mul_one, add_comm]
  · have hle : mag * 2 ^ 143 ≤ 2 ^ 420 := (Nat.mul_le_mul_right _ h.le).trans (by
      rw [← pow_add]
      exact Nat.pow_le_pow_right (by decide) (by decide))
    simp only [signedReal, if_true, Nat.cast_sub hle, Nat.cast_mul, Nat.cast_pow, Nat.cast_ofNat]
    rw [mul_add, neg_div, mul_neg, hsplit, mul_one, neg_add_eq_sub]

theorem expLower_le (neg : Bool) (mag : Nat) (h : mag < 2 ^ 156) :
    (expLower neg mag : ℝ) ≤ 2 ^ 420 * Real.exp (signedReal neg mag) := by
  have hv : signedReal neg mag = 2 ^ 128 * (signedReal neg mag / 2 ^ 128) := by
    rw [mul_div_cancel₀]
    positivity
  rw [hv]
  refine squareDown_le_exp 128 _ _ ?_
  rw [expStart_cast neg mag h]
  exact mul_le_mul_of_nonneg_left (Real.add_one_le_exp _) (by positivity)

theorem squareDown_mono : ∀ (k : Nat) {x y : Nat}, x ≤ y → squareDown k x ≤ squareDown k y
  | 0, _, _, h => h
  | k + 1, x, y, h => squareDown_mono k (by
      rw [Nat.shiftRight_eq_div_pow, Nat.shiftRight_eq_div_pow]
      exact Nat.div_le_div_right (Nat.mul_le_mul h h))

/-- The bound is positive down to the operand -128, where it is least. -/
theorem expLower_pos (neg : Bool) (mag : Nat) (h : mag < 2 ^ 156) : 0 < expLower neg mag := by
  have least : 0 < squareDown 128 (2 ^ 420 - 2 ^ 156 * 2 ^ 143) := by decide +kernel
  refine least.trans_le (squareDown_mono 128 ?_)
  have hle := Nat.mul_le_mul_right (2 ^ 143) h.le
  split
  · exact Nat.sub_le_sub_left hle _
  · exact (Nat.sub_le _ _).trans (Nat.le_add_right _ _)

theorem le_expUpper (neg : Bool) (mag : Nat) (h : mag < 2 ^ 156) :
    2 ^ 420 * Real.exp (signedReal neg mag) ≤ (expUpper neg mag : ℝ) := by
  have hpos : (0 : ℝ) < expLower (!neg) mag := by exact_mod_cast expLower_pos (!neg) mag h
  have hlow := expLower_le (!neg) mag h
  rw [signedReal_not, Real.exp_neg] at hlow
  have hexp := Real.exp_pos (signedReal neg mag)
  have hfrac : 2 ^ 420 * Real.exp (signedReal neg mag) ≤ (2 : ℝ) ^ 840 / expLower (!neg) mag := by
    rw [le_div_iff₀ hpos]
    calc 2 ^ 420 * Real.exp (signedReal neg mag) * (expLower (!neg) mag : ℝ)
        ≤ 2 ^ 420 * Real.exp (signedReal neg mag) * (2 ^ 420 * (Real.exp (signedReal neg mag))⁻¹) :=
          mul_le_mul_of_nonneg_left hlow (by positivity)
      _ = 2 ^ 840 := by
          rw [mul_mul_mul_comm, mul_inv_cancel₀ hexp.ne', mul_one, ← pow_add]
  refine hfrac.trans ?_
  have := (Nat.lt_div_mul_add (a := 2 ^ 840) (expLower_pos (!neg) mag h)).le
  rw [div_le_iff₀ hpos, expUpper]
  exact_mod_cast this.trans_eq (Nat.succ_mul _ _).symm

end Sys2Proof.Machine
end

