-- ==== Sys2Proof/Laws/ExpBounds.lean ====
section
/-! SUPPORT. The bounds of e^v are tight: each lies within a factor of e^(2^-103) of it, so that an interval end is off by less
than a unit in the last place (spec/45_transcendental.md R276 (iv), R277 (vi)). -/

namespace Sys2Proof.Machine

/-- The claims' value of an operand is the value the bounds are about. -/
theorem ieeeVal_eq_signedReal (a : Word) : ieeeVal a = signedReal (sign a) (ieeeMag a) := rfl

/-- One squaring, rounded down, loses less than one unit of 2^-420. -/
theorem lt_squareStep (x : Nat) : (x : ℝ) * x / 2 ^ 420 - 1 < (((x * x) >>> 420 : Nat) : ℝ) := by
  have h := Nat.lt_div_mul_add (a := x * x) (b := 2 ^ 420) (Nat.two_pow_pos _)
  rw [← Nat.shiftRight_eq_div_pow, ← Nat.succ_mul] at h
  rw [sub_lt_iff_lt_add, div_lt_iff₀ (by positivity)]
  exact_mod_cast h

theorem inv_two_pow_le_exp {t : ℝ} (h : -129 ≤ t) : (2⁻¹ : ℝ) ^ 187 ≤ Real.exp t := by
  have h1 : Real.exp 129 ≤ 2 ^ 187 := by
    rw [show (129 : ℝ) = (129 : ℕ) * 1 by norm_num, Real.exp_nat_mul]
    exact (pow_le_pow_left₀ (Real.exp_pos 1).le Real.exp_one_lt_d9.le 129).trans (by norm_num)
  refine le_trans ?_ (Real.exp_le_exp.2 h)
  rw [Real.exp_neg, inv_pow]
  exact inv_anti₀ (Real.exp_pos _) h1

/-- While the numbers stay above e^-129, `k` squarings lose less than a factor of e^(2^-233). -/
theorem exp_le_squareDown : ∀ (k x : Nat) (t : ℝ), (∀ j ≤ k, -129 ≤ 2 ^ j * t) →
    2 ^ 420 * Real.exp (t + 2⁻¹ ^ 233) ≤ x → 2 ^ 420 * Real.exp (2 ^ k * t + 2⁻¹ ^ 233) ≤ squareDown k x
  | 0, x, t, _, h => by simpa [squareDown] using h
  | k + 1, x, t, hb, h => by
    have hE := inv_two_pow_le_exp (hb 1 (by omega))
    have hstep : 2 ^ 420 * Real.exp (2 * t + 2⁻¹ ^ 233) ≤ (((x * x) >>> 420 : Nat) : ℝ) := by
      refine le_trans ?_ (lt_squareStep x).le
      have hone : (2 : ℝ) ^ 420 * 2⁻¹ ^ 187 * 2⁻¹ ^ 233 = 1 := by
        rw [mul_assoc, ← pow_add, ← mul_pow]
        norm_num
      have hη : (0 : ℝ) < 2⁻¹ ^ 233 := by positivity
      have hPpos : (0 : ℝ) < 2 ^ 420 := by positivity
      generalize (2⁻¹ : ℝ) ^ 187 = c at *
      generalize (2⁻¹ : ℝ) ^ 233 = η at *
      generalize (2 : ℝ) ^ 420 = P at *
      have hsq : P * Real.exp (2 * t + 2 * η) ≤ (x : ℝ) * x / P := by
        rw [le_div_iff₀ hPpos]
        have h2 := mul_le_mul h h (by positivity) (Nat.cast_nonneg x)
        have he : Real.exp (2 * t + 2 * η) = Real.exp (t + η) * Real.exp (t + η) := by
          rw [← Real.exp_add]
          ring_nf
        rw [he]
        linarith
      have h3 : Real.exp (2 * t + 2 * η) = Real.exp (2 * t + η) * Real.exp η := by
        rw [← Real.exp_add]
        ring_nf
      have h4 := Real.add_one_le_exp η
      have h5 : c ≤ Real.exp (2 * t + η) := (by simpa using hE : c ≤ Real.exp (2 * t)).trans (Real.exp_le_exp.2 (by linarith))
      have h6 : Real.exp (2 * t + η) * (η + 1) ≤ Real.exp (2 * t + η) * Real.exp η :=
        mul_le_mul_of_nonneg_left h4 (Real.exp_pos _).le
      have h7 : c * η ≤ Real.exp (2 * t + η) * η := mul_le_mul_of_nonneg_right h5 hη.le
      have h8 : P * (c * η) ≤ P * (Real.exp (2 * t + η) * η) := mul_le_mul_of_nonneg_left h7 hPpos.le
      have h9 := mul_le_mul_of_nonneg_left h6 hPpos.le
      rw [h3] at hsq
      linarith
    have := exp_le_squareDown k _ (2 * t) (fun j hj => by
      have := hb (j + 1) (by omega)
      rwa [pow_succ, mul_assoc] at this) hstep
    rwa [← mul_assoc, ← pow_succ] at this

theorem abs_signedReal_lt (neg : Bool) (mag : Nat) (h : mag < 2 ^ 156) : |signedReal neg mag| < 2 ^ 7 := by
  have h1 : (mag : ℝ) / 2 ^ 149 < 2 ^ 7 := by
    rw [div_lt_iff₀ (by positivity), ← pow_add]
    exact_mod_cast h
  have h2 : 0 ≤ (mag : ℝ) / 2 ^ 149 := by positivity
  cases neg <;> simp only [signedReal, if_true, if_false, Bool.false_eq_true, abs_neg, abs_of_nonneg h2] <;> exact h1

/-- `expLower` is below e^v by less than a factor of e^(2^-104). -/
theorem exp_le_expLower (neg : Bool) (mag : Nat) (h : mag < 2 ^ 156) :
    2 ^ 420 * Real.exp (signedReal neg mag - 2⁻¹ ^ 104) ≤ expLower neg mag := by
  have hv := abs_lt.1 (abs_signedReal_lt neg mag h)
  set v := signedReal neg mag with hvd
  have hw : (2 : ℝ) ^ 128 * (v / 2 ^ 128 - 2⁻¹ ^ 232) = v - 2⁻¹ ^ 104 := by
    rw [mul_sub, mul_div_cancel₀]
    · norm_num
    · positivity
  have hη : (0 : ℝ) < 2⁻¹ ^ 233 := by positivity
  have key := exp_le_squareDown 128 (if neg then 2 ^ 420 - mag * 2 ^ 143 else 2 ^ 420 + mag * 2 ^ 143)
    (v / 2 ^ 128 - 2⁻¹ ^ 232) ?_ ?_
  · rw [hw] at key
    refine le_trans (mul_le_mul_of_nonneg_left (Real.exp_le_exp.2 (by linarith)) (by positivity)) key
  · intro j hj
    have hlow : -129 ≤ (2 : ℝ) ^ 128 * (v / 2 ^ 128 - 2⁻¹ ^ 232) := by rw [hw]; norm_num at hv ⊢; linarith
    have hpow : (2 : ℝ) ^ j ≤ 2 ^ 128 := pow_le_pow_right₀ (by norm_num) hj
    have hpos : (0 : ℝ) < 2 ^ j := by positivity
    rcases le_total 0 (v / 2 ^ 128 - 2⁻¹ ^ 232) with hs | hs
    · linarith [mul_nonneg hpos.le hs]
    · linarith [mul_le_mul_of_nonpos_right hpow hs]
  · rw [expStart_cast neg mag h]
    refine mul_le_mul_of_nonneg_left ?_ (by positivity)
    rw [← hvd]
    have hy1 : v / 2 ^ 128 - 2⁻¹ ^ 232 + 2⁻¹ ^ 233 = v / 2 ^ 128 - 2⁻¹ ^ 233 := by norm_num; ring
    rw [hy1]
    have hwu : v / 2 ^ 128 < 2⁻¹ ^ 121 := by rw [div_lt_iff₀ (by positivity)]; norm_num at hv ⊢; linarith
    have hwl : -(2⁻¹ ^ 121) < v / 2 ^ 128 := by rw [lt_div_iff₀ (by positivity)]; norm_num at hv ⊢; linarith
    generalize v / 2 ^ 128 = w at *
    have hη' : (2⁻¹ : ℝ) ^ 233 = 2⁻¹ ^ 121 * 2⁻¹ ^ 112 := by rw [← pow_add]
    have hs : (2⁻¹ : ℝ) ^ 121 ≤ 2⁻¹ ^ 112 / 4 := by norm_num
    have hs2 : (2⁻¹ : ℝ) ^ 233 ≤ 2⁻¹ ^ 121 := pow_le_pow_of_le_one (by norm_num) (by norm_num) (by norm_num)
    have h121 : (2⁻¹ : ℝ) ^ 121 ≤ 1 / 2 := by norm_num
    have hpos121 : (0 : ℝ) < 2⁻¹ ^ 121 := by positivity
    have hab : |w - 2⁻¹ ^ 233| ≤ 2 * 2⁻¹ ^ 121 := abs_le.2 ⟨by linarith, by linarith⟩
    have hx := (abs_le.1 (Real.abs_exp_sub_one_sub_id_le (hab.trans (by linarith)))).2
    have hsq : (w - 2⁻¹ ^ 233) ^ 2 ≤ 2⁻¹ ^ 233 := by
      rw [← sq_abs]
      refine (pow_le_pow_left₀ (abs_nonneg _) hab 2).trans ?_
      rw [hη', mul_pow]
      nlinarith
    linarith

/-- `expUpper` is above e^v by less than a factor of e^(2^-103). -/
theorem expUpper_le_exp (neg : Bool) (mag : Nat) (h : mag < 2 ^ 156) :
    (expUpper neg mag : ℝ) ≤ 2 ^ 420 * Real.exp (signedReal neg mag + 2⁻¹ ^ 103) := by
  have hlow := exp_le_expLower (!neg) mag h
  rw [signedReal_not] at hlow
  have hv := abs_lt.1 (abs_signedReal_lt neg mag h)
  generalize signedReal neg mag = v at *
  have hL : (0 : ℝ) < expLower (!neg) mag := by exact_mod_cast expLower_pos (!neg) mag h
  have hcast : (expUpper neg mag : ℝ) ≤ 2 ^ 840 / (expLower (!neg) mag : ℝ) + 1 := by
    unfold expUpper
    rw [Nat.cast_add, Nat.cast_one]
    refine add_le_add_left (Nat.cast_div_le.trans (le_of_eq ?_)) 1
    rw [Nat.cast_pow, Nat.cast_ofNat]
  have hdiv : 2 ^ 840 / (expLower (!neg) mag : ℝ) ≤ 2 ^ 420 * Real.exp (v + 2⁻¹ ^ 104) := by
    rw [div_le_iff₀ hL]
    have he : Real.exp (v + 2⁻¹ ^ 104) * Real.exp (-v - 2⁻¹ ^ 104) = 1 := by
      rw [← Real.exp_add, ← Real.exp_zero]
      ring_nf
    have := mul_le_mul_of_nonneg_left hlow (show (0 : ℝ) ≤ 2 ^ 420 * Real.exp (v + 2⁻¹ ^ 104) by positivity)
    rw [mul_mul_mul_comm, he, mul_one, ← pow_add] at this
    exact this
  have hone : (1 : ℝ) ≤ 2 ^ 420 * (2⁻¹ ^ 187 * 2⁻¹ ^ 104) := by
    rw [show 420 = 129 + (187 + 104) from rfl, pow_add, mul_assoc, ← pow_add, ← mul_pow, mul_inv_cancel₀ two_ne_zero,
      one_pow, mul_one]
    exact one_le_pow₀ one_le_two
  have hE := inv_two_pow_le_exp (t := v + 2⁻¹ ^ 104) (by
    have : (0 : ℝ) < 2⁻¹ ^ 104 := by positivity
    norm_num at hv
    linarith)
  have h103 : Real.exp (v + 2⁻¹ ^ 103) = Real.exp (v + 2⁻¹ ^ 104) * Real.exp (2⁻¹ ^ 104) := by
    rw [← Real.exp_add, add_assoc, ← two_mul]
    norm_num
  have h1 := Real.add_one_le_exp ((2⁻¹ : ℝ) ^ 104)
  have hpos : (0 : ℝ) < 2⁻¹ ^ 104 := by positivity
  rw [h103]
  generalize (2⁻¹ : ℝ) ^ 104 = η at *
  have h2 := mul_le_mul_of_nonneg_left h1 (Real.exp_pos (v + η)).le
  have h3 := mul_le_mul_of_nonneg_right hE hpos.le
  have hP : (0 : ℝ) < 2 ^ 420 := by positivity
  generalize (2 : ℝ) ^ 420 = P at *
  have h4 := mul_le_mul_of_nonneg_left h2 hP.le
  have h5 := mul_le_mul_of_nonneg_left h3 hP.le
  linarith

end Sys2Proof.Machine
end

