-- ==== Sys2Proof/Laws/Fields.lean ====
section
/-! SUPPORT. The fields of a pattern: their bounds, the pattern from its fields, and the fields of a packed pattern. -/

namespace Sys2Proof.Machine

theorem expf_lt (v : Word) : expf v < 256 := (v.extractLsb' 23 8).isLt

theorem frac_lt (v : Word) : frac v < 2 ^ 23 := (v.extractLsb' 0 23).isLt

theorem sig_lt (v : Word) : sig v < 2 ^ 24 := by have := frac_lt v; unfold sig; omega

theorem sig_ge (v : Word) : 2 ^ 23 ≤ sig v := by unfold sig; omega

theorem expf_eq (v : Word) : expf v = v.toNat / 2 ^ 23 % 2 ^ 8 := by
  simp [expf, BitVec.extractLsb'_toNat, Nat.shiftRight_eq_div_pow]

theorem frac_eq (v : Word) : frac v = v.toNat % 2 ^ 23 := by
  simp [frac, BitVec.extractLsb'_toNat]

theorem sign_eq (v : Word) : sign v = decide (2 ^ 31 ≤ v.toNat) := by
  have h := v.isLt
  rw [sign, BitVec.getLsbD, Nat.testBit_eq_decide_div_mod_eq, decide_eq_decide]
  omega

theorem toNat_pack (s : Bool) (e m : Nat) :
    (pack s e m).toNat = (if s then 2 ^ 31 else 0) + e % 2 ^ 8 * 2 ^ 23 + m % 2 ^ 23 := by
  have he : e % 2 ^ 8 < 2 ^ 8 := Nat.mod_lt _ (by decide)
  have hm : m % 2 ^ 23 < 2 ^ 23 := Nat.mod_lt _ (by decide)
  simp only [pack, BitVec.toNat_append, BitVec.toNat_ofNat, BitVec.toNat_ofBool]
  rw [← Nat.shiftLeft_add_eq_or_of_lt hm, ← Nat.shiftLeft_add_eq_or_of_lt he]
  cases s
  · simp [Nat.shiftLeft_eq]
  · simp [Nat.shiftLeft_eq]; omega

/-- A pattern from its three fields. -/
theorem toNat_eq_fields (v : Word) : v.toNat = (if sign v then 2 ^ 31 else 0) + expf v * 2 ^ 23 + frac v := by
  have h := v.isLt
  rw [sign_eq, expf_eq, frac_eq]
  split <;> simp_all <;> omega

@[simp] theorem sign_pack (s : Bool) (e m : Nat) : sign (pack s e m) = s := by
  have he : e % 2 ^ 8 < 2 ^ 8 := Nat.mod_lt _ (by decide)
  have hm : m % 2 ^ 23 < 2 ^ 23 := Nat.mod_lt _ (by decide)
  rw [sign_eq, toNat_pack]
  cases s <;> (simp; omega)

@[simp] theorem expf_pack (s : Bool) (e m : Nat) : expf (pack s e m) = e % 256 := by
  have hm : m % 2 ^ 23 < 2 ^ 23 := Nat.mod_lt _ (by decide)
  rw [expf_eq, toNat_pack]
  cases s <;> simp <;> omega

@[simp] theorem frac_pack (s : Bool) (e m : Nat) : frac (pack s e m) = m % 2 ^ 23 := by
  rw [frac_eq, toNat_pack]
  cases s
  · simp
  · simp; omega

/-- Two patterns with the same fields are equal. -/
theorem eq_of_fields {a b : Word} (hs : sign a = sign b) (he : expf a = expf b) (hf : frac a = frac b) : a = b := by
  apply BitVec.eq_of_toNat_eq
  rw [toNat_eq_fields a, toNat_eq_fields b, hs, he, hf]

theorem pack_fields (v : Word) : pack (sign v) (expf v) (frac v) = v := by
  apply eq_of_fields
  · simp
  · simp [Nat.mod_eq_of_lt (expf_lt v)]
  · simpa using frac_lt v

/-! ### The sign flip and the sign clear -/

theorem toNat_and_abs (v : Word) : (v &&& ABS).toNat = v.toNat % 2 ^ 31 := by
  rw [show ABS = BitVec.ofNat 32 (2 ^ 31 - 1) from rfl, BitVec.toNat_and, BitVec.toNat_ofNat,
    show (2 ^ 31 - 1) % 2 ^ 32 = 2 ^ 31 - 1 from rfl, Nat.and_two_pow_sub_one_eq_mod]

@[simp] theorem expf_and_abs (v : Word) : expf (v &&& ABS) = expf v := by
  rw [expf_eq, expf_eq, toNat_and_abs]; omega

@[simp] theorem frac_and_abs (v : Word) : frac (v &&& ABS) = frac v := by
  rw [frac_eq, frac_eq, toNat_and_abs]; omega

@[simp] theorem sign_and_abs (v : Word) : sign (v &&& ABS) = false := by
  rw [sign_eq, toNat_and_abs]; simp; omega

@[simp] theorem sign_xor_sign (v : Word) : sign (v ^^^ SIGN) = !sign v := by
  simp [sign, SIGN]

theorem toNat_xor_sign_mod (v : Word) : (v ^^^ SIGN).toNat % 2 ^ 31 = v.toNat % 2 ^ 31 := by
  apply Nat.eq_of_testBit_eq
  intro i
  rw [Nat.testBit_mod_two_pow, Nat.testBit_mod_two_pow, BitVec.toNat_xor, Nat.testBit_xor,
    show SIGN.toNat = 2 ^ 31 from rfl, Nat.testBit_two_pow]
  by_cases h : i < 31
  · simp [h, show ¬(31 = i) by omega]
  · simp [h]

@[simp] theorem expf_xor_sign (v : Word) : expf (v ^^^ SIGN) = expf v := by
  have := toNat_xor_sign_mod v
  rw [expf_eq, expf_eq]; omega

@[simp] theorem frac_xor_sign (v : Word) : frac (v ^^^ SIGN) = frac v := by
  have := toNat_xor_sign_mod v
  rw [frac_eq, frac_eq]; omega

/-! ### The predicates in terms of the fields -/

theorem isZero_iff (v : Word) : isZero v = true ↔ expf v = 0 ∧ frac v = 0 := by
  have h : isZero v = true ↔ (v &&& ABS).toNat = 0 := by
    simp [isZero, BitVec.toNat_eq]
  rw [h, toNat_and_abs, expf_eq, frac_eq]
  omega

theorem isSpecial_iff (v : Word) : isSpecial v = true ↔ v = SENT ∨ (expf v = 255 ∧ frac v = 0) := by
  have h : (v &&& ABS == POS_INF) = true ↔ (v &&& ABS).toNat = 0x7F800000 := by
    simp [BitVec.toNat_eq, POS_INF]
  rw [isSpecial, Bool.or_eq_true, beq_iff_eq, h, toNat_and_abs, expf_eq, frac_eq]
  constructor <;> rintro (h | h) <;> first | exact .inl h | (right; omega)

/-- spec/42_mul_div_pow.md R196: the constraint on `NATIVE_NAN`, for every choice of the host: an exponent field of 255 and a
non-zero mantissa. -/
theorem nativeNan_fields (call : Config.NativeCall) : expf (nativeNan call) = 255 ∧ frac (nativeNan call) ≠ 0 := by
  have key : ∀ v : Word, ieeeClass v = .nan → expf v = 255 ∧ frac v ≠ 0 := by
    intro v h
    unfold ieeeClass at h
    split at h
    · split at h <;> simp_all
    · split at h <;> simp at h
  unfold nativeNan
  split
  · exact key _ ‹_›
  · decide

end Sys2Proof.Machine
end

