-- ==== Sys2Proof/Laws/ExpLog.lean ====
section
/-! SUPPORT. The ends of the intervals behind `EXP_FN` and `LOG_FN` do not decrease (spec/45_transcendental.md R276 (v), R277
(vi)), how near their numbers they lie, and what the search for a logarithm finds. -/

namespace Sys2Proof.Machine

/-! ### The pattern at, above and within 1 ULP below a fixed-point number -/

theorem log2_mono {x y : Nat} (h : x ≤ y) : x.log2 ≤ y.log2 := by
  rw [Nat.log2_eq_log_two, Nat.log2_eq_log_two]
  exact Nat.log_mono_right h

/-- A number's top 24 bits: the leading one and 23 more. -/
theorem shiftRight_log2_bounds (x : Nat) (h : 23 ≤ x.log2) : 2 ^ 23 ≤ x >>> (x.log2 - 23) ∧ x >>> (x.log2 - 23) < 2 ^ 24 := by
  have hx : x ≠ 0 := by
    rintro rfl
    simp at h
  have hl := Nat.log2_self_le hx
  have hu := Nat.lt_log2_self (n := x)
  rw [Nat.shiftRight_eq_div_pow]
  constructor
  · rw [Nat.le_div_iff_mul_le (by positivity), ← pow_add]
    exact (by rw [show 23 + (x.log2 - 23) = x.log2 by omega]; exact hl)
  · rw [Nat.div_lt_iff_lt_mul (by positivity), ← pow_add]
    exact (by rw [show 24 + (x.log2 - 23) = x.log2 + 1 by omega]; exact hu)

/-- Below 2^294 the pattern is a subnormal. -/
theorem shiftRight_lt_of_log2_lt {x : Nat} (h : x.log2 < 294) : x >>> 271 < 2 ^ 23 := by
  rw [Nat.shiftRight_eq_div_pow, Nat.div_lt_iff_lt_mul (Nat.two_pow_pos _), ← pow_add]
  exact (Nat.lt_log2_self (n := x)).trans_le (Nat.pow_le_pow_right (by decide) h)

theorem gridFloor_le (x : Nat) : gridFloor x ≤ 0x7F800000 := by
  unfold gridFloor
  split
  case isTrue hx =>
    have := shiftRight_lt_of_log2_lt hx
    omega
  case isFalse hx =>
    split
    · exact le_rfl
    · have := shiftRight_log2_bounds x (by omega)
      omega

theorem gridFloor_mono {x y : Nat} (h : x ≤ y) : gridFloor x ≤ gridFloor y := by
  have hl := log2_mono h
  by_cases hy : 548 ≤ y.log2
  · have : gridFloor y = 0x7F800000 := by
      unfold gridFloor
      rw [if_neg (by omega), if_pos hy]
    exact this ▸ gridFloor_le x
  by_cases hx : x.log2 < 294
  · have h1 := shiftRight_lt_of_log2_lt hx
    unfold gridFloor
    rw [if_pos hx, if_neg hy]
    split
    · rw [Nat.shiftRight_eq_div_pow, Nat.shiftRight_eq_div_pow]
      exact Nat.div_le_div_right h
    · omega
  · have bx := shiftRight_log2_bounds x (by omega)
    have bY := shiftRight_log2_bounds y (by omega)
    unfold gridFloor
    rw [if_neg hx, if_neg (by omega), if_neg (by omega), if_neg hy]
    rcases Nat.eq_or_lt_of_le hl with he | hlt
    · have : x >>> (x.log2 - 23) ≤ y >>> (y.log2 - 23) := by
        rw [← he, Nat.shiftRight_eq_div_pow, Nat.shiftRight_eq_div_pow]
        exact Nat.div_le_div_right h
      omega
    · omega

theorem gridCeil_mono {x y : Nat} (h : x ≤ y) : gridCeil x ≤ gridCeil y := by
  have hf := gridFloor_mono h
  rcases Nat.eq_or_lt_of_le hf with he | hlt
  · unfold gridCeil
    rw [he]
    split <;> split <;> omega
  · unfold gridCeil
    split <;> split <;> omega

/-- The top 24 bits of a number are one bit less than its top 25. -/
theorem shiftRight_log2_split (x : Nat) (h : 24 ≤ x.log2) :
    x >>> (x.log2 - 23) = x >>> (x.log2 - 24) / 2 := by
  rw [show x.log2 - 23 = (x.log2 - 24) + 1 by omega, Nat.shiftRight_add]
  rfl

theorem gridLow_mono {x y : Nat} (h : x ≤ y) : gridLow x ≤ gridLow y := by
  have hf := gridFloor_mono h
  have hl := log2_mono h
  rcases Nat.eq_or_lt_of_le hf with he | hlt
  case inr => unfold gridLow; split <;> split <;> omega
  unfold gridLow
  by_cases hy : 294 < y.log2 ∧ y.log2 ≤ 548 ∧ y >>> (y.log2 - 24) = 2 ^ 24
  case neg => rw [if_neg hy]; split <;> omega
  rw [if_pos hy, he]
  split
  · exact le_rfl
  rename_i hx
  refine absurd ?_ hx
  obtain ⟨h1, h2, h3⟩ := hy
  have hs := shiftRight_log2_split y (by omega)
  rw [h3] at hs
  have hxl : x.log2 = y.log2 := by
    by_contra hne
    unfold gridFloor at he
    have hlt : ¬ 548 ≤ x.log2 := by omega
    rw [if_neg (show ¬ y.log2 < 294 by omega), if_neg hlt] at he
    have hlow : x >>> 271 < 2 ^ 23 ∨ 294 ≤ x.log2 := by
      by_cases hc : 294 ≤ x.log2
      · exact .inr hc
      · exact .inl (shiftRight_lt_of_log2_lt (by omega))
    split at he
    · split at he <;> omega
    · have := shiftRight_log2_bounds x (by omega)
      split at he <;> omega
  have hxs := shiftRight_log2_split x (by omega)
  have bx := shiftRight_log2_bounds x (by omega)
  have hle : x >>> (x.log2 - 24) ≤ y >>> (y.log2 - 24) := by
    rw [hxl, Nat.shiftRight_eq_div_pow, Nat.shiftRight_eq_div_pow]
    exact Nat.div_le_div_right h
  exact ⟨by omega, by omega, by omega⟩

/-! ### How near the ends lie -/

/-- The exponent of the unit in the last place at a fixed-point number. -/
def ulpExp (x : Nat) : Nat := max x.log2 294 - 23

/-- A non-negative pattern's magnitude from its number. -/
theorem ieeeMag_ofNat (p : Nat) (h : p < 2 ^ 31) :
    ieeeMag (BitVec.ofNat 32 p) =
      if p / 2 ^ 23 = 0 then p % 2 ^ 23 else (2 ^ 23 + p % 2 ^ 23) * 2 ^ (p / 2 ^ 23 - 1) := by
  have hp : (BitVec.ofNat 32 p).toNat = p := by rw [BitVec.toNat_ofNat]; omega
  unfold ieeeMag
  rw [expf_eq, frac_eq, hp, Nat.mod_eq_of_lt (show p / 2 ^ 23 < 2 ^ 8 by omega)]

/-- From one pattern to the next the value grows by one unit in the last place. -/
theorem gridValue_succ (p : Nat) (h : p + 1 < 2 ^ 31) :
    gridValue (p + 1) = gridValue p + 2 ^ (max (p / 2 ^ 23) 1 + 270) := by
  unfold gridValue
  rw [ieeeMag_ofNat p (by omega), ieeeMag_ofNat (p + 1) (by omega)]
  obtain ⟨e, m, hm, hp⟩ : ∃ e m, m < 2 ^ 23 ∧ p = e * 2 ^ 23 + m :=
    ⟨p / 2 ^ 23, p % 2 ^ 23, Nat.mod_lt _ (by decide), by omega⟩
  have h1 : p / 2 ^ 23 = e := by omega
  have h2 : p % 2 ^ 23 = m := by omega
  rw [h1, h2]
  rcases Nat.lt_or_ge (m + 1) (2 ^ 23) with hlt | hge
  · have h3 : (p + 1) / 2 ^ 23 = e := by omega
    have h4 : (p + 1) % 2 ^ 23 = m + 1 := by omega
    rw [h3, h4]
    rcases e with _ | e
    · simp only [if_true, Nat.zero_max]
      ring
    · simp only [Nat.succ_ne_zero, if_false, Nat.add_sub_cancel, max_eq_left (Nat.le_add_left 1 e)]
      ring
  · have h3 : (p + 1) / 2 ^ 23 = e + 1 := by omega
    have h4 : (p + 1) % 2 ^ 23 = 0 := by omega
    have h5 : m = 2 ^ 23 - 1 := by omega
    rw [h3, h4, h5]
    rcases e with _ | e
    · simp only [if_true, Nat.zero_max, Nat.succ_ne_zero, if_false, Nat.add_sub_cancel]
      generalize 2 ^ 271 = b
      omega
    · simp only [Nat.succ_ne_zero, if_false, Nat.add_sub_cancel, max_eq_left (Nat.le_add_left 1 e)]
      rw [show e + 1 + 270 = e + 271 by omega, pow_succ 2 e, pow_add 2 e]
      generalize 2 ^ 271 = b
      ring

/-- The fields of the pattern at or below a fixed-point number. -/
theorem gridFloor_fields (x : Nat) (h : x.log2 < 548) :
    max (gridFloor x / 2 ^ 23) 1 + 270 = ulpExp x ∧
    gridValue (gridFloor x) = x / 2 ^ ulpExp x * 2 ^ ulpExp x := by
  have hle := gridFloor_le x
  unfold gridValue ulpExp
  rw [ieeeMag_ofNat _ (by omega)]
  by_cases h1 : x.log2 < 294
  · have h2 := shiftRight_lt_of_log2_lt h1
    have h3 : gridFloor x = x >>> 271 := by
      unfold gridFloor
      rw [if_pos h1]
    rw [h3, if_pos (by omega), Nat.mod_eq_of_lt h2, max_eq_right h1.le, Nat.shiftRight_eq_div_pow x]
    exact ⟨by rw [← Nat.shiftRight_eq_div_pow x]; omega, rfl⟩
  · obtain ⟨b1, b2⟩ := shiftRight_log2_bounds x (by omega)
    have h3 : gridFloor x = (x.log2 - 293) * 2 ^ 23 + (x >>> (x.log2 - 23) - 2 ^ 23) := by
      unfold gridFloor
      rw [if_neg h1, if_neg (by omega)]
    rw [h3, max_eq_left (a := x.log2) (by omega), ← Nat.shiftRight_eq_div_pow x]
    generalize x >>> (x.log2 - 23) = q at *
    obtain ⟨e, he⟩ : ∃ e, x.log2 = e + 294 := ⟨x.log2 - 294, by omega⟩
    have hd : ((x.log2 - 293) * 2 ^ 23 + (q - 2 ^ 23)) / 2 ^ 23 = e + 1 := by omega
    have hm : ((x.log2 - 293) * 2 ^ 23 + (q - 2 ^ 23)) % 2 ^ 23 = q - 2 ^ 23 := by omega
    rw [hd, hm, if_neg (by omega), he, Nat.add_sub_cancel' b1, mul_assoc, ← pow_add]
    exact ⟨by omega, by rw [show e + 1 - 1 + 271 = e + 294 - 23 by omega]⟩

/-- The pattern at or below a fixed-point number is less than one unit in the last place below it. -/
theorem gridFloor_near (x : Nat) (h : x.log2 < 548) :
    gridValue (gridFloor x) ≤ x ∧ x < gridValue (gridFloor x) + 2 ^ ulpExp x := by
  rw [(gridFloor_fields x h).2]
  exact ⟨Nat.div_mul_le_self _ _, Nat.lt_div_mul_add (Nat.two_pow_pos _)⟩

/-- The lower end is at most the number, and less than one unit in the last place below it. -/
theorem gridLow_near (x : Nat) (h : x.log2 < 548) :
    gridValue (gridLow x) ≤ x ∧ x < gridValue (gridLow x) + 2 ^ ulpExp x := by
  obtain ⟨h1, h2⟩ := gridFloor_near x h
  unfold gridLow
  split
  case isFalse => exact ⟨h1, h2⟩
  case isTrue hc =>
    obtain ⟨c1, c2, c3⟩ := hc
    have hs := shiftRight_log2_split x (by omega)
    have hg : gridFloor x = (x.log2 - 293) * 2 ^ 23 := by
      unfold gridFloor
      rw [if_neg (by omega), if_neg (by omega), hs, c3]
      norm_num
    have hsucc := gridValue_succ (gridFloor x - 1) (by have := gridFloor_le x; omega)
    rw [Nat.sub_add_cancel (by omega)] at hsucc
    have hexp : max ((gridFloor x - 1) / 2 ^ 23) 1 + 270 = x.log2 - 24 := by omega
    have hu : ulpExp x = (x.log2 - 24) + 1 := by unfold ulpExp; omega
    rw [hexp] at hsucc
    have hlt : x < gridValue (gridFloor x) + 2 ^ (x.log2 - 24) := by
      have hv := (gridFloor_fields x h).2
      rw [hu, pow_succ, ← Nat.div_div_eq_div_mul, ← Nat.shiftRight_eq_div_pow, c3] at hv
      have := Nat.lt_div_mul_add (a := x) (b := 2 ^ (x.log2 - 24)) (Nat.two_pow_pos _)
      rw [← Nat.shiftRight_eq_div_pow, c3] at this
      rw [hv]
      omega
    rw [hu, pow_succ]
    omega

/-- The upper end is at least the number, and less than one unit in the last place above it. -/
theorem gridCeil_near (x : Nat) (h : x.log2 < 548) :
    x ≤ gridValue (gridCeil x) ∧ gridValue (gridCeil x) < x + 2 ^ ulpExp x := by
  obtain ⟨h1, h2⟩ := gridFloor_near x h
  obtain ⟨f1, -⟩ := gridFloor_fields x h
  have hpos := Nat.two_pow_pos (ulpExp x)
  have hlt : gridFloor x < 0x7F800000 := by
    unfold ulpExp at f1
    have := gridFloor_le x
    omega
  unfold gridCeil
  split
  case isTrue hc =>
    rw [gridValue_succ _ (by omega), f1]
    omega
  case isFalse hc => omega

/-! ### The search -/

/-- Where passing at a pattern means passing at every pattern below it, the search finds the greatest that passes. -/
theorem lnSearch_spec (certain : Bool) (mag n : Nat)
    (down : ∀ p q, p ≤ q → q < n → lnReaches certain mag (ieeeMag (BitVec.ofNat 32 q)) = true →
      lnReaches certain mag (ieeeMag (BitVec.ofNat 32 p)) = true) :
    ∀ i p, p + 2 ^ i ≤ n → p ≤ lnSearch certain mag i p ∧ lnSearch certain mag i p < p + 2 ^ i ∧
      (lnSearch certain mag i p = p ∨ lnReaches certain mag (ieeeMag (BitVec.ofNat 32 (lnSearch certain mag i p))) = true) ∧
      ∀ q, lnSearch certain mag i p < q → q < p + 2 ^ i → lnReaches certain mag (ieeeMag (BitVec.ofNat 32 q)) = false
  | 0, p, _ => ⟨le_rfl, by simp [lnSearch], .inl rfl, fun q h1 h2 => by simp only [lnSearch, pow_zero] at h1 h2; omega⟩
  | i + 1, p, hn => by
    have hpos := Nat.two_pow_pos i
    have h2 : p + 2 ^ (i + 1) = p + 2 ^ i + 2 ^ i := by rw [pow_succ]; omega
    unfold lnSearch
    split
    · rename_i hr
      obtain ⟨a, b, c, d⟩ := lnSearch_spec certain mag n down i (p + 2 ^ i) (h2 ▸ hn)
      refine ⟨by omega, by omega, .inr ?_, fun q h3 h4 => d q h3 (h2 ▸ h4)⟩
      rcases c with c | c
      · rw [c]
        exact hr
      · exact c
    · rename_i hr
      obtain ⟨a, b, c, d⟩ := lnSearch_spec certain mag n down i p (by omega)
      refine ⟨a, by omega, c, fun q h3 h4 => ?_⟩
      rcases Nat.lt_or_ge q (p + 2 ^ i) with hq | hq
      · exact d q h3 hq
      · exact Bool.eq_false_iff.2 fun hR => hr (down _ _ hq (by omega) hR)

end Sys2Proof.Machine
end

