-- ==== Sys2Proof/Laws/ExpLogMono.lean ====
section
/-! SUPPORT. Neither end of an interval behind `EXP_FN` or `LOG_FN` decreases (spec/45_transcendental.md R276 (v), R277 (vi)), and
what the search for a logarithm finds over all patterns. -/

namespace Sys2Proof.Machine

/-! ### Magnitudes -/

/-- The magnitude grows with the number of a non-negative pattern. -/
theorem gridValue_mono {p q : Nat} (h : p ≤ q) (hq : q < 2 ^ 31) : gridValue p ≤ gridValue q := by
  induction q, h using Nat.le_induction with
  | base => exact le_rfl
  | succ n _ ih =>
    rw [gridValue_succ n hq]
    exact (ih (by omega)).trans (Nat.le_add_right _ _)

theorem ieeeMag_mono {p q : Nat} (h : p ≤ q) (hq : q < 2 ^ 31) :
    ieeeMag (BitVec.ofNat 32 p) ≤ ieeeMag (BitVec.ofNat 32 q) :=
  Nat.le_of_mul_le_mul_right (gridValue_mono h hq) (Nat.two_pow_pos 271)

/-- The magnitude of a pattern is that of its low 31 bits. -/
theorem toNat_and_ABS (v : Word) : (v &&& ABS).toNat = v.toNat % 2 ^ 31 := by
  rw [BitVec.toNat_and]
  exact Nat.and_two_pow_sub_one_eq_mod v.toNat 31

theorem ieeeMag_and_ABS (v : Word) : ieeeMag (BitVec.ofNat 32 (v &&& ABS).toNat) = ieeeMag v := by
  have h := v.isLt
  rw [toNat_and_ABS, ieeeMag_ofNat _ (by omega)]
  unfold ieeeMag
  rw [expf_eq, frac_eq]
  have h1 : v.toNat % 2 ^ 31 / 2 ^ 23 = v.toNat / 2 ^ 23 % 2 ^ 8 := by omega
  have h2 : v.toNat % 2 ^ 31 % 2 ^ 23 = v.toNat % 2 ^ 23 := by omega
  rw [h1, h2]

theorem ieeeMag_le_of_abs_le {a b : Word} (h : (a &&& ABS).toNat ≤ (b &&& ABS).toNat) : ieeeMag a ≤ ieeeMag b := by
  rw [← ieeeMag_and_ABS a, ← ieeeMag_and_ABS b]
  exact ieeeMag_mono h (by rw [toNat_and_ABS]; omega)

/-- A finite pattern is not a zero. -/
theorem abs_pos_of_finite {a : Word} (h : ieeeClass a = .finite) : 0 < (a &&& ABS).toNat := by
  by_contra h0
  rw [toNat_and_ABS] at h0
  have he : expf a = 0 := by rw [expf_eq]; omega
  have hf : frac a = 0 := by rw [frac_eq]; omega
  unfold ieeeClass at h
  rw [he, hf] at h
  simp at h

/-- What an order of keys says of two finite patterns. -/
theorem orderKey_le_cases {a b : Word} (ha : ieeeClass a = .finite) (h : orderKey a ≤ orderKey b) :
    (sign a = true ∧ sign b = true ∧ ieeeMag b ≤ ieeeMag a) ∨ (sign a = true ∧ sign b = false) ∨
    (sign a = false ∧ sign b = false ∧ ieeeMag a ≤ ieeeMag b) := by
  have hp := abs_pos_of_finite ha
  have hla : (a &&& ABS).toNat < 2 ^ 31 := by rw [toNat_and_ABS]; omega
  have hlb : (b &&& ABS).toNat < 2 ^ 31 := by rw [toNat_and_ABS]; omega
  unfold orderKey at h
  cases hsa : sign a <;> cases hsb : sign b <;> simp only [hsa, hsb, if_true, if_false, Bool.false_eq_true] at h
  · exact .inr (.inr ⟨rfl, rfl, ieeeMag_le_of_abs_le (by omega)⟩)
  · omega
  · exact .inr (.inl ⟨rfl, rfl⟩)
  · exact .inl ⟨rfl, rfl, ieeeMag_le_of_abs_le (by omega)⟩

/-! ### The bounds of e^v -/

theorem expLower_false_mono {m n : Nat} (h : m ≤ n) : expLower false m ≤ expLower false n := by
  simp only [expLower, Bool.false_eq_true, if_false]
  exact squareDown_mono 128 (Nat.add_le_add_left (Nat.mul_le_mul_right _ h) _)

theorem expLower_true_anti {m n : Nat} (h : m ≤ n) : expLower true n ≤ expLower true m := by
  simp only [expLower, if_true]
  exact squareDown_mono 128 (Nat.sub_le_sub_left (Nat.mul_le_mul_right _ h) _)

theorem expUpper_false_mono {m n : Nat} (h : m ≤ n) (hn : n < 2 ^ 156) : expUpper false m ≤ expUpper false n := by
  unfold expUpper
  generalize 2 ^ 840 = P
  simp only [Bool.not_false]
  exact Nat.add_le_add_right (Nat.div_le_div_left (expLower_true_anti h) (expLower_pos true n hn)) 1

theorem expUpper_true_anti {m n : Nat} (h : m ≤ n) (hn : n < 2 ^ 156) : expUpper true n ≤ expUpper true m := by
  unfold expUpper
  generalize 2 ^ 840 = P
  simp only [Bool.not_true]
  exact Nat.add_le_add_right (Nat.div_le_div_left (expLower_false_mono h) (expLower_pos false m (h.trans_lt hn))) 1

/-- 1.0 bounds the powers of negative and of positive operands. -/
theorem expLower_true_le_one (m : Nat) : expLower true m ≤ 2 ^ 420 := by
  have h0 : expLower true 0 ≤ 2 ^ 420 := by decide +kernel
  exact (expLower_true_anti (Nat.zero_le m)).trans h0

theorem one_le_expUpper_false (m : Nat) (h : m < 2 ^ 156) : 2 ^ 420 ≤ expUpper false m := by
  have h0 : 2 ^ 420 ≤ expUpper false 0 := by decide +kernel
  exact h0.trans (expUpper_false_mono (Nat.zero_le m) h)

theorem gridLow_le_gridFloor (x : Nat) : gridLow x ≤ gridFloor x := by
  unfold gridLow
  split <;> omega

theorem gridCeil_le (x : Nat) : gridCeil x ≤ 0x7F800000 := by
  have := gridFloor_le x
  unfold gridCeil
  split <;> omega

/-- spec/45_transcendental.md R276 (v): neither end of the interval of e^v decreases. -/
theorem expBounds_mono {a b : Word} (ha : ieeeClass a = .finite) (h : orderKey a ≤ orderKey b) :
    (expBounds a).1 ≤ (expBounds b).1 ∧ (expBounds a).2 ≤ (expBounds b).2 := by
  have hone : 0x3F800000 ≤ gridCeil (2 ^ 420) := by decide +kernel
  have hlow : gridLow (2 ^ 420) ≤ 0x3F800000 := by decide +kernel
  have hceil : 1 ≤ gridCeil 1 := by decide +kernel
  have up : ∀ neg m, 1 ≤ expUpper neg m := fun neg m => Nat.le_add_left 1 _
  rcases orderKey_le_cases ha h with ⟨sa, sb, hm⟩ | ⟨sa, sb⟩ | ⟨sa, sb, hm⟩
  · simp only [expBounds, sa, sb, if_true]
    by_cases hA : 2 ^ 156 ≤ ieeeMag a <;> by_cases hB : 2 ^ 156 ≤ ieeeMag b
    · rw [if_pos hA, if_pos hB]
      exact ⟨le_rfl, le_rfl⟩
    · rw [if_pos hA, if_neg hB]
      exact ⟨Nat.zero_le _, le_min (hceil.trans (gridCeil_mono (up _ _))) (by decide)⟩
    · omega
    · rw [if_neg hA, if_neg hB]
      exact ⟨gridLow_mono (expLower_true_anti hm),
        min_le_min_right _ (gridCeil_mono (expUpper_true_anti hm (by omega)))⟩
  · have h1 : (expBounds a).1 ≤ 0x3F800000 ∧ (expBounds a).2 ≤ 0x3F800000 := by
      simp only [expBounds, sa, if_true]
      split
      · decide
      · exact ⟨(gridLow_mono (expLower_true_le_one _)).trans hlow, min_le_right _ _⟩
    have h2 : 0x3F800000 ≤ (expBounds b).1 ∧ 0x3F800000 ≤ (expBounds b).2 := by
      simp only [expBounds, sb, Bool.false_eq_true, if_false]
      split
      · decide
      · have hu := gridCeil_mono (one_le_expUpper_false (ieeeMag b) (by omega))
        refine ⟨le_max_right _ _, ?_⟩
        dsimp only
        exact hone.trans hu
    omega
  · simp only [expBounds, sa, sb, Bool.false_eq_true, if_false]
    by_cases hA : 2 ^ 156 ≤ ieeeMag a <;> by_cases hB : 2 ^ 156 ≤ ieeeMag b
    · rw [if_pos hA, if_pos hB]
      exact ⟨le_rfl, le_rfl⟩
    · omega
    · rw [if_neg hA, if_pos hB]
      dsimp only
      exact ⟨max_le ((gridLow_le_gridFloor _).trans (gridFloor_le _)) (by decide), gridCeil_le _⟩
    · rw [if_neg hA, if_neg hB]
      have hl := gridLow_mono (expLower_false_mono hm)
      have hu := gridCeil_mono (expUpper_false_mono hm (by omega))
      refine ⟨max_le_max_right _ hl, ?_⟩
      dsimp only
      exact hu

/-- The bounds enclose e^v, so they are in order. -/
theorem expLower_le_expUpper (neg : Bool) (mag : Nat) (h : mag < 2 ^ 156) : expLower neg mag ≤ expUpper neg mag := by
  exact_mod_cast (expLower_le neg mag h).trans (le_expUpper neg mag h)

theorem gridLow_le_gridCeil {x y : Nat} (h : x ≤ y) : gridLow x ≤ gridCeil y := by
  refine (gridLow_le_gridFloor x).trans (le_trans ?_ (gridCeil_mono h))
  unfold gridCeil
  split <;> omega

/-- The interval of e^v is not empty. -/
theorem expBounds_le (a : Word) : (expBounds a).1 ≤ (expBounds a).2 := by
  have hlow : gridLow (2 ^ 420) ≤ 0x3F800000 := by decide +kernel
  have hone : 0x3F800000 ≤ gridCeil (2 ^ 420) := by decide +kernel
  unfold expBounds
  by_cases hA : 2 ^ 156 ≤ ieeeMag a
  · rw [if_pos hA]
    split <;> decide
  · rw [if_neg hA]
    have hlu := gridLow_le_gridCeil (expLower_le_expUpper (sign a) (ieeeMag a) (by omega))
    cases hs : sign a <;> simp only [hs, Bool.false_eq_true, if_true, if_false] at hlu ⊢
    · have hu := gridCeil_mono (one_le_expUpper_false (ieeeMag a) (by omega))
      exact max_le hlu (hone.trans hu)
    · have hl := gridLow_mono (expLower_true_le_one (ieeeMag a))
      exact le_min hlu (hl.trans hlow)

/-! ### The bounds of ln v -/

/-- A magnitude that |ln v| reaches is reached at every smaller magnitude. -/
theorem lnReaches_down (certain : Bool) (mag : Nat) {m n : Nat} (h : m ≤ n) (hn : lnReaches certain mag n = true) :
    lnReaches certain mag m = true := by
  unfold lnReaches at hn ⊢
  split at hn
  · exact absurd hn (by decide)
  rename_i h1
  rw [if_neg (by omega)]
  split at hn
  · rename_i h2
    rw [if_pos h2]
    rw [decide_eq_true_eq] at hn ⊢
    refine hn.trans ?_
    cases certain <;> simp only [Bool.false_eq_true, if_false, if_true]
    · exact expUpper_true_anti h (by omega)
    · exact expLower_true_anti h
  · rename_i h2
    rw [if_neg h2]
    rw [decide_eq_true_eq] at hn ⊢
    refine le_trans ?_ hn
    cases certain <;> simp only [Bool.false_eq_true, if_false, if_true]
    · exact expLower_false_mono h
    · exact expUpper_false_mono h (by omega)

/-- From 1.0 on, a greater operand reaches more. -/
theorem lnReaches_mono (certain : Bool) {mag mag' m : Nat} (h1 : 2 ^ 149 ≤ mag) (h : mag ≤ mag')
    (hm : lnReaches certain mag m = true) : lnReaches certain mag' m = true := by
  unfold lnReaches at hm ⊢
  split at hm
  · exact absurd hm (by decide)
  rename_i h2
  rw [if_neg h2, if_neg (by omega)]
  rw [if_neg (by omega), decide_eq_true_eq] at hm
  exact decide_eq_true (hm.trans (Nat.mul_le_mul_right _ h))

/-- Below 1.0, a smaller operand reaches more. -/
theorem lnReaches_anti (certain : Bool) {mag mag' m : Nat} (h1 : mag' < 2 ^ 149) (h : mag ≤ mag')
    (hm : lnReaches certain mag' m = true) : lnReaches certain mag m = true := by
  unfold lnReaches at hm ⊢
  split at hm
  · exact absurd hm (by decide)
  rename_i h2
  rw [if_neg h2, if_pos (by omega)]
  rw [decide_eq_true_eq] at hm
  exact decide_eq_true ((Nat.mul_le_mul_right _ h).trans hm)

/-- What the search over all patterns finds: the greatest pattern that passes, or zero. -/
theorem lnSearch_greatest (certain : Bool) (mag : Nat) :
    lnSearch certain mag 31 0 < 2 ^ 31 ∧
    (lnSearch certain mag 31 0 = 0 ∨
      lnReaches certain mag (ieeeMag (BitVec.ofNat 32 (lnSearch certain mag 31 0))) = true) ∧
    ∀ q, lnSearch certain mag 31 0 < q → q < 2 ^ 31 →
      lnReaches certain mag (ieeeMag (BitVec.ofNat 32 q)) = false := by
  have h := lnSearch_spec certain mag (2 ^ 31)
    (fun p q hpq hq hr => lnReaches_down certain mag (ieeeMag_mono hpq hq) hr) 31 0 (by decide)
  rw [Nat.zero_add] at h
  exact h.2

theorem lnSearch_mono (certain : Bool) {mag mag' : Nat}
    (h : ∀ m, lnReaches certain mag m = true → lnReaches certain mag' m = true) :
    lnSearch certain mag 31 0 ≤ lnSearch certain mag' 31 0 := by
  obtain ⟨hlt, hr, -⟩ := lnSearch_greatest certain mag
  obtain ⟨-, -, hmax⟩ := lnSearch_greatest certain mag'
  by_contra hgt
  have hf := hmax _ (Nat.lt_of_not_le hgt) hlt
  rcases hr with hr | hr
  · omega
  · rw [h _ hr] at hf
    exact absurd hf (by decide)

/-- Where every magnitude that one operand reaches is reached by another, neither end of the interval is lower there. -/
theorem logBounds_mono {mag mag' : Nat}
    (h : ∀ certain m, lnReaches certain mag m = true → lnReaches certain mag' m = true) :
    (logBounds mag).1 ≤ (logBounds mag').1 ∧ (logBounds mag).2 ≤ (logBounds mag').2 := by
  have hl := lnSearch_mono true (h true)
  have hu := lnSearch_mono false (h false)
  refine ⟨?_, Nat.add_le_add_right hu 1⟩
  simp only [logBounds]
  rcases Nat.eq_or_lt_of_le hl with he | hlt
  · rw [← he]
    split
    · rename_i hr
      rw [if_pos (h _ _ hr)]
    · split <;> omega
  · split <;> split <;> omega

end Sys2Proof.Machine
end

