-- ==== Sys2Proof/Laws/State.lean ====
section
/-! SUPPORT. One lemma per field and per update of the state. -/

namespace Sys2Proof.Machine

@[simp] theorem State.writeReg_x (s : State) (i : RegIdx) (v : Word) : (s.writeReg i v).x = s.x.set i v := rfl
@[simp] theorem State.writeReg_pc (s : State) (i : RegIdx) (v : Word) : (s.writeReg i v).pc = s.pc := rfl
@[simp] theorem State.writeReg_out (s : State) (i : RegIdx) (v : Word) : (s.writeReg i v).out = s.out := rfl
@[simp] theorem State.writeReg_fault (s : State) (i : RegIdx) (v : Word) : (s.writeReg i v).fault = s.fault := rfl
@[simp] theorem State.writeReg_program (s : State) (i : RegIdx) (v : Word) :
    (s.writeReg i v).program = s.program := rfl

@[simp] theorem State.appendOut_x (s : State) (v : Word) : (s.appendOut v).x = s.x := rfl
@[simp] theorem State.appendOut_pc (s : State) (v : Word) : (s.appendOut v).pc = s.pc := rfl
@[simp] theorem State.appendOut_out (s : State) (v : Word) : (s.appendOut v).out = s.out ++ [v] := rfl
@[simp] theorem State.appendOut_fault (s : State) (v : Word) : (s.appendOut v).fault = s.fault := rfl
@[simp] theorem State.appendOut_program (s : State) (v : Word) : (s.appendOut v).program = s.program := rfl

@[simp] theorem State.advance_x (s : State) : s.advance.x = s.x := rfl
@[simp] theorem State.advance_pc (s : State) : s.advance.pc = s.pc + 1 := rfl
@[simp] theorem State.advance_out (s : State) : s.advance.out = s.out := rfl
@[simp] theorem State.advance_fault (s : State) : s.advance.fault = s.fault := rfl
@[simp] theorem State.advance_program (s : State) : s.advance.program = s.program := rfl

@[simp] theorem State.raise_x (s : State) (c : FaultCode) : (s.raise c).x = s.x := rfl
@[simp] theorem State.raise_pc (s : State) (c : FaultCode) : (s.raise c).pc = s.pc := rfl
@[simp] theorem State.raise_out (s : State) (c : FaultCode) : (s.raise c).out = s.out := rfl
@[simp] theorem State.raise_fault (s : State) (c : FaultCode) : (s.raise c).fault = some ⟨c, s.pc⟩ := rfl
@[simp] theorem State.raise_program (s : State) (c : FaultCode) : (s.raise c).program = s.program := rfl

@[simp] theorem State.assertReset_x (s : State) : s.assertReset.x = Vector.replicate 16 0 := rfl
@[simp] theorem State.assertReset_pc (s : State) : s.assertReset.pc = 0 := rfl
@[simp] theorem State.assertReset_out (s : State) : s.assertReset.out = [] := rfl
@[simp] theorem State.assertReset_fault (s : State) : s.assertReset.fault = none := rfl
@[simp] theorem State.assertReset_program (s : State) : s.assertReset.program = s.program := rfl

@[simp] theorem State.load_x (p : List Word) : (State.load p).x = Vector.replicate 16 0 := rfl
@[simp] theorem State.load_pc (p : List Word) : (State.load p).pc = 0 := rfl
@[simp] theorem State.load_out (p : List Word) : (State.load p).out = [] := rfl
@[simp] theorem State.load_fault (p : List Word) : (State.load p).fault = none := rfl
@[simp] theorem State.load_program (p : List Word) : (State.load p).program = p := rfl

/-- A read after a write gives the value written at its index and the old value at every other. -/
theorem readReg_writeReg (s : State) (i j : RegIdx) (v : Word) :
    readReg (s.writeReg i v) j = if i = j then v else readReg s j := by
  simp only [readReg, State.writeReg_x, Fin.getElem_fin, Vector.getElem_set, Fin.ext_iff]

@[simp] theorem readReg_writeReg_self (s : State) (i : RegIdx) (v : Word) : readReg (s.writeReg i v) i = v := by
  simp [readReg_writeReg]

theorem readReg_writeReg_ne (s : State) {i j : RegIdx} (v : Word) (h : j ≠ i) :
    readReg (s.writeReg i v) j = readReg s j := by
  simp [readReg_writeReg, h.symm]

@[simp] theorem readReg_advance (s : State) (i : RegIdx) : readReg s.advance i = readReg s i := rfl
@[simp] theorem readReg_appendOut (s : State) (v : Word) (i : RegIdx) : readReg (s.appendOut v) i = readReg s i := rfl
@[simp] theorem readReg_raise (s : State) (c : FaultCode) (i : RegIdx) : readReg (s.raise c) i = readReg s i := rfl

/-- spec/10_state.md R22: no register is hard-wired; two states are equal when every field is. -/
theorem State.ext_fields {s t : State} (hx : s.x = t.x) (hp : s.pc = t.pc) (ho : s.out = t.out)
    (hf : s.fault = t.fault) (hg : s.program = t.program) : s = t := by
  cases s; cases t; simp_all

end Sys2Proof.Machine
end

