-- ==== Sys2Proof/Laws/Ops.lean ====
section
/-! SUPPORT. For each shared operation, once, everything it can do. -/

namespace Sys2Proof.Machine

/-! ### Commit -/

theorem writeBack_eq (rd : RegIdx) (v : Word) (s : State) : writeBack rd v s = .next (s.writeReg rd v).advance := rfl

theorem emit_eq (v : Word) (s : State) : emit v s = .next (s.appendOut v).advance := rfl

/-- The commit of an operation that may raise: the write-back, or the raise and nothing else. -/
theorem writeBackOrRaise_cases (rd : RegIdx) (r : Except FaultCode Word) (s : State) :
    (∃ v, r = .ok v ∧ writeBackOrRaise rd r s = .next (s.writeReg rd v).advance) ∨
    (∃ c, r = .error c ∧ writeBackOrRaise rd r s = .next (s.raise c)) := by
  cases r with
  | ok v => exact .inl ⟨v, rfl, rfl⟩
  | error c => exact .inr ⟨c, rfl, rfl⟩

/-! ### Power -/

/-- An operand B below 2^31 never fails. -/
theorem power_ok_of_lt (a n : Word) (h : n.toNat < 2 ^ 31) : ∃ v, power a n = .ok v := by
  have hb : n.getLsbD 31 = false := by
    simp [BitVec.getLsbD, Nat.testBit_lt_two_pow h]
  unfold power
  simp only [hb, Bool.false_eq_true, if_false]
  split
  · exact ⟨_, rfl⟩
  · exact ⟨_, rfl⟩

/-- spec/30_encoding.md R80: the immediate is below 2^19. -/
theorem immediateB_toNat (i : BitVec 19) : (immediateB i).toNat = i.toNat := by
  have := i.isLt
  simp [immediateB, BitVec.toNat_setWidth]
  omega

/-- spec/42_mul_div_pow.md R202: on the instruction path the error is unreachable. -/
theorem power_immediate_ok (a : Word) (i : BitVec 19) : ∃ v, power a (immediateB i) = .ok v :=
  power_ok_of_lt a _ (by have := i.isLt; rw [immediateB_toNat]; omega)

/-! ### What an instruction can do -/

/-- Everything `exec` can do: append one register and advance, or write one register and advance. -/
theorem exec_cases (i : Instr) (s : State) :
    (∃ rd, i = .get rd ∧ exec i s = .next (s.appendOut (readReg s rd)).advance) ∨
    ((∀ rd, i ≠ .get rd) ∧ ∃ rd v, exec i s = .next (s.writeReg rd v).advance) := by
  cases i with
  | get rd => exact .inl ⟨rd, rfl, rfl⟩
  | pow rd ra imm =>
    obtain ⟨v, hv⟩ := power_immediate_ok (readReg s ra) imm
    exact .inr ⟨nofun, rd, v, by simp [exec, execPow, hv, writeBackOrRaise, writeBack]⟩
  | _ => exact .inr ⟨nofun, _, _, rfl⟩

/-! ### Fetch, decode and step -/

theorem fetch_eq_some_iff (s : State) (w : Word) : fetch s = some w ↔ s.program[s.pc]? = some w := Iff.rfl

theorem fetch_eq_none_iff (s : State) : fetch s = none ↔ s.program.length ≤ s.pc := by
  simp [fetch]

/-- The decoder rejects exactly the words that are not legal. -/
theorem decode_error_iff (w : Word) : (∃ e, decode w = .error e) ↔ Word.legal w = false := by
  have hl : Word.legal w = decide ((decodeFields w).opcode.toNat ≤ 21) := by
    simp [Word.legal, decodeFields, BitVec.le_def]
  unfold decode
  rw [hl]
  generalize decodeFields w = f
  have hlt : f.opcode.toNat < 32 := f.opcode.isLt
  generalize f.opcode.toNat = n at hlt ⊢
  interval_cases n <;> simp [selectInstr]

/-- Everything `step` can do. -/
theorem step_cases (s : State) :
    (∃ r, s.fault = some r ∧ step s = .fault (.halted r)) ∨
    (s.fault = none ∧ s.program.length ≤ s.pc ∧ step s = .fault .runOver) ∨
    (∃ w i, s.fault = none ∧ fetch s = some w ∧ decode w = .ok i ∧ step s = exec i s) ∨
    (∃ w, s.fault = none ∧ fetch s = some w ∧ Word.legal w = false ∧
      step s = .next (s.raise .unknownOpcode)) := by
  rcases hf : s.fault with _ | r
  · rcases hw : fetch s with _ | w
    · exact .inr (.inl ⟨rfl, (fetch_eq_none_iff s).1 hw, by simp [step, hf, hw]⟩)
    · rcases hd : decode w with ⟨op⟩ | i
      · exact .inr (.inr (.inr ⟨w, rfl, rfl, (decode_error_iff w).1 ⟨_, hd⟩, by simp [step, hf, hw, hd]⟩))
      · exact .inr (.inr (.inl ⟨w, i, rfl, rfl, hd, by simp [step, hf, hw, hd]⟩))
  · exact .inl ⟨r, rfl, by simp [step, hf]⟩

end Sys2Proof.Machine
end

