-- ==== Sys2Proof/Laws/PerInstr.lean ====
section
/-! SUPPORT. Facts made per instruction. The family LegalEncoding: the word of an instruction carries its opcode number and is
legal (spec/30_encoding.md R71, R81, R89). -/

namespace Sys2Proof

theorem opcode_of_toNat {w : Word} {op : BitVec 5} {low : Nat} (hw : w.toNat = op.toNat * 2 ^ 27 + low)
    (hlow : low < 2 ^ 27) : w.extractLsb' 27 5 = op := by
  apply BitVec.eq_of_toNat_eq
  have h : (w.extractLsb' 27 5).toNat = w.toNat / 2 ^ 27 := decodeFields_opcode w
  rw [h, hw]
  omega

theorem opcode_encodeSET (op : BitVec 5) (rd : RegIdx) (imm : BitVec 23) :
    (encodeSET op rd imm).extractLsb' 27 5 = op :=
  opcode_of_toNat (low := rd.val * 2 ^ 23 + imm.toNat) (by rw [toNat_encodeSET]; ring)
    (by have := rd.isLt; have := imm.isLt; omega)

theorem opcode_encodeGET (op : BitVec 5) (rd : RegIdx) : (encodeGET op rd).extractLsb' 27 5 = op :=
  opcode_encodeSET op rd 0#23

theorem opcode_encodeRI (op : BitVec 5) (rd ra : RegIdx) (imm : BitVec 19) :
    (encodeRI op rd ra imm).extractLsb' 27 5 = op :=
  opcode_of_toNat (low := (rd.val * 2 ^ 4 + ra.val) * 2 ^ 19 + imm.toNat) (by rw [toNat_encodeRI]; ring)
    (by have := rd.isLt; have := ra.isLt; have := imm.isLt; omega)

theorem opcode_encodeR1 (op : BitVec 5) (rd ra : RegIdx) : (encodeR1 op rd ra).extractLsb' 27 5 = op :=
  opcode_encodeRI op rd ra 0#19

theorem opcode_encodeR2 (op : BitVec 5) (rd ra rb : RegIdx) :
    (encodeR2 op rd ra rb).extractLsb' 27 5 = op :=
  opcode_of_toNat (low := ((rd.val * 2 ^ 4 + ra.val) * 2 ^ 4 + rb.val) * 2 ^ 15) (by rw [toNat_encodeR2]; ring)
    (by have := rd.isLt; have := ra.isLt; have := rb.isLt; omega)

end Sys2Proof

namespace Sys2Proof.Laws.LegalEncoding

def Statement (i : Instr) : Prop := (encode i).extractLsb' 27 5 = i.opcode ∧ Word.legal (encode i) = true

theorem of_opcode {i : Instr} (h : (encode i).extractLsb' 27 5 = i.opcode) (hle : i.opcode ≤ 21) : Statement i :=
  ⟨h, by rw [Word.legal, h]; exact decide_eq_true hle⟩

theorem set (rd : RegIdx) (imm : BitVec 23) : Statement (.set rd imm) := of_opcode (opcode_encodeSET _ _ _) (by simp [Instr.opcode])
theorem get (rd : RegIdx) : Statement (.get rd) := of_opcode (opcode_encodeGET _ _) (by simp [Instr.opcode])
theorem move (rd ra : RegIdx) : Statement (.move rd ra) := of_opcode (opcode_encodeR1 _ _ _) (by simp [Instr.opcode])
theorem fadd (rd ra rb : RegIdx) : Statement (.fadd rd ra rb) := of_opcode (opcode_encodeR2 _ _ _ _) (by simp [Instr.opcode])
theorem fsub (rd ra rb : RegIdx) : Statement (.fsub rd ra rb) := of_opcode (opcode_encodeR2 _ _ _ _) (by simp [Instr.opcode])
theorem fneg (rd ra : RegIdx) : Statement (.fneg rd ra) := of_opcode (opcode_encodeR1 _ _ _) (by simp [Instr.opcode])
theorem fmul (rd ra rb : RegIdx) : Statement (.fmul rd ra rb) := of_opcode (opcode_encodeR2 _ _ _ _) (by simp [Instr.opcode])
theorem fdiv (rd ra rb : RegIdx) : Statement (.fdiv rd ra rb) := of_opcode (opcode_encodeR2 _ _ _ _) (by simp [Instr.opcode])
theorem floor (rd ra : RegIdx) : Statement (.floor rd ra) := of_opcode (opcode_encodeR1 _ _ _) (by simp [Instr.opcode])
theorem ceil (rd ra : RegIdx) : Statement (.ceil rd ra) := of_opcode (opcode_encodeR1 _ _ _) (by simp [Instr.opcode])
theorem round (rd ra : RegIdx) : Statement (.round rd ra) := of_opcode (opcode_encodeR1 _ _ _) (by simp [Instr.opcode])
theorem fabs (rd ra : RegIdx) : Statement (.fabs rd ra) := of_opcode (opcode_encodeR1 _ _ _) (by simp [Instr.opcode])
theorem finv (rd ra : RegIdx) : Statement (.finv rd ra) := of_opcode (opcode_encodeR1 _ _ _) (by simp [Instr.opcode])
theorem min (rd ra rb : RegIdx) : Statement (.min rd ra rb) := of_opcode (opcode_encodeR2 _ _ _ _) (by simp [Instr.opcode])
theorem max (rd ra rb : RegIdx) : Statement (.max rd ra rb) := of_opcode (opcode_encodeR2 _ _ _ _) (by simp [Instr.opcode])
theorem pow (rd ra : RegIdx) (imm : BitVec 19) : Statement (.pow rd ra imm) := of_opcode (opcode_encodeRI _ _ _ _) (by simp [Instr.opcode])
theorem sin (rd ra : RegIdx) : Statement (.sin rd ra) := of_opcode (opcode_encodeR1 _ _ _) (by simp [Instr.opcode])
theorem cos (rd ra : RegIdx) : Statement (.cos rd ra) := of_opcode (opcode_encodeR1 _ _ _) (by simp [Instr.opcode])
theorem tan (rd ra : RegIdx) : Statement (.tan rd ra) := of_opcode (opcode_encodeR1 _ _ _) (by simp [Instr.opcode])
theorem exp (rd ra : RegIdx) : Statement (.exp rd ra) := of_opcode (opcode_encodeR1 _ _ _) (by simp [Instr.opcode])
theorem log (rd ra : RegIdx) : Statement (.log rd ra) := of_opcode (opcode_encodeR1 _ _ _) (by simp [Instr.opcode])
theorem sqrt (rd ra : RegIdx) : Statement (.sqrt rd ra) := of_opcode (opcode_encodeR1 _ _ _) (by simp [Instr.opcode])

end Sys2Proof.Laws.LegalEncoding
end

