-- ==== Sys2Proof/Tests/Slice0.lean ====
section
/-! SUPPORT. Tests: the WellFormed smoke, one word and one result per instruction from the spec's worked examples and vectors
(spec/95_test_vectors.md and the rules named), and for every statement with hypotheses a witness that meets them. -/

namespace Sys2Proof.Tests

open Sys2Proof.Machine

/-! ### Helpers -/

/-- The reset state with a program and some registers set. -/
def st (program : List Word) (regs : List (RegIdx × Word)) : State :=
  regs.foldl (fun s p => s.writeReg p.1 p.2) (State.load program)

/-- The next state of one step, if there is one. -/
def next? (s : State) : Option State :=
  match step s with
  | .next t => some t
  | .fault _ => none
  | .refused _ => none

/-- Register `rd` after one step at the word `w`, started with some registers set. -/
def after (w : Word) (regs : List (RegIdx × Word)) (rd : RegIdx) : Option Word :=
  (next? (st [w] regs)).map fun t => readReg t rd

/-- The instruction of a word. -/
def dec (w : Word) : Option Instr := (decode w).toOption

/-! ### WellFormed smoke: each check refuses an ill-formed term -/

/-- R87: 0xB0000000 is the smallest illegal word, 0xAFFFFFFF the largest legal one (vectors 2.9). -/
theorem test_legal_refuses : Word.legal 0xB0000000 = false ∧ Word.legal 0xFFFFFFFF = false ∧ Word.legal 0xAFFFFFFF = true := by
  decide

/-- R88: an ignored bit that is set. -/
theorem test_canonical_refuses : Word.canonical 0x110FFFFF = false ∧ Word.canonical 0x11080000 = true := by decide

/-- R29: two words do not fit a one-bit index. -/
theorem test_programFits_refuses : programFits 1 [0x08000000, 0x08000000] = false ∧ programFits 1 [0x08000000] = true := by
  decide

/-- R302. -/
theorem test_programLegal_refuses : programLegal [0x08000000, 0xB0000000] = false ∧ programLegal [0x08000000] = true := by
  decide

/-! ### Decoding: the words of the rules' worked examples -/

theorem test_decode_set : dec 0x001E0000 = some (.set 0 0x1E0000) := by decide
theorem test_decode_get : dec 0x09800000 = some (.get 3) := by decide
theorem test_decode_move : dec 0x11080000 = some (.move 2 1) := by decide
theorem test_decode_fadd : dec 0x19890000 = some (.fadd 3 1 2) := by decide
theorem test_decode_fsub : dec 0x21890000 = some (.fsub 3 1 2) := by decide
theorem test_decode_fneg : dec 0x29080000 = some (.fneg 2 1) := by decide
theorem test_decode_fmul : dec 0x31890000 = some (.fmul 3 1 2) := by decide
theorem test_decode_fdiv : dec 0x39890000 = some (.fdiv 3 1 2) := by decide
theorem test_decode_floor : dec 0x41080000 = some (.floor 2 1) := by decide
theorem test_decode_ceil : dec 0x49080000 = some (.ceil 2 1) := by decide
theorem test_decode_round : dec 0x51080000 = some (.round 2 1) := by decide
theorem test_decode_fabs : dec 0x59080000 = some (.fabs 2 1) := by decide
theorem test_decode_finv : dec 0x61080000 = some (.finv 2 1) := by decide
theorem test_decode_min : dec 0x69890000 = some (.min 3 1 2) := by decide
theorem test_decode_max : dec 0x71890000 = some (.max 3 1 2) := by decide
theorem test_decode_pow : dec 0x7908000A = some (.pow 2 1 10) := by decide
theorem test_decode_sin : dec 0x81080000 = some (.sin 2 1) := by decide
theorem test_decode_cos : dec 0x89080000 = some (.cos 2 1) := by decide
theorem test_decode_tan : dec 0x91080000 = some (.tan 2 1) := by decide
theorem test_decode_exp : dec 0x99080000 = some (.exp 2 1) := by decide
theorem test_decode_log : dec 0xA1080000 = some (.log 2 1) := by decide
theorem test_decode_sqrt : dec 0xA9080000 = some (.sqrt 2 1) := by decide

/-- R71, bit by bit: opcode 00011, rd 0011, ra 0001, rb 0010, and the same fields encoded. -/
theorem test_fadd_bits :
    (0b00011#5 ++ 0b0011#4 ++ 0b0001#4 ++ 0b0010#4 ++ 0#15 : Word) = 0x19890000 ∧
      encode (.fadd 3 1 2) = 0x19890000 ∧ encode (.pow 2 1 10) = 0x7908000A ∧ encode (.set 0 0x1E0000) = 0x001E0000 := by
  decide

/-- The host's two hooks. -/
theorem test_hooks : decodeTableWord 32 0x19890000 = some (.fadd 3 1 2) ∧ decodeTableWord 32 0xB0000000 = none ∧
    fetch (State.reset.withFetchWord 32 0x19890000) = some 0x19890000 := by
  decide

/-- R82 to R86 and vector S1: all 32 opcodes at once. -/
theorem test_control_table : ∀ op : BitVec 5,
    ((control op).illegal = decide (22 ≤ op.toNat)) ∧ ((control op).isGet = decide (op.toNat = 1)) ∧
    ((control op).regWrite = decide (op.toNat ≤ 21 ∧ op.toNat ≠ 1)) ∧
    (aluSelector (control op).aluOp = if 2 ≤ op.toNat ∧ op.toNat ≤ 21 then op else 0) ∧
    ((control op).bSrc = if op = 15 then .immediate else .register) ∧
    ((control op).wbSrc = if op = 0 then .codecDecode else .aluResult) := by
  decide

/-! ### One step of each instruction -/

/-- Vectors 2.1: 0.1 truncated. -/
theorem test_set : after 0x00973333 [] 1 = some 0x3DCCCCC0 := by decide
/-- Program P2. -/
theorem test_get : (next? (st [0x08000000] [(0, 0x3F800000)])).map (fun t => (t.out, t.pc)) = some ([0x3F800000], 1) := by
  decide
/-- R115: "bit for bit", the sentinel too. -/
theorem test_move : after 0x11080000 [(1, 0xFFFFFFFF)] 2 = some 0xFFFFFFFF := by decide
/-- Vectors 2.2: a tie, negative, up in magnitude. -/
theorem test_fadd_tie : after 0x19890000 [(1, 0xCB7FFFFF), (2, 0xBF000000)] 3 = some 0xCB800000 := by decide
/-- Vectors 2.2: rounded. -/
theorem test_fadd_rounded : after 0x19890000 [(1, 0x42C80000), (2, 0x3C23D70A)] 3 = some 0x42C8051F := by decide
/-- Vectors 2.2: subtraction with its operands in order. -/
theorem test_fsub : after 0x21890000 [(1, 0x3FC00000), (2, 0x40100000)] 3 = some 0xBF400000 := by decide
theorem test_fneg : after 0x29080000 [(1, 0xFFFFFFFF)] 2 = some 0x7FFFFFFF := by decide
/-- Vectors 2.3: truncation against nearest-even. -/
theorem test_fmul : after 0x31890000 [(1, 0x3F800001), (2, 0x3F7FFFFF)] 3 = some 0x3F800000 := by decide
/-- Vectors 2.3: the implicit 1 of a subnormal. -/
theorem test_fmul_subnormal : after 0x31890000 [(1, 0x00400000), (2, 0x40000000)] 3 = some 0x00C00000 := by decide
/-- Vectors 2.3: the same operands, rounded to nearest. -/
theorem test_fdiv : after 0x39890000 [(1, 0x3F800001), (2, 0x3F7FFFFF)] 3 = some 0x3F800002 := by decide +kernel
/-- Vectors 2.3: a subnormal without the implicit 1. -/
theorem test_fdiv_subnormal : after 0x39890000 [(1, 0x00400000), (2, 0x40000000)] 3 = some 0x00200000 := by decide +kernel
/-- Vector S6. -/
theorem test_floor : after 0x41080000 [(1, 0xBF000000)] 2 = some 0xBF800000 := by decide
/-- Vector S6. -/
theorem test_ceil : after 0x49080000 [(1, 0xBF000000)] 2 = some 0x00000000 := by decide
/-- The worked example of R245. -/
theorem test_round : after 0x51080000 [(1, 0x40300000)] 2 = some 0x40400000 := by decide
theorem test_fabs : after 0x59080000 [(1, 0xFF800000)] 2 = some 0x7F800000 := by decide
theorem test_finv : after 0x61080000 [(1, 0x40000000)] 2 = some 0xC0000000 := by decide
/-- Vector S7. -/
theorem test_min : after 0x69890000 [(1, 0x3F800000), (2, 0x80000000)] 3 = some 0x80000000 := by decide
/-- R225: the sentinel is the least. -/
theorem test_max : after 0x71890000 [(1, 0xFFFFFFFF), (2, 0x3F800000)] 3 = some 0x3F800000 := by decide
/-- Vectors 2.4: 1.1 cubed. -/
theorem test_pow : after 0x79080003 [(1, 0x3F8CCCCD)] 2 = some 0x3FAA5E35 := by decide
/-- Vectors 2.4: the ends of the count. -/
theorem test_pow_zero : after 0x79080000 [(1, 0x40000000)] 2 = some 0x3F800000 ∧
    after 0x79080001 [(1, 0x40000000)] 2 = some 0x40000000 := by decide
/-- The worked example of R263. -/
theorem test_sin : after 0x81080000 [(1, 0x41F00000)] 2 = some 0x3EFFFFFE := by decide +kernel
/-- The worked example of R264. -/
theorem test_cos : after 0x89080000 [(1, 0x42700000)] 2 = some 0x3F000002 := by decide +kernel
/-- The worked example of R265. -/
theorem test_tan : after 0x91080000 [(1, 0x42340000)] 2 = some 0x3F7FFFFD := by decide +kernel
theorem test_exp : after 0x99080000 [(1, 0x00000000)] 2 = some 0x3F800000 := by decide +kernel
/-- R276: the default's e lies in the interval, two patterns wide. -/
theorem test_exp_bounds : expBounds 0x3F800000 = (0x402DF854, 0x402DF855) := by decide +kernel
theorem test_log : after 0xA1080000 [(1, 0x3F800000)] 2 = some 0x00000000 := by decide +kernel
/-- R277: the default's ln 2 lies in the interval, two patterns wide. -/
theorem test_log_bounds : logBounds (ieeeMag 0x40000000) = (0x3F317217, 0x3F317218) := by decide +kernel
/-- R278: the square root of 2, rounded. -/
theorem test_sqrt : after 0xA9080000 [(1, 0x40000000)] 2 = some 0x3FB504F3 := by decide +kernel
/-- R278: the least subnormal, 2^-149, odd exponent. -/
theorem test_sqrt_subnormal : after 0xA9080000 [(1, 0x00000001)] 2 = some 0x1A3504F3 := by decide +kernel

/-- R302, R306: an illegal word raises at its index and changes nothing else. -/
theorem test_unknownOpcode : next? (st [0xB0000000] [(1, 7)]) =
    some { st [0xB0000000] [(1, 7)] with fault := some ⟨.unknownOpcode, 0⟩ } := by decide

/-! ### Witnesses: a state and operands that meet the hypotheses of each statement, clause by clause, at boundary values -/

/-- A program with one word that adds, one that reads and one that raises. -/
def prog : List Word := [0x19890000, 0x09800000, 0xB0000000]

/-- The state at one of its words. -/
def at_ (k : Nat) : State := { st prog [(1, 0x40000000), (2, 0x40400000)] with pc := k }

/-- The fault state its last word leaves. -/
def faulted : State := { at_ 2 with fault := some ⟨.unknownOpcode, 2⟩ }

theorem witness_EncodeOfDecodeClearsIgnoredBits : decode 0x097FFFFF = .ok (.get 2) := by rfl

theorem witness_IgnoredBitsExecuteAsZeros : Word.legal 0x110FFFFF = true ∧
    (0x110FFFFF : Word) &&& Word.usedMask (decodeFields 0x110FFFFF).opcode =
      0x11080000 &&& Word.usedMask (decodeFields 0x110FFFFF).opcode := by decide

theorem witness_WordsFromB0000000 : 22 ≤ bitRange 0xB0000000 31 27 ∧ ¬ 22 ≤ bitRange 0xAFFFFFFF 31 27 := by decide

theorem witness_ExtractField_ranges : extractField 0xFFFFFFFF 26 27 = .error .decodeError ∧
    extractField 0x80000000 31 31 = .ok 1 ∧ extractField 0xAFFFFFFF 31 27 = .ok 21 := ⟨rfl, rfl, rfl⟩

theorem witness_StepRunsTheDecodedInstruction :
    (at_ 0).fault = none ∧ fetch (at_ 0) = some 0x19890000 ∧ decode 0x19890000 = .ok (.fadd 3 1 2) := ⟨rfl, rfl, rfl⟩

theorem witness_StepExistsOnlyInsideTheProgram : CanStep (at_ 2) ∧ faulted.fault = some ⟨.unknownOpcode, 2⟩ ∧
    (at_ 3).fault = none ∧ (at_ 3).program.length ≤ (at_ 3).pc := ⟨⟨rfl, by decide⟩, rfl, rfl, by decide⟩

/-- An addition, a Get and an illegal word: the three kinds of step. -/
theorem witness_step_kinds :
    (∃ t, fetch (at_ 0) = some 0x19890000 ∧ step (at_ 0) = .next t ∧ t.fault = none) ∧
    (∃ t, fetch (at_ 1) = some 0x09800000 ∧ step (at_ 1) = .next t ∧ t.fault = none ∧
      (decodeFields 0x09800000).opcode = 1) ∧
    (∃ t, fetch (at_ 2) = some 0xB0000000 ∧ step (at_ 2) = .next t ∧ t.fault = some ⟨.unknownOpcode, 2⟩ ∧
      22 ≤ (decodeFields 0xB0000000).opcode) :=
  ⟨⟨_, rfl, rfl, rfl⟩, ⟨_, rfl, rfl, rfl, by decide⟩, ⟨_, rfl, rfl, rfl, by decide⟩⟩

theorem witness_FaultEntryChangesOnlyTheFaultStatus : step (at_ 2) = .next faulted ∧
    faulted.fault = some ⟨.unknownOpcode, 2⟩ := ⟨rfl, rfl⟩

theorem witness_OnlyANegativeCountIsUnsupported : (0x80000000 : Word).getLsbD 31 = true ∧
    apply .power 0x40000000 0x80000000 = .error .unsupportedOperation ∧
    apply .power 0x40000000 0x00000002 = .ok 0x40800000 := ⟨by decide, rfl, rfl⟩

theorem witness_ResetIsTheOnlyExitFromAFault : faulted.fault ≠ none := by decide

/-- The invariant holds in a state at the raising word, with one Get behind it, and a step exists. -/
theorem witness_EveryStepKeepsTheRunInvariant :
    RunInv { at_ 2 with out := [0x00000000] } ∧ ∃ t, step { at_ 2 with out := [0x00000000] } = .next t :=
  ⟨⟨by decide, List.all_eq_true.1 (by decide), by decide, nofun⟩, _, rfl⟩

theorem witness_StepsTakenEqualThePc :
    ∃ s, core.run 2 (State.load prog) = .next s ∧ s.fault = none ∧ s.pc = 2 := ⟨_, rfl, rfl, rfl⟩

/-- Both sides of the equivalence occur. -/
theorem witness_LegalProgramsAreTheSafeOnes : programLegal [0x19890000, 0x09800000] = true ∧
    ∃ s, core.run 3 (State.load prog) = .next s ∧ s.fault ≠ none := ⟨by decide, _, rfl, nofun⟩

theorem witness_RunResult : faulted.fault = some ⟨.unknownOpcode, 2⟩ ∧ State.reset.fault = none ∧
    State.reset.pc = State.reset.program.length ∧ State.reset.out = [] ∧
    ({ at_ 3 with out := [0x40A00000] } : State).fault = none ∧ (at_ 3).pc = (at_ 3).program.length := by decide

theorem witness_RegistersDependOnlyOnRegisters : (at_ 0).x = (at_ 3).x ∧ at_ 0 ≠ at_ 3 ∧
    ∃ t, exec (.fadd 3 1 2) (at_ 0) = .next t := ⟨rfl, by decide, _, rfl⟩

theorem witness_CodecRoundTrip : 112 ≤ expf 0x38000001 ∧ expf 0x38000001 ≤ 143 ∧ 112 ≤ expf 0xC7FFFFFF ∧
    expf 0xC7FFFFFF ≤ 143 := by decide

theorem witness_GetAppendsItsRegister : readReg (st [] [(3, 0x40A00000)]) 3 = 0x40A00000 := by decide

/-- The states the worked examples start from exist. -/
theorem witness_RunsTo : readReg (at_ 0) 1 = 0x40000000 ∧ readReg (at_ 0) 2 = 0x40400000 := by decide

theorem witness_FsubAddsTheFlippedOperand : isSpecial 0x3F800000 = false ∧ isZero 0x3F800000 = false := by decide

/-- Special by either operand, zero first, zero second only, and cancelling. -/
theorem witness_AdditionShortcuts : isSpecial 0xFF800000 = true ∧ isSpecial 0xFFFFFFFF = true ∧
    isSpecial 0xFF800001 = false ∧ isZero 0x80000000 = true ∧ isZero 0x00000001 = false ∧
    isSpecial 0x00000001 = false ∧ (0x00000001 : Word) ^^^ 0x80000001 = 0x80000000 ∧ isZero 0x80000001 = false ∧
    isSpecial 0x80000001 = false := by decide

/-- Two ones, and the two largest finite values, whose sum is out of range. -/
theorem witness_AdditionIsTheExactSumRounded :
    isSpecial 0x3F800000 = false ∧ isZero 0x3F800000 = false ∧ (0x3F800000 : Word) ^^^ 0x3F800000 ≠ 0x80000000 ∧
    isSpecial 0x7F7FFFFF = false ∧ isZero 0x7F7FFFFF = false ∧ (0x7F7FFFFF : Word) ^^^ 0x7F7FFFFF ≠ 0x80000000 ∧
    roundExact (bitLevelValue 0x3F800000 + bitLevelValue 0x3F800000) = 0x40000000 ∧
    roundExact (bitLevelValue 0x7F7FFFFF + bitLevelValue 0x7F7FFFFF) = 0xFFFFFFFF := by decide +kernel

theorem witness_AdditionCommutesAndCancels : ¬(isZero 0x00000000 = true ∧ isZero 0x3F800000 = true) ∧
    isSpecial 0x00800000 = false ∧ isZero 0x00800000 = false := by decide

theorem witness_Alignment : 2 ^ 23 < 2 ^ 24 ∧ 0 < 2 ^ 23 ∧ 28 ≤ 28 ∧ align (2 ^ 23) 28 = 1 ∧ align (2 ^ 23) 27 = 1 ∧
    align (2 ^ 23) 26 = 2 := by decide

/-- R181: special, zero, and exponent sums 127, 128, 381 and 382 with no renormalization. -/
theorem witness_MultiplicationTruncates : isSpecial 0x7F800000 = true ∧ isZero 0x80000000 = true ∧
    [0x1F800000, 0x20000000, 0x5F000000, 0x5F800000].all (fun v : Word => !isSpecial v && !isZero v) = true ∧
    sig 0x5F800000 * sig 0x5F800000 < 2 ^ 47 ∧ 2 ^ 47 ≤ sig 0x00FFFFFF * sig 0x00FFFFFF ∧
    expf 0x1F800000 + expf 0x20000000 + 0 < 128 ∧ 128 ≤ expf 0x20000000 + expf 0x20000000 + 0 ∧
    expf 0x5F000000 + expf 0x5F800000 + 0 ≤ 381 ∧ 381 < expf 0x5F800000 + expf 0x5F800000 + 0 := by decide

theorem witness_PowerMultipliesRepeatedly : (0x80000000 : Word).getLsbD 31 = true ∧ (0x7FFFFFFF : Word).getLsbD 31 = false ∧
    1 ≤ 1 ∧ 1 ≤ 2 ^ 31 - 2 ∧ 2 ^ 31 - 2 + 1 < 2 ^ 31 ∧ isZero 0x80000000 = true ∧ isSpecial 0xBF800000 = false := by decide

/-- The rows of R193, each with its classes. -/
theorem witness_DivisionOfSpecialClasses : ieeeClass 0xFFFFFFFF = .nan ∧ ieeeClass 0xFF800000 = .inf ∧
    ieeeClass 0x80000000 = .zero ∧ ieeeClass 0x00000001 = .finite ∧ ieeeClass 0x7F7FFFFF = .finite ∧
    sign 0xFF800000 ≠ sign 0x00000001 := by decide

/-- One third, an overflow and an underflow. -/
theorem witness_DivisionIsCorrectlyRounded : ieeeClass 0x3F800000 = .finite ∧ ieeeClass 0x40400000 = .finite ∧
    ieeeClass (ieeeDiv 0x3F800000 0x40400000) ≠ .inf ∧ expf 0x3EAAAAAA < 255 ∧
    ieeeClass 0x7F7FFFFF = .finite ∧ ieeeClass 0x00000001 = .finite ∧
    ieeeClass (ieeeDiv 0x7F7FFFFF 0x00000001) = .inf ∧ ieeeDiv 0x00000001 0x7F7FFFFF = 0x00000000 := by decide +kernel

theorem witness_SqrtWritesTheRoot : ieeeClass 0x7F800001 = .nan ∧ ieeeClass 0x80000000 = .zero ∧ sign 0xFF800000 = true ∧
    ieeeClass 0xFF800000 ≠ .zero := by decide

/-- A pattern below and one above the root of 2. -/
theorem witness_SquareRootIsCorrectlyRounded : ieeeClass 0x40000000 = .finite ∧ sign 0x40000000 = false ∧
    expf 0x3FB504F2 < 255 ∧ ieeeMag 0x3FB504F2 < ieeeMag (ieeeSqrt 0x40000000) ∧
    ieeeMag (ieeeSqrt 0x40000000) < ieeeMag 0x7F7FFFFF ∧ expf 0x7F7FFFFF < 255 := by decide +kernel

theorem witness_LessIsAStrictTotalOrder : less 0xFFFFFFFF 0x80000000 = true ∧ less 0x80000000 0x00000000 = true ∧
    (0x7FFFFFFE : Word) ≠ 0x7FFFFFFF ∧ (0xFFFFFFFE : Word) ≠ 0xFFFFFFFF := by decide

/-- The exponent fields where the clauses of Floor, Ceil and Round meet. -/
theorem witness_FloorCeilRound : expf 0x3F7FFFFF < 127 ∧ expf 0xBF7FFFFF < 127 ∧ 127 ≤ expf 0x3F800000 ∧
    expf 0x3F800000 < 255 ∧ 150 ≤ expf 0x4B000000 ∧ ¬ 150 ≤ expf 0x4AFFFFFF ∧ expf 0x7F7FFFFF < 255 ∧
    150 ≤ expf 0x7F800000 := by decide

/-- A zero result of a negative operand, and a non-zero one. -/
theorem witness_RoundLooksAtTwoFractionBits : expf 0xBE800000 < 255 ∧ ieeeMag (Machine.round 0xBE800000) = 0 ∧
    expf 0xBF000000 < 255 ∧ ieeeMag (Machine.round 0xBF000000) ≠ 0 := by decide

theorem witness_TanDividesSineByCosine : sine 0xFFFFFFFF = 0xFFFFFFFF := by decide +kernel

theorem witness_CosineIsEven : (0x42700000 : Word) ≠ 0xFFFFFFFF ∧ (0x42700000 : Word) ≠ 0x7FFFFFFF := by decide

theorem witness_ExpAtSpecialOperands : ieeeClass 0x7FFFFFFF = .nan ∧ ieeeClass 0xC3480000 ≠ .nan := by decide

theorem witness_LogAtSpecialOperands : ieeeClass 0x7F800001 = .nan ∧ sign 0x80000001 = true ∧
    ieeeClass 0x80000001 ≠ .zero := by decide

theorem witness_ExpIsMonotone : ieeeClass 0xBF800000 ≠ .nan ∧ ieeeClass 0x7F800000 ≠ .nan ∧
    orderKey 0xBF800000 ≤ orderKey 0x7F800000 := by decide

theorem witness_LogIsMonotone : sign 0x00000000 = false ∧ ieeeClass 0x00000000 ≠ .nan ∧ ieeeClass 0x40000000 ≠ .nan ∧
    orderKey 0x00000000 ≤ orderKey 0x40000000 := by decide

theorem scaled_div (y x n m : Nat) (h : y = x * 2 ^ n) : (y : ℝ) / 2 ^ (n + m) = (x : ℝ) / 2 ^ m := by
  rw [h, pow_add, Nat.cast_mul, Nat.cast_pow, Nat.cast_ofNat, mul_comm (x : ℝ), mul_div_mul_left _ _ (by positivity)]

/-- 1.0, 2.0 and -200.0 as the native unit reads them. -/
theorem ieeeVal_one : ieeeVal 0x3F800000 = 1 := by
  have hm : ieeeMag 0x3F800000 = 2 ^ 149 := by decide +kernel
  rw [ieeeVal, hm, if_neg (by decide)]
  norm_num

theorem ieeeVal_two : ieeeVal 0x40000000 = 2 := by
  have hm : ieeeMag 0x40000000 = 2 ^ 150 := by decide +kernel
  rw [ieeeVal, hm, if_neg (by decide)]
  norm_num

theorem ieeeVal_minus_200 : ieeeVal 0xC3480000 = -200 := by
  have hm : ieeeMag 0xC3480000 = 200 * 2 ^ 149 := by decide +kernel
  rw [ieeeVal, hm, if_pos (by decide)]
  norm_num

theorem ieeeVal_89 : ieeeVal 0x42B20000 = 89 := by
  have hm : ieeeMag 0x42B20000 = 89 * 2 ^ 149 := by decide +kernel
  rw [ieeeVal, hm, if_neg (by decide)]
  norm_num

theorem ulp_ge (x : ℝ) (k : Int) (hx : 0 < x) (h : (2 : ℝ) ^ k ≤ x) : (2 : ℝ) ^ (k - 23) ≤ ulp x := by
  have hl : k ≤ Int.log 2 x := (Int.zpow_le_iff_le_log (by decide) hx).1 (by exact_mod_cast h)
  exact zpow_le_zpow_right₀ (by norm_num) (by omega)

/-- An operand on each side of the overflow: 1.0 and 89.0. -/
theorem witness_Exp_overflow : ieeeClass 0x3F800000 = .finite ∧ Real.exp (ieeeVal 0x3F800000) < 2 ^ 128 ∧
    ieeeClass 0x42B20000 = .finite ∧ 2 ^ 128 ≤ Real.exp (ieeeVal 0x42B20000) := by
  refine ⟨by decide, ?_, by decide, ?_⟩
  · rw [ieeeVal_one]
    norm_num
    linarith [Real.exp_one_lt_d9]
  · rw [ieeeVal_89, show (89 : ℝ) = (89 : ℕ) * 1 by norm_num, Real.exp_nat_mul]
    exact le_trans (by norm_num) (pow_le_pow_left₀ (by norm_num) Real.exp_one_gt_d9.le 89)

/-- A positive operand on each side of 1.0, and the ones next to it. -/
theorem witness_Log_finite : [0x3F000000, 0x3F7FFFFF, 0x3F800001, 0x40000000, 0x00000001, 0x7F7FFFFF].all
    (fun a : Word => decide (ieeeClass a = .finite) && !sign a && a != 0x3F800000) = true := by decide

/-- The operand -200.0 with the result zero: e^-200 is below 2^-149. -/
theorem witness_ExpAdmits_negative : ieeeClass 0xC3480000 = .finite ∧ 0 ≤ 0x7F800000 ∧ sign 0xC3480000 = true ∧
    |patternValue 0 - Real.exp (ieeeVal 0xC3480000)| < ulp (Real.exp (ieeeVal 0xC3480000)) := by
  refine ⟨by decide, by decide, by decide, ?_⟩
  have hg : patternValue 0 = 0 := by
    have h0 : gridValue 0 = 0 := by decide +kernel
    rw [patternValue, h0, Nat.cast_zero, zero_div]
  have hlt : Real.exp (-200) < (2 : ℝ) ^ (-149 : ℤ) := by
    have h1 : (2 : ℝ) ^ 149 < Real.exp 200 := by
      rw [show (200 : ℝ) = (200 : ℕ) * 1 by norm_num, Real.exp_nat_mul]
      exact lt_of_lt_of_le (by norm_num)
        (pow_le_pow_left₀ (by norm_num) (by linarith [Real.exp_one_gt_d9] : (2 : ℝ) ≤ Real.exp 1) 200)
    rw [Real.exp_neg, zpow_neg]
    exact inv_strictAnti₀ (by positivity) (by exact_mod_cast h1)
  rw [ieeeVal_minus_200, hg, zero_sub, abs_neg, abs_of_pos (Real.exp_pos _)]
  exact hlt.trans_le (zpow_le_zpow_right₀ (by norm_num) (by omega))

/-- The operand 1.0 with the default's result. -/
theorem witness_ExpAdmits_positive : ieeeClass 0x3F800000 = .finite ∧ 0x402DF854 ≤ 0x7F800000 ∧
    sign 0x3F800000 = false ∧ 0x3F800000 ≤ 0x402DF854 ∧
    |patternValue 0x402DF854 - Real.exp (ieeeVal 0x3F800000)| < ulp (Real.exp (ieeeVal 0x3F800000)) := by
  refine ⟨by decide, by decide, by decide, by decide, ?_⟩
  have hg : gridValue 0x402DF854 = 0xADF854 * 2 ^ 398 := by decide +kernel
  have hc : patternValue 0x402DF854 = (0xADF854 : ℕ) / 2 ^ 22 := scaled_div _ _ 398 22 hg
  have hu := ulp_ge (Real.exp 1) 1 (Real.exp_pos 1) (by norm_num; linarith [Real.exp_one_gt_d9])
  rw [ieeeVal_one, hc]
  refine lt_of_lt_of_le ?_ hu
  rw [abs_lt]
  constructor <;> norm_num <;> linarith [Real.exp_one_gt_d9, Real.exp_one_lt_d9]

/-- A pattern of an interval, and the lower ends as a monotone choice. -/
theorem witness_ExpAdmits_choice : ieeeClass 0x3F800000 = .finite ∧ (expBounds 0x3F800000).1 ≤ 0x402DF855 ∧
    0x402DF855 ≤ (expBounds 0x3F800000).2 ∧
    (∀ a, ieeeClass a = .finite → (expBounds a).1 ≤ (expBounds a).1 ∧ (expBounds a).1 ≤ (expBounds a).2) ∧
    (∀ a b, ieeeClass a = .finite → ieeeClass b = .finite → orderKey a ≤ orderKey b →
      (expBounds a).1 ≤ (expBounds b).1) := by
  have hb := test_exp_bounds
  refine ⟨by decide, by rw [hb]; decide, by rw [hb], fun a _ => ⟨le_rfl, expBounds_le a⟩, fun a b ha _ h => (expBounds_mono ha h).1⟩

/-- The operand 2.0 with the default's result. -/
theorem witness_LogAdmits : ieeeClass 0x40000000 = .finite ∧ sign 0x40000000 = false ∧ (0x40000000 : Word) ≠ 0x3F800000 ∧
    0x3F317218 ≤ 0x7F800000 ∧
    abs (patternValue 0x3F317218 - |Real.log (ieeeVal 0x40000000)|) < ulp |Real.log (ieeeVal 0x40000000)| := by
  refine ⟨by decide, by decide, by decide, by decide, ?_⟩
  have hg : gridValue 0x3F317218 = 0xB17218 * 2 ^ 396 := by decide +kernel
  have hc : patternValue 0x3F317218 = (0xB17218 : ℕ) / 2 ^ 24 := scaled_div _ _ 396 24 hg
  have hpos : 0 < Real.log 2 := by linarith [Real.log_two_gt_d9]
  have hu := ulp_ge (Real.log 2) (-1) hpos (by norm_num; linarith [Real.log_two_gt_d9])
  rw [ieeeVal_two, hc, abs_of_pos hpos]
  refine lt_of_lt_of_le ?_ hu
  rw [abs_lt]
  constructor <;> norm_num <;> linarith [Real.log_two_gt_d9, Real.log_two_lt_d9]

/-- The lower ends of the intervals of Log, as keys, are a monotone choice. -/
theorem witness_LogAdmits_choice (a b : Word) (ha : ieeeClass a = .finite) (sa : sign a = false)
    (h : orderKey a ≤ orderKey b) :
    (if ieeeMag a < 2 ^ 149 then 2 ^ 31 - (logBounds (ieeeMag a)).2 else 2 ^ 31 + (logBounds (ieeeMag a)).1) ≤
      (if ieeeMag b < 2 ^ 149 then 2 ^ 31 - (logBounds (ieeeMag b)).2 else 2 ^ 31 + (logBounds (ieeeMag b)).1) := by
  rcases orderKey_le_cases ha h with ⟨s, -⟩ | ⟨s, -⟩ | ⟨-, -, hm⟩
  · rw [sa] at s
    exact absurd s (by decide)
  · rw [sa] at s
    exact absurd s (by decide)
  · by_cases hA : ieeeMag a < 2 ^ 149 <;> by_cases hB : ieeeMag b < 2 ^ 149
    · rw [if_pos hA, if_pos hB]
      exact Nat.sub_le_sub_left (logBounds_mono fun c m => lnReaches_anti c hB hm).2 _
    · rw [if_pos hA, if_neg hB]
      exact (Nat.sub_le _ _).trans (Nat.le_add_right _ _)
    · omega
    · rw [if_neg hA, if_neg hB]
      exact Nat.add_le_add_left (logBounds_mono fun c m => lnReaches_mono c (by omega) hm).1 _

end Sys2Proof.Tests
end

section
/-! The step rules: what the decoder hands to `exec`, and everything a step from one state to a next one can do. -/

namespace Sys2Proof

/-- spec/30_encoding.md R74 to R78: every format has the field `rd`. -/
def Instr.rd : Instr → RegIdx
  | .set rd _ | .get rd | .move rd _ | .fadd rd _ _ | .fsub rd _ _ | .fneg rd _ | .fmul rd _ _ | .fdiv rd _ _
  | .floor rd _ | .ceil rd _ | .round rd _ | .fabs rd _ | .finv rd _ | .min rd _ _ | .max rd _ _ | .pow rd _ _
  | .sin rd _ | .cos rd _ | .tan rd _ | .exp rd _ | .log rd _ | .sqrt rd _ => rd

/-! ### The decoder -/

/-- R81: an instruction is selected by its own opcode number and takes its `rd` from the decoder's output. -/
theorem selectInstr_ok {n : Nat} {f : Fields} {i : Instr} (h : selectInstr n f = .ok i) :
    i.opcode.toNat = n ∧ i.rd = f.rd := by
  unfold selectInstr at h
  split at h <;> cases h <;> exact ⟨rfl, rfl⟩

theorem opcode_of_decode {w : Word} {i : Instr} (h : decode w = .ok i) : i.opcode = (decodeFields w).opcode :=
  BitVec.eq_of_toNat_eq (selectInstr_ok h).1

theorem rd_of_decode {w : Word} {i : Instr} (h : decode w = .ok i) : i.rd = (decodeFields w).rd :=
  (selectInstr_ok h).2

theorem Instr.eq_get_of_opcode {i : Instr} (h : i.opcode = 1) : i = .get i.rd := by
  cases i with
  | get rd => rfl
  | _ => exact absurd h (by simp [Instr.opcode])

theorem legal_iff_opcode_le (w : Word) : Word.legal w = true ↔ (decodeFields w).opcode ≤ 21 := decide_eq_true_iff

theorem legal_of_opcode_eq_one {w : Word} (h : (decodeFields w).opcode = 1) : Word.legal w = true := by
  rw [legal_iff_opcode_le, h]
  decide

theorem opcode_ne_one_of_illegal {w : Word} (h : Word.legal w = false) : (decodeFields w).opcode ≠ 1 :=
  fun hop => by simp [legal_of_opcode_eq_one hop] at h

theorem legal_eq_false_iff_le_opcode (w : Word) : Word.legal w = false ↔ 22 ≤ (decodeFields w).opcode := by
  rw [← Bool.not_eq_true, legal_iff_opcode_le]
  bv_omega

theorem legal_of_decode {w : Word} {i : Instr} (h : decode w = .ok i) : Word.legal w = true := by
  by_contra hl
  obtain ⟨e, he⟩ := (Machine.decode_error_iff w).2 (by simpa using hl)
  simp [h] at he

end Sys2Proof

namespace Sys2Proof.Machine

/-! ### An instruction -/

/-- spec/10_state.md R38, no hidden state: a value that the register file alone determines. -/
def FromRegisters (v : State → Word) : Prop := ∀ s s' : State, s.x = s'.x → v s = v s'

theorem exec_of_opcode_eq_one {i : Instr} (h : i.opcode = 1) (s : State) :
    exec i s = .next (s.appendOut (readReg s i.rd)).advance := by
  rw [Instr.eq_get_of_opcode h]
  rfl

/-- Every instruction but Get writes one value into its `rd`, a function of the register file. -/
theorem exec_of_opcode_ne_one {i : Instr} (h : i.opcode ≠ 1) :
    ∃ v, FromRegisters v ∧ ∀ s, exec i s = .next (s.writeReg i.rd (v s)).advance := by
  cases i with
  | get rd => exact absurd rfl h
  | pow rd ra imm =>
    choose v hv using fun a => power_immediate_ok a imm
    refine ⟨fun s => v (readReg s ra), fun s s' hx => by simp [readReg, hx], fun s => ?_⟩
    simp [exec, execPow, hv, writeBackOrRaise, writeBack, Instr.rd]
  | _ => exact ⟨_, fun s s' hx => by simp only [readReg, hx], fun s => rfl⟩

/-! ### A step -/

/-- What a step at the word `w` makes of `s`, by the kind of the word: Get, any other instruction, no instruction. -/
inductive StepEffect (s : State) (w : Word) : State → Prop
  | get (hop : (decodeFields w).opcode = 1) :
    StepEffect s w (s.appendOut (readReg s (decodeFields w).rd)).advance
  | write (v : Word) (hop : (decodeFields w).opcode ≠ 1) (hlegal : Word.legal w = true) :
    StepEffect s w (s.writeReg (decodeFields w).rd v).advance
  | raise (hillegal : Word.legal w = false) : StepEffect s w (s.raise .unknownOpcode)

theorem stepEffect_of_decode {s t : State} {w : Word} {i : Instr} (hd : decode w = .ok i)
    (h : exec i s = .next t) : StepEffect s w t := by
  by_cases hop : i.opcode = 1
  · rw [exec_of_opcode_eq_one hop, rd_of_decode hd] at h
    cases h
    exact .get (opcode_of_decode hd ▸ hop)
  · obtain ⟨v, -, hv⟩ := exec_of_opcode_ne_one hop
    rw [hv, rd_of_decode hd] at h
    cases h
    exact .write _ (opcode_of_decode hd ▸ hop) (legal_of_decode hd)

/-- R111: a step to a next state starts without a fault, at a word of PROGRAM, and has that word's effect. -/
theorem stepEffect_of_step {s t : State} (h : step s = .next t) :
    s.fault = none ∧ ∃ w, fetch s = some w ∧ StepEffect s w t := by
  rcases step_cases s with ⟨r, -, hs⟩ | ⟨-, -, hs⟩ | ⟨w, i, hf, hw, hd, hs⟩ | ⟨w, hf, hw, hl, hs⟩
  · simp [hs] at h
  · simp [hs] at h
  · exact ⟨hf, w, hw, stepEffect_of_decode hd (hs ▸ h)⟩
  · rw [hs] at h
    cases h
    exact ⟨hf, w, hw, .raise hl⟩

theorem stepEffect_of_fetch {s t : State} {w : Word} (hw : fetch s = some w) (h : step s = .next t) :
    StepEffect s w t := by
  obtain ⟨-, w', hw', he⟩ := stepEffect_of_step h
  cases hw.symm.trans hw'
  exact he

/-- No step is refused: every instruction has its meaning. -/
theorem step_fault_or_next (s : State) : (∃ r, step s = .fault r) ∨ ∃ t, step s = .next t := by
  rcases step_cases s with ⟨r, -, hs⟩ | ⟨-, -, hs⟩ | ⟨w, i, -, -, -, hs⟩ | ⟨w, -, -, -, hs⟩
  · exact .inl ⟨_, hs⟩
  · exact .inl ⟨_, hs⟩
  · rcases exec_cases i s with ⟨rd, -, he⟩ | ⟨-, rd, v, he⟩
    · exact .inr ⟨_, hs.trans he⟩
    · exact .inr ⟨_, hs.trans he⟩
  · exact .inr ⟨_, hs⟩

theorem pc_lt_of_fetch {s : State} {w : Word} (hw : fetch s = some w) : s.pc < s.program.length :=
  (List.getElem?_eq_some_iff.1 hw).1

/-! ### A run -/

theorem run_succ_of_fault {s : State} {r : Fault} (k : Nat) (h : step s = .fault r) :
    core.run (k + 1) s = .fault r := by
  have hc : core.step s = .fault r := h
  simp only [Host.Core.run, hc]

theorem run_succ_of_next {s t : State} (k : Nat) (h : step s = .next t) : core.run (k + 1) s = core.run k t := by
  have hc : core.step s = .next t := h
  simp only [Host.Core.run, hc]

end Sys2Proof.Machine
end

section
/-! The invariant of a run (spec/10_state.md R31, R32, spec/60_exceptions.md R302, R306, R309). -/

namespace Sys2Proof.Machine

theorem take_succ_of_fetch {s : State} {w : Word} (hw : fetch s = some w) :
    s.program.take (s.pc + 1) = s.program.take s.pc ++ [w] := by
  rw [List.take_add_one, (fetch_eq_some_iff s w).1 hw, Option.toList_some]

theorem getCount_append_singleton (p : List Word) (w : Word) :
    getCount (p ++ [w]) = getCount p + if (decodeFields w).opcode = 1 then 1 else 0 := by
  simp [getCount, List.countP_singleton]

/-- The index past a legal word, with the output longer by one exactly if the word is a Get. -/
theorem RunInv.of_completed {s t : State} {w : Word} (hs : RunInv s) (hw : fetch s = some w)
    (hlegal : Word.legal w = true) (hpc : t.pc = s.pc + 1) (hprog : t.program = s.program) (hfault : t.fault = none)
    (hout : t.out.length = s.out.length + if (decodeFields w).opcode = 1 then 1 else 0) : RunInv t where
  pc_le := by
    rw [hpc, hprog]
    exact pc_lt_of_fetch hw
  legal_before := by
    rw [hpc, hprog, take_succ_of_fetch hw, List.forall_mem_append]
    exact ⟨hs.legal_before, by simpa using hlegal⟩
  out_count := by
    rw [hpc, hprog, take_succ_of_fetch hw, getCount_append_singleton, hout, hs.out_count]
  fault_here := by simp [hfault]

/-- R306: the entry into the fault state at an illegal word. -/
theorem RunInv.of_raise {s : State} {w : Word} (hs : RunInv s) (hw : fetch s = some w)
    (hillegal : Word.legal w = false) : RunInv (s.raise .unknownOpcode) where
  pc_le := hs.pc_le
  legal_before := hs.legal_before
  out_count := hs.out_count
  fault_here := by
    rintro r ⟨⟩
    exact ⟨rfl, rfl, w, hw, hillegal⟩

/-- Settles O17: by the three effects a step can have. -/
theorem everyStepKeepsTheRunInvariant : Obligations.EveryStepKeepsTheRunInvariant := by
  intro s t hs h
  obtain ⟨hf, w, hw, he⟩ := stepEffect_of_step h
  cases he with
  | get hop => exact hs.of_completed hw (legal_of_opcode_eq_one hop) rfl rfl hf (by simp [hop])
  | write v hop hlegal => exact hs.of_completed hw hlegal rfl rfl hf (by rw [if_neg hop]; rfl)
  | raise hillegal => exact hs.of_raise hw hillegal

theorem runInv_load (p : List Word) : RunInv (State.load p) where
  pc_le := Nat.zero_le _
  legal_before := by simp
  out_count := by simp [getCount]
  fault_here := by simp

/-- Settles O18: reset is the load of the empty program. -/
theorem theRunInvariantHoldsAtReset : Obligations.TheRunInvariantHoldsAtReset :=
  ⟨runInv_load [], runInv_load⟩

end Sys2Proof.Machine
end

section
/-! What a step changes and what it keeps (spec/10_state.md R24, R30, R32, R38, spec/60_exceptions.md R306). -/

namespace Sys2Proof.Machine

/-- Settles O10: Get and the other instructions advance without touching the fault status, a raise does the reverse. -/
theorem pcAdvancesByOneOrStaysAtTheFault : Obligations.PcAdvancesByOneOrStaysAtTheFault := by
  intro s t h
  obtain ⟨hf, w, -, he⟩ := stepEffect_of_step h
  cases he with
  | get _ => simp [hf]
  | write v _ _ => simp [hf]
  | raise _ => simp

/-- Settles O11: only the effect of Get reaches the output. -/
theorem onlyGetAppendsToTheOutput : Obligations.OnlyGetAppendsToTheOutput := by
  intro s t w hw h
  cases stepEffect_of_fetch hw h with
  | get hop => simp [hop]
  | write v hop _ => exact (if_neg hop).symm
  | raise hillegal => exact (if_neg (opcode_ne_one_of_illegal hillegal)).symm

/-- Settles O12: the one effect that reaches the register file is the write to `rd`, and its word is neither a Get nor
illegal. -/
theorem onlyTheDestinationRegisterChanges : Obligations.OnlyTheDestinationRegisterChanges := by
  intro s t w hw h
  cases stepEffect_of_fetch hw h with
  | get _ => simp
  | raise _ => simp
  | write v hop hlegal =>
    refine ⟨fun r hr => by simp [readReg_writeReg_ne _ _ hr], ?_, rfl⟩
    rintro (hget | hge)
    · exact absurd hget hop
    · simp [(legal_eq_false_iff_le_opcode w).2 hge] at hlegal

/-- Settles O23: Get keeps the register file, and any other instruction writes a value that the register file determines. -/
theorem registersDependOnlyOnRegisters : Obligations.RegistersDependOnlyOnRegisters := by
  intro i s s' t hx h
  by_cases hop : i.opcode = 1
  · rw [exec_of_opcode_eq_one hop] at h
    cases h
    exact ⟨_, exec_of_opcode_eq_one hop s', by simp [hx]⟩
  · obtain ⟨v, hv, hexec⟩ := exec_of_opcode_ne_one hop
    rw [hexec] at h
    cases h
    exact ⟨_, hexec s', by simp [hx, hv s s' hx]⟩

end Sys2Proof.Machine
end

section
/-! Reset, the end of a run, and its result (spec/10_state.md R31, R33, R40). -/

namespace Sys2Proof.Machine

/-- How many steps a run from a state can still take: none from the fault state, otherwise one per word left. -/
def stepsLeft (s : State) : Nat := if s.fault = none then s.program.length - s.pc else 0

theorem stepsLeft_le (s : State) : stepsLeft s ≤ s.program.length - s.pc := by
  unfold stepsLeft
  split
  · exact le_rfl
  · exact Nat.zero_le _

theorem stepsLeft_lt_of_step {s t : State} (h : step s = .next t) : stepsLeft t < stepsLeft s := by
  obtain ⟨hf, w, hw, he⟩ := stepEffect_of_step h
  have hlt := pc_lt_of_fetch hw
  cases he with
  | get _ => simp [stepsLeft, hf]; omega
  | write v _ _ => simp [stepsLeft, hf]; omega
  | raise _ => simp [stepsLeft, hf]; omega

/-- One step more than are left finds no step to take. -/
theorem run_faults_of_stepsLeft_le : ∀ (n : Nat) (s : State), stepsLeft s ≤ n → ∃ r, core.run (n + 1) s = .fault r := by
  intro n
  induction n with
  | zero =>
    intro s hs
    rcases step_fault_or_next s with ⟨r, hr⟩ | ⟨t, ht⟩
    · exact ⟨r, run_succ_of_fault _ hr⟩
    · have := stepsLeft_lt_of_step ht
      omega
  | succ n ih =>
    intro s hs
    rcases step_fault_or_next s with ⟨r, hr⟩ | ⟨t, ht⟩
    · exact ⟨r, run_succ_of_fault _ hr⟩
    · rw [run_succ_of_next _ ht]
      have := stepsLeft_lt_of_step ht
      exact ih t (by omega)

/-- Settles O19: every step uses up one of the steps left. -/
theorem everyRunEndsWithinItsProgram : Obligations.EveryRunEndsWithinItsProgram :=
  fun s => run_faults_of_stepsLeft_le _ s (stepsLeft_le s)

/-- Settles O15: reset replicates the zero word into every register. -/
theorem resetClearsTheState : Obligations.ResetClearsTheState :=
  ⟨fun i => by simp [readReg, State.reset], rfl, rfl, rfl⟩

/-! ### The run result (R33) -/

theorem runResult_of_fault {s : State} {r : FaultRecord} (h : s.fault = some r) : runResult s = .faulted r := by
  simp [runResult, h]

theorem runResult_at_end {s : State} (hf : s.fault = none) (hpc : s.pc = s.program.length) :
    runResult s = if s.out = [] then .values s.x.toList else .values s.out := by
  simp [runResult, hf, hpc]

theorem toList_x_eq_ofFn_readReg (s : State) : s.x.toList = List.ofFn fun i : Fin 16 => readReg s i :=
  List.ext_getElem (by simp) fun i _ _ => by
    rw [List.getElem_ofFn, Vector.getElem_toList]
    rfl

/-- Settles O22: by what `runResult` gives in the fault state and at the end of PROGRAM. -/
theorem runResultIsOutputOrRegistersOrFault : Obligations.RunResultIsOutputOrRegistersOrFault := by
  intro s
  refine ⟨fun r => runResult_of_fault, fun hf hpc => ⟨fun hout => ?_, fun hout => ?_⟩, fun code => ?_⟩
  · rw [runResult_at_end hf hpc, if_neg hout]
  · rw [runResult_at_end hf hpc, if_pos hout, toList_x_eq_ofFn_readReg]
  · exact ⟨runResult_of_fault rfl, rfl, rfl⟩

end Sys2Proof.Machine
end

section
/-! The decoder's bit ranges and its outputs (spec/30_encoding.md R72, R79, R87). -/

namespace Sys2Proof

/-! ### The bit range primitive (R72) -/

theorem bitRange_eq_toNat_extractLsb' (w : Word) (left right : Nat) :
    bitRange w left right = (w.extractLsb' right (left - right + 1)).toNat :=
  (BitVec.extractLsb'_toNat ..).symm

theorem bitRange_lt (w : Word) (left right : Nat) : bitRange w left right < 2 ^ (left - right + 1) :=
  Nat.mod_lt _ (Nat.two_pow_pos _)

/-- Bit `k` of the value is bit `right + k` of the word. -/
theorem testBit_bitRange (w : Word) {left right k : Nat} (hk : k ≤ left - right) :
    (bitRange w left right).testBit k = w.getLsbD (right + k) := by
  rw [bitRange_eq_toNat_extractLsb', BitVec.testBit_toNat, BitVec.getLsbD_extractLsb',
    decide_eq_true (Nat.lt_succ_of_le hk), Bool.true_and]

theorem bitRange_opcode (w : Word) : bitRange w 31 27 = (decodeFields w).opcode.toNat :=
  bitRange_eq_toNat_extractLsb' w 31 27

namespace Machine

theorem extractField_of_lt (w : Word) {left right : Nat} (h : left < right) :
    extractField w left right = .error .decodeError :=
  if_pos h

theorem extractField_of_le (w : Word) {left right : Nat} (h : right ≤ left) :
    extractField w left right = .ok (bitRange w left right) :=
  if_neg (Nat.not_lt.2 h)

/-- A range as wide as a field of the decoder reads that field. -/
theorem extractField_eq_toNat_extractLsb' (w : Word) {left right : Nat} (h : right ≤ left) :
    extractField w left right = .ok (w.extractLsb' right (left - right + 1)).toNat := by
  rw [extractField_of_le w h, bitRange_eq_toNat_extractLsb']

/-- Settles O6: `extractField` is `bitRange` off the inverted ranges, and each output of the decoder is a bit range. -/
theorem extractFieldReadsTheBitRange : Obligations.ExtractFieldReadsTheBitRange := by
  refine ⟨fun w _ _ h => extractField_of_lt w h, fun w left right h => ?_, fun w => ?_⟩
  · exact ⟨_, extractField_of_le w h, bitRange_lt w left right, fun k hk => testBit_bitRange w hk⟩
  · have read {left right : Nat} (h : right ≤ left) := extractField_eq_toNat_extractLsb' w h
    exact ⟨read (by decide), read (by decide), read (by decide), read (by decide), read (by decide),
      read (by decide)⟩

end Machine

end Sys2Proof
end

section
/-! The step at a word placed where it fetches, and the words that select no instruction (spec/30_encoding.md R87). -/

namespace Sys2Proof.Machine

@[simp] theorem placeFetchWord_fault (s : State) (w : Word) : (placeFetchWord s w).fault = none := rfl

@[simp] theorem fetch_placeFetchWord (s : State) (w : Word) : fetch (placeFetchWord s w) = some w := by
  have hlen : (s.program.take s.pc ++ List.replicate (s.pc - s.program.length) 0).length = s.pc := by
    simp only [List.length_append, List.length_take, List.length_replicate]
    omega
  rw [fetch_eq_some_iff, placeFetchWord, List.getElem?_append_right hlen.le, hlen, Nat.sub_self]
  rfl

theorem step_placeFetchWord_of_decode {w : Word} {i : Instr} (h : decode w = .ok i) (s : State) :
    step (placeFetchWord s w) = exec i (placeFetchWord s w) := by
  simp [step, h]

theorem step_placeFetchWord_of_illegal {w : Word} (h : Word.legal w = false) (s : State) :
    step (placeFetchWord s w) = .next ((placeFetchWord s w).raise .unknownOpcode) := by
  obtain ⟨⟨op⟩, he⟩ := (decode_error_iff w).2 h
  simp [step, he]

/-- R87: the opcode is the top five bits, so the bound on the field is a bound on the word. -/
theorem le_opcode_toNat_iff (w : Word) (n : Nat) : n ≤ (decodeFields w).opcode.toNat ↔ n * 2 ^ 27 ≤ w.toNat := by
  rw [decodeFields_opcode]
  exact Nat.le_div_iff_mul_le (by decide)

theorem illegal_iff_le_bitRange (w : Word) : Word.legal w = false ↔ 22 ≤ bitRange w 31 27 := by
  rw [legal_eq_false_iff_le_opcode, bitRange_opcode]
  exact BitVec.le_def

/-- Settles O5: the words with opcode 22 or more are the ones that are not legal. -/
theorem wordsFromB0000000RaiseUnknownOpcode : Obligations.WordsFromB0000000RaiseUnknownOpcode := by
  refine fun w => ⟨?_, fun h => ⟨fun i hi => ?_, ?_⟩⟩
  · rw [bitRange_opcode]
    exact le_opcode_toNat_iff w 22
  · exact Bool.false_ne_true (((illegal_iff_le_bitRange w).2 h).symm.trans (legal_of_decode hi))
  · exact step_placeFetchWord_of_illegal ((illegal_iff_le_bitRange w).2 h)

end Sys2Proof.Machine
end

section
/-! The encoder and the decoder against each other (spec/30_encoding.md R71, R74 to R78, R81). -/

namespace Sys2Proof

/-! ### The fields of an encoded word, per format -/

theorem rd_encodeSET (op : BitVec 5) (rd : RegIdx) (imm : BitVec 23) :
    (decodeFields (encodeSET op rd imm)).rd = rd := by
  ext
  have := rd.isLt; have := imm.isLt
  rw [decodeFields_rd, toNat_encodeSET]
  omega

theorem imm23_encodeSET (op : BitVec 5) (rd : RegIdx) (imm : BitVec 23) :
    (decodeFields (encodeSET op rd imm)).imm23 = imm := by
  apply BitVec.eq_of_toNat_eq
  have := imm.isLt
  rw [decodeFields_imm23, toNat_encodeSET]
  omega

theorem rd_encodeRI (op : BitVec 5) (rd ra : RegIdx) (imm : BitVec 19) :
    (decodeFields (encodeRI op rd ra imm)).rd = rd := by
  ext
  have := rd.isLt; have := ra.isLt; have := imm.isLt
  rw [decodeFields_rd, toNat_encodeRI]
  omega

theorem ra_encodeRI (op : BitVec 5) (rd ra : RegIdx) (imm : BitVec 19) :
    (decodeFields (encodeRI op rd ra imm)).ra = ra := by
  ext
  have := ra.isLt; have := imm.isLt
  rw [decodeFields_ra, toNat_encodeRI]
  omega

theorem imm19_encodeRI (op : BitVec 5) (rd ra : RegIdx) (imm : BitVec 19) :
    (decodeFields (encodeRI op rd ra imm)).imm19 = imm := by
  apply BitVec.eq_of_toNat_eq
  have := imm.isLt
  rw [decodeFields_imm19, toNat_encodeRI]
  omega

theorem encodeR2_eq_encodeRI (op : BitVec 5) (rd ra rb : RegIdx) :
    encodeR2 op rd ra rb = encodeRI op rd ra (regField rb ++ 0#15) := by
  apply BitVec.eq_of_toNat_eq
  simp only [toNat_encodeR2, toNat_encodeRI, toNat_append_eq, toNat_regField, BitVec.toNat_ofNat, Nat.zero_mod]
  ring

theorem rb_encodeR2 (op : BitVec 5) (rd ra rb : RegIdx) : (decodeFields (encodeR2 op rd ra rb)).rb = rb := by
  ext
  have := rb.isLt
  rw [decodeFields_rb, toNat_encodeR2]
  omega

/-! ### Decoding an encoded word, per format: the constructor is the one the opcode selects -/

theorem decode_of_opcode {w : Word} {op : BitVec 5} (h : w.extractLsb' 27 5 = op) :
    decode w = selectInstr op.toNat (decodeFields w) := by
  subst h; rfl

theorem decode_encodeSET {op : BitVec 5} {c : RegIdx → BitVec 23 → Instr}
    (hc : ∀ f, selectInstr op.toNat f = .ok (c f.rd f.imm23)) (rd : RegIdx) (imm : BitVec 23) :
    decode (encodeSET op rd imm) = .ok (c rd imm) := by
  rw [decode_of_opcode (opcode_encodeSET op rd imm), hc, rd_encodeSET, imm23_encodeSET]

theorem decode_encodeGET {op : BitVec 5} {c : RegIdx → Instr} (hc : ∀ f, selectInstr op.toNat f = .ok (c f.rd))
    (rd : RegIdx) : decode (encodeGET op rd) = .ok (c rd) :=
  decode_encodeSET (c := fun rd _ => c rd) hc rd 0#23

theorem decode_encodeRI {op : BitVec 5} {c : RegIdx → RegIdx → BitVec 19 → Instr}
    (hc : ∀ f, selectInstr op.toNat f = .ok (c f.rd f.ra f.imm19)) (rd ra : RegIdx) (imm : BitVec 19) :
    decode (encodeRI op rd ra imm) = .ok (c rd ra imm) := by
  rw [decode_of_opcode (opcode_encodeRI op rd ra imm), hc, rd_encodeRI, ra_encodeRI, imm19_encodeRI]

theorem decode_encodeR1 {op : BitVec 5} {c : RegIdx → RegIdx → Instr}
    (hc : ∀ f, selectInstr op.toNat f = .ok (c f.rd f.ra)) (rd ra : RegIdx) :
    decode (encodeR1 op rd ra) = .ok (c rd ra) :=
  decode_encodeRI (c := fun rd ra _ => c rd ra) hc rd ra 0#19

theorem decode_encodeR2 {op : BitVec 5} {c : RegIdx → RegIdx → RegIdx → Instr}
    (hc : ∀ f, selectInstr op.toNat f = .ok (c f.rd f.ra f.rb)) (rd ra rb : RegIdx) :
    decode (encodeR2 op rd ra rb) = .ok (c rd ra rb) := by
  rw [decode_of_opcode (opcode_encodeR2 op rd ra rb), hc, rb_encodeR2, encodeR2_eq_encodeRI, rd_encodeRI, ra_encodeRI]

/-- Settles O1: the decoder evaluates on each fixed word. -/
theorem decodesTheSampleWords : Obligations.DecodesTheSampleWords :=
  ⟨rfl, rfl, rfl, rfl, rfl, rfl, rfl, rfl, rfl, rfl, rfl⟩

/-- Settles O2: each instruction is its format's constructor, with the number that selects it. -/
theorem decodeOfEncodeIsTheInstruction : Obligations.DecodeOfEncodeIsTheInstruction := by
  intro i
  cases i with
  | set rd imm => exact decode_encodeSET (fun _ => rfl) rd imm
  | get rd => exact decode_encodeGET (fun _ => rfl) rd
  | pow rd ra imm => exact decode_encodeRI (fun _ => rfl) rd ra imm
  | fadd rd ra rb | fsub rd ra rb | fmul rd ra rb | fdiv rd ra rb | min rd ra rb | max rd ra rb =>
    exact decode_encodeR2 (fun _ => rfl) rd ra rb
  | _ rd ra => exact decode_encodeR1 (fun _ => rfl) rd ra

theorem encode_injective : Function.Injective encode := fun i j h => by
  have hok : Except.ok i = Except.ok j := calc
    .ok i = decode (encode i) := (decodeOfEncodeIsTheInstruction i).symm
    _ = decode (encode j) := by rw [h]
    _ = .ok j := decodeOfEncodeIsTheInstruction j
  exact Except.ok.inj hok

end Sys2Proof
end

section
/-! The bits a format ignores (spec/30_encoding.md R88). -/

namespace Sys2Proof

/-! ### Encoding the decoder's outputs, per format: the word with its ignored low bits cleared -/

theorem toNat_and_allOnes_shiftLeft (w : Word) (k : Nat) :
    (w &&& BitVec.allOnes 32 <<< k).toNat = w.toNat / 2 ^ k * 2 ^ k := by
  rw [← BitVec.shiftLeft_ushiftRight, BitVec.toNat_shiftLeft, BitVec.toNat_ushiftRight,
    Nat.shiftRight_eq_div_pow, Nat.shiftLeft_eq, Nat.mod_eq_of_lt]
  exact (Nat.div_mul_le_self _ _).trans_lt w.isLt

theorem encodeSET_decodeFields {w : Word} {op : BitVec 5} (hop : op = (decodeFields w).opcode) :
    encodeSET op (decodeFields w).rd (decodeFields w).imm23 = w &&& BitVec.allOnes 32 := by
  apply BitVec.eq_of_toNat_eq
  rw [hop, toNat_encodeSET, BitVec.and_allOnes, decodeFields_opcode, decodeFields_rd, decodeFields_imm23]
  omega

theorem encodeGET_decodeFields {w : Word} {op : BitVec 5} (hop : op = (decodeFields w).opcode) :
    encodeGET op (decodeFields w).rd = w &&& BitVec.allOnes 32 <<< 23 := by
  apply BitVec.eq_of_toNat_eq
  rw [hop, toNat_encodeGET, toNat_and_allOnes_shiftLeft, decodeFields_opcode, decodeFields_rd]
  omega

theorem encodeR1_decodeFields {w : Word} {op : BitVec 5} (hop : op = (decodeFields w).opcode) :
    encodeR1 op (decodeFields w).rd (decodeFields w).ra = w &&& BitVec.allOnes 32 <<< 19 := by
  apply BitVec.eq_of_toNat_eq
  rw [hop, toNat_encodeR1, toNat_and_allOnes_shiftLeft, decodeFields_opcode, decodeFields_rd, decodeFields_ra]
  omega

theorem encodeR2_decodeFields {w : Word} {op : BitVec 5} (hop : op = (decodeFields w).opcode) :
    encodeR2 op (decodeFields w).rd (decodeFields w).ra (decodeFields w).rb = w &&& BitVec.allOnes 32 <<< 15 := by
  apply BitVec.eq_of_toNat_eq
  rw [hop, toNat_encodeR2, toNat_and_allOnes_shiftLeft, decodeFields_opcode, decodeFields_rd, decodeFields_ra,
    decodeFields_rb]
  omega

theorem encodeRI_decodeFields {w : Word} {op : BitVec 5} (hop : op = (decodeFields w).opcode) :
    encodeRI op (decodeFields w).rd (decodeFields w).ra (decodeFields w).imm19 = w &&& BitVec.allOnes 32 := by
  apply BitVec.eq_of_toNat_eq
  rw [hop, toNat_encodeRI, BitVec.and_allOnes, decodeFields_opcode, decodeFields_rd, decodeFields_ra,
    decodeFields_imm19]
  omega

/-- Settles O3: the operands of the decoded instruction are the decoder's outputs, so its format's lemma applies. -/
theorem encodeOfDecodeClearsIgnoredBits : Obligations.EncodeOfDecodeClearsIgnoredBits := by
  intro w i h
  have hop : i.opcode = (decodeFields w).opcode := opcode_of_decode h
  rw [decode, ← hop] at h
  rw [← hop]
  cases i with
  | set => cases h; exact encodeSET_decodeFields hop
  | get => cases h; exact encodeGET_decodeFields hop
  | pow => cases h; exact encodeRI_decodeFields hop
  | fadd | fsub | fmul | fdiv | min | max => cases h; exact encodeR2_decodeFields hop
  | _ => cases h; exact encodeR1_decodeFields hop

/-! ### Words that agree on the used bits -/

/-- Every format uses the opcode field. -/
theorem opcode_and_usedMask (w : Word) (op : BitVec 5) :
    (decodeFields (w &&& Word.usedMask op)).opcode = (decodeFields w).opcode := by
  have hmask : (Word.usedMask op).extractLsb' 27 5 = BitVec.allOnes 5 := by decide +revert
  simp only [decodeFields, BitVec.extractLsb'_and, hmask, BitVec.and_allOnes]

theorem exists_decode_of_legal {w : Word} (h : Word.legal w = true) : ∃ i, decode w = .ok i := by
  cases hd : decode w with
  | ok i => exact ⟨i, rfl⟩
  | error e => simp [(Machine.decode_error_iff w).1 ⟨e, hd⟩] at h

/-- Words of one opcode that agree on the bits it uses decode to instructions with the same word, so to the same one. -/
theorem decode_eq_of_and_usedMask_eq {w w' : Word} {i : Instr} (hd : decode w = .ok i)
    (h : w &&& Word.usedMask (decodeFields w).opcode = w' &&& Word.usedMask (decodeFields w).opcode) :
    decode w' = .ok i := by
  have hop : (decodeFields w').opcode = (decodeFields w).opcode := by
    rw [← opcode_and_usedMask w', ← h, opcode_and_usedMask]
  have hlegal : Word.legal w' = true := by
    rw [legal_iff_opcode_le, hop, ← legal_iff_opcode_le]
    exact legal_of_decode hd
  obtain ⟨j, hj⟩ := exists_decode_of_legal hlegal
  have henc : encode j = encode i := calc
    encode j = w' &&& Word.usedMask (decodeFields w).opcode := hop ▸ encodeOfDecodeClearsIgnoredBits w' j hj
    _ = encode i := h ▸ (encodeOfDecodeClearsIgnoredBits w i hd).symm
  rw [hj, encode_injective henc]

/-- Settles O4: by the instruction both words decode to. -/
theorem ignoredBitsExecuteAsZeros : Obligations.IgnoredBitsExecuteAsZeros := by
  intro w w' hlegal h
  obtain ⟨i, hd⟩ := exists_decode_of_legal hlegal
  have hd' : decode w' = .ok i := decode_eq_of_and_usedMask_eq hd h
  exact ⟨i, hd, hd', fun s =>
    ⟨Machine.step_placeFetchWord_of_decode hd s, Machine.step_placeFetchWord_of_decode hd' s⟩⟩

end Sys2Proof
end

section
/-! The shape shared by the instructions that write one register, and by the spec's worked examples of them. -/

namespace Sys2Proof.Machine

@[simp] theorem readReg_placeFetchWord (s : State) (w : Word) (r : RegIdx) :
    readReg (placeFetchWord s w) r = readReg s r := rfl

@[simp] theorem placeFetchWord_out (s : State) (w : Word) : (placeFetchWord s w).out = s.out := rfl

theorem writesOnly_of_exec {i : Instr} {s : State} {rd : RegIdx} {v : Word}
    (h : exec i s = .next (s.writeReg rd v).advance) : WritesOnly i s rd v :=
  ⟨_, h, by simp, fun r hr => by simp [readReg_writeReg_ne _ _ hr], rfl, rfl, rfl, rfl⟩

/-- A worked example needs the instruction's rule only where the registers hold the named inputs. -/
theorem runsTo_of_writesOnly {w : Word} {i : Instr} {inputs : List (RegIdx × Word)} {rd : RegIdx} {v : Word}
    (hd : decode w = .ok i)
    (h : ∀ s, (∀ p ∈ inputs, readReg s p.1 = p.2) → WritesOnly i s rd v) : RunsTo w inputs rd v := by
  intro s hs
  obtain ⟨t, ht, hv, -⟩ := h (placeFetchWord s w) hs
  exact ⟨t, (step_placeFetchWord_of_decode hd s).trans ht, hv⟩

end Sys2Proof.Machine
end

section
/-! The wired sequencer against the instructions' own meanings (spec/40_sequencer_set_get_move.md R110, R111, R119,
spec/30_encoding.md R82, R83). -/

namespace Sys2Proof.Machine

/-! ### A step -/

/-- Settles O7: the branch of `step` at a word that decodes. -/
theorem stepRunsTheDecodedInstruction : Obligations.StepRunsTheDecodedInstruction := by
  intro s w i hf hw hd
  simp only [step, hf, hw, hd]

theorem canStep_iff_fetch (s : State) : CanStep s ↔ s.fault = none ∧ ∃ w, fetch s = some w := by
  refine and_congr_right fun _ => ⟨fun hpc => ⟨_, List.getElem?_eq_getElem hpc⟩, ?_⟩
  rintro ⟨w, hw⟩
  exact pc_lt_of_fetch hw

theorem step_of_fault {s : State} {r : FaultRecord} (hf : s.fault = some r) : step s = .fault (.halted r) := by
  simp only [step, hf]

theorem step_at_end {s : State} (hf : s.fault = none) (hpc : s.program.length ≤ s.pc) :
    step s = .fault .runOver := by
  simp only [step, hf, (fetch_eq_none_iff s).2 hpc]

theorem step_of_illegal {s : State} {w : Word} (hf : s.fault = none) (hw : fetch s = some w)
    (hl : Word.legal w = false) : step s = .next (s.raise .unknownOpcode) := by
  obtain ⟨⟨op⟩, hd⟩ := (decode_error_iff w).2 hl
  simp only [step, hf, hw, hd]

theorem exec_completes (i : Instr) (s : State) : ∃ t, exec i s = .next t := by
  rcases exec_cases i s with ⟨rd, -, h⟩ | ⟨-, rd, v, h⟩
  · exact ⟨_, h⟩
  · exact ⟨_, h⟩

/-- A fetched word has a next state: its instruction completes, or it selects none and raises. -/
theorem exists_next_of_fetch {s : State} {w : Word} (hf : s.fault = none) (hw : fetch s = some w) :
    ∃ t, step s = .next t := by
  cases hl : Word.legal w with
  | true =>
    obtain ⟨i, hd⟩ := exists_decode_of_legal hl
    rw [stepRunsTheDecodedInstruction s w i hf hw hd]
    exact exec_completes i s
  | false => exact ⟨_, step_of_illegal hf hw hl⟩

/-- Settles O9: a step to a next state fetches a word, and a fetched word has a next state. -/
theorem stepExistsOnlyInsideTheProgram : Obligations.StepExistsOnlyInsideTheProgram := by
  refine fun s => ⟨⟨?_, fun hs => ?_⟩, fun r => step_of_fault, step_at_end⟩
  · rintro ⟨t, ht⟩
    obtain ⟨hf, w, hw, -⟩ := stepEffect_of_step ht
    exact (canStep_iff_fetch s).2 ⟨hf, w, hw⟩
  · obtain ⟨hf, w, hw⟩ := (canStep_iff_fetch s).1 hs
    exact exists_next_of_fetch hf hw

/-! ### The control table (R82, R83) -/

theorem control_isGet_iff (op : BitVec 5) : (control op).isGet = true ↔ op = 1 := by decide +revert

theorem control_illegal_iff (op : BitVec 5) : (control op).illegal = true ↔ 22 ≤ op := by decide +revert

theorem control_regWrite_iff (op : BitVec 5) : (control op).regWrite = true ↔ op ≠ 1 ∧ op ≤ 21 := by decide +revert

/-! ### The step of the sequencer, per kind of control row -/

theorem sequencerStep_of_get {s : State} {w : Word} (hf : s.fault = none) (hw : fetch s = some w)
    (hop : (decodeFields w).opcode = 1) :
    sequencerStep s = .next (s.appendOut (readReg s (decodeFields w).rd)).advance := by
  have hget := (control_isGet_iff _).2 hop
  simp only [sequencerStep, hf, hw, readPortA, hget, if_true]

theorem sequencerStep_of_illegal {s : State} {w : Word} (hf : s.fault = none) (hw : fetch s = some w)
    (hl : Word.legal w = false) : sequencerStep s = .next (s.raise .unknownOpcode) := by
  have hget := mt (control_isGet_iff _).1 (opcode_ne_one_of_illegal hl)
  have hill := (control_illegal_iff _).2 ((legal_eq_false_iff_le_opcode w).1 hl)
  simp only [sequencerStep, hf, hw, if_neg hget, if_pos hill]

theorem sequencerStep_of_write {s : State} {w : Word} (hf : s.fault = none) (hw : fetch s = some w)
    (hl : Word.legal w = true) (hop : (decodeFields w).opcode ≠ 1) :
    sequencerStep s = writeBackOrRaise (decodeFields w).rd
      (writeBackValue (control (decodeFields w).opcode) (decodeFields w) s) s := by
  have hle := (legal_iff_opcode_le w).1 hl
  have hget := mt (control_isGet_iff _).1 hop
  have hill := mt (control_illegal_iff _).1 (show ¬ 22 ≤ (decodeFields w).opcode by bv_omega)
  have hwrite := (control_regWrite_iff _).2 ⟨hop, hle⟩
  simp only [sequencerStep, hf, hw, if_neg hget, if_neg hill, gatedWrite, if_pos hwrite]
  cases writeBackValue (control (decodeFields w).opcode) (decodeFields w) s with
  | ok v => rfl
  | error code => rfl

/-- R82, R119: the control row of an instruction that writes routes the fields to the value of its own meaning. -/
theorem exec_eq_writeBackOrRaise {f : Fields} {i : Instr} (h : selectInstr f.opcode.toNat f = .ok i)
    (hop : f.opcode ≠ 1) (s : State) :
    exec i s = writeBackOrRaise f.rd (writeBackValue (control f.opcode) f s) s := by
  have hi : i.opcode = f.opcode := BitVec.eq_of_toNat_eq (selectInstr_ok h).1
  rw [← hi] at h hop ⊢
  cases i with
  | get => exact absurd rfl hop
  | _ => cases h; rfl

/-- Settles O8: by what a step can do; a word that decodes is a Get or writes the value of its control row. -/
theorem stepIsTheWiredSequencer : Obligations.StepIsTheWiredSequencer := by
  intro s
  rcases step_cases s with ⟨r, hf, hs⟩ | ⟨hf, hpc, hs⟩ | ⟨w, i, hf, hw, hd, hs⟩ | ⟨w, hf, hw, hl, hs⟩
  · simp only [hs, sequencerStep, hf]
  · simp only [hs, sequencerStep, hf, (fetch_eq_none_iff s).2 hpc]
  · by_cases hop : (decodeFields w).opcode = 1
    · rw [hs, sequencerStep_of_get hf hw hop, ← rd_of_decode hd]
      exact exec_of_opcode_eq_one ((opcode_of_decode hd).trans hop) s
    · rw [hs, sequencerStep_of_write hf hw (legal_of_decode hd) hop]
      exact exec_eq_writeBackOrRaise hd hop s
  · rw [hs, sequencerStep_of_illegal hf hw hl]

end Sys2Proof.Machine
end

section
/-! The float codec (spec/40_sequencer_set_get_move.md R116 to R118). -/

namespace Sys2Proof.Machine

/-! ### Patterns with an exponent field between the ends -/

theorem isZero_of_expf_ne_zero {v : Word} (h : expf v ≠ 0) : isZero v = false :=
  Bool.eq_false_iff.2 fun hz => h ((isZero_iff v).1 hz).1

theorem isSpecial_of_expf_ne {v : Word} (h : expf v ≠ 255) : isSpecial v = false := by
  refine Bool.eq_false_iff.2 fun hs => ?_
  rcases (isSpecial_iff v).1 hs with rfl | ⟨he, -⟩
  · exact h (by decide)
  · exact h he

theorem ieeeClass_of_normal {v : Word} (h0 : expf v ≠ 0) (h255 : expf v ≠ 255) : ieeeClass v = .finite := by
  simp [ieeeClass, h0, h255]

/-! ### Decode -/

/-- R116: the decoded pattern from its three fields. -/
theorem codecDecode_eq_pack (r : BitVec 23) :
    codecDecode r = pack (r.getLsbD 22) ((r.extractLsb' 17 5).toNat + 112) ((r.extractLsb' 0 17).toNat * 2 ^ 6) := by
  have he := (r.extractLsb' 17 5).isLt
  have hm := (r.extractLsb' 0 17).isLt
  have hs : r.extractLsb' 22 1 = BitVec.ofBool (r.getLsbD 22) := by
    ext i hi
    obtain rfl : i = 0 := by omega
    simp
  apply BitVec.eq_of_toNat_eq
  rw [toNat_pack]
  simp only [codecDecode, toNat_append_eq, hs, BitVec.toNat_ofBool, BitVec.toNat_ofNat]
  cases r.getLsbD 22 <;> simp <;> omega

theorem sign_codecDecode (r : BitVec 23) : sign (codecDecode r) = r.getLsbD 22 := by
  rw [codecDecode_eq_pack, sign_pack]

theorem expf_codecDecode (r : BitVec 23) : expf (codecDecode r) = (r.extractLsb' 17 5).toNat + 112 := by
  have := (r.extractLsb' 17 5).isLt
  rw [codecDecode_eq_pack, expf_pack]
  omega

theorem frac_codecDecode (r : BitVec 23) : frac (codecDecode r) = (r.extractLsb' 0 17).toNat * 2 ^ 6 := by
  have := (r.extractLsb' 0 17).isLt
  rw [codecDecode_eq_pack, frac_pack]
  omega

/-- R117: the format's range. -/
theorem expf_codecDecode_range (r : BitVec 23) : 112 ≤ expf (codecDecode r) ∧ expf (codecDecode r) ≤ 143 := by
  have := (r.extractLsb' 17 5).isLt
  rw [expf_codecDecode]
  omega

/-- Settles O24: the fields are those of the packed pattern, and the range of the exponent field gives the class. -/
theorem codecDecodePlacesTheFields : Obligations.CodecDecodePlacesTheFields := by
  refine ⟨fun r => ?_, by decide, by decide, by decide, by decide⟩
  obtain ⟨hlow, hhigh⟩ := expf_codecDecode_range r
  have h0 : expf (codecDecode r) ≠ 0 := by omega
  have h255 : expf (codecDecode r) ≠ 255 := by omega
  exact ⟨sign_codecDecode r, expf_codecDecode r, frac_codecDecode r, hlow, hhigh,
    isZero_of_expf_ne_zero h0, isSpecial_of_expf_ne h255, ieeeClass_of_normal h0 h255⟩

/-! ### Encode, and the round trip -/

/-- R118: inside the domain the immediate holds the sign, the exponent less 112 and the upper 17 mantissa bits. -/
theorem codecEncode_fields {v : Word} (hlow : 112 ≤ expf v) (hhigh : expf v ≤ 143) :
    ∃ r, codecEncode v = some r ∧ r.getLsbD 22 = sign v ∧ (r.extractLsb' 17 5).toNat = expf v - 112 ∧
      (r.extractLsb' 0 17).toNat = frac v / 2 ^ 6 := by
  refine ⟨_, if_pos ⟨hlow, hhigh⟩, ?_, ?_, ?_⟩
  · rw [BitVec.getLsbD_append, BitVec.getLsbD_append]
    simp
  · simp only [BitVec.extractLsb'_toNat, toNat_append_eq, BitVec.toNat_ofNat, Nat.shiftRight_eq_div_pow]
    omega
  · simp only [BitVec.extractLsb'_toNat, toNat_append_eq, Nat.shiftRight_eq_div_pow, frac_eq]
    omega

theorem toNat_and_truncationMask (v : Word) : (v &&& 0xFFFFFFC0).toNat = v.toNat / 2 ^ 6 * 2 ^ 6 :=
  toNat_and_allOnes_shiftLeft v 6

/-- Settles O25: the two patterns have the same fields. -/
theorem codecRoundTripTruncatesSixBits : Obligations.CodecRoundTripTruncatesSixBits := by
  intro v hlow hhigh
  obtain ⟨r, hr, hs, he, hm⟩ := codecEncode_fields hlow hhigh
  refine ⟨r, hr, eq_of_fields ?_ ?_ ?_⟩
  · rw [sign_codecDecode, hs, sign_eq, sign_eq, toNat_and_truncationMask, decide_eq_decide]
    omega
  · rw [expf_codecDecode, he, Nat.sub_add_cancel hlow, expf_eq, expf_eq, toNat_and_truncationMask]
    omega
  · rw [frac_codecDecode, hm, frac_eq, frac_eq, toNat_and_truncationMask]
    omega

end Sys2Proof.Machine
end

section
/-! Set, Get and Move (spec/40_sequencer_set_get_move.md R113 to R115). -/

namespace Sys2Proof.Machine

theorem set_writesOnly (rd : RegIdx) (imm : BitVec 23) (s : State) :
    WritesOnly (.set rd imm) s rd (codecDecode imm) :=
  writesOnly_of_exec rfl

theorem move_writesOnly (rd ra : RegIdx) (s : State) : WritesOnly (.move rd ra) s rd (readReg s ra) :=
  writesOnly_of_exec rfl

/-- R117: a pattern outside the format's range is no immediate's. -/
theorem codecDecode_ne_of_expf {v : Word} (h : expf v < 112 ∨ 143 < expf v) (r : BitVec 23) : codecDecode r ≠ v := by
  rintro rfl
  have := expf_codecDecode_range r
  omega

/-- Settles O26: the excluded values have an exponent field of 0 or 255. -/
theorem setWritesTheDecodedImmediate : Obligations.SetWritesTheDecodedImmediate := by
  refine ⟨set_writesOnly, rfl, rfl, fun imm => ?_, by decide, ?_⟩
  · have excluded {v : Word} (h : expf v < 112 ∨ 143 < expf v) := codecDecode_ne_of_expf h imm
    refine ⟨excluded (by decide), excluded (by decide), excluded (by decide), excluded (by decide), ?_⟩
    rw [frac_codecDecode]
    exact Nat.mul_mod_left _ _
  · have hone : codecDecode 0x1E0000 = 0x3F800000 := by decide
    exact runsTo_of_writesOnly (i := .set 0 0x1E0000) rfl fun s _ => hone ▸ set_writesOnly 0 0x1E0000 s

/-- Settles O27: a Get is the append of its register, and reset holds zero in every register. -/
theorem getAppendsItsRegister : Obligations.GetAppendsItsRegister := by
  refine ⟨fun rd s => ⟨_, rfl, rfl, rfl, rfl, rfl, rfl⟩, ⟨_, rfl, rfl⟩, fun s h3 => ?_⟩
  have hd : decode 0x09800000 = .ok (.get 3) := rfl
  refine ⟨_, (step_placeFetchWord_of_decode hd s).trans (exec_of_opcode_eq_one rfl _), ?_⟩
  simp [Instr.rd, h3]

/-- Settles O28: the ALU's identity returns operand A itself. -/
theorem moveCopiesItsOperand : Obligations.MoveCopiesItsOperand := by
  refine ⟨move_writesOnly, rfl, rfl, runsTo_of_writesOnly (i := .move 2 1) rfl fun s hs => ?_⟩
  have h1 : readReg s 1 = 0x40000000 := hs (1, 0x40000000) (by simp)
  exact h1 ▸ move_writesOnly 2 1 s

end Sys2Proof.Machine
end

section
/-! Fadd and the shortcuts of addition (spec/41_add_sub.md R140, R142). -/

namespace Sys2Proof.Machine

theorem fadd_writesOnly (rd ra rb : RegIdx) (s : State) :
    WritesOnly (.fadd rd ra rb) s rd (add (readReg s ra) (readReg s rb)) :=
  writesOnly_of_exec rfl

/-- Settles O29: the frame is that of every register write, and 2.0 + 3.0 is evaluated. -/
theorem faddWritesTheSum : Obligations.FaddWritesTheSum := by
  refine ⟨fadd_writesOnly, rfl, rfl, rfl, runsTo_of_writesOnly (i := .fadd 3 1 2) rfl fun s hs => ?_⟩
  have h1 : readReg s 1 = 0x40000000 := hs (1, 0x40000000) (by simp)
  have h2 : readReg s 2 = 0x40400000 := hs (2, 0x40400000) (by simp)
  have hsum : add (readReg s 1) (readReg s 2) = 0x40A00000 := by rw [h1, h2]; decide
  exact hsum ▸ fadd_writesOnly 3 1 2 s

/-! ### The shortcuts, one equation each, and the general path -/

theorem add_of_special {a b : Word} (h : isSpecial a = true ∨ isSpecial b = true) : add a b = SENT :=
  if_pos (Bool.or_eq_true_iff.2 h)

section NotSpecial
variable {a b : Word} (ha : isSpecial a = false) (hb : isSpecial b = false)
include ha hb

theorem add_of_isZero_left (hz : isZero a = true) : add a b = b := by
  simp [add, ha, hb, hz]

theorem add_of_isZero_right (hza : isZero a = false) (hzb : isZero b = true) : add a b = a := by
  simp [add, ha, hb, hza, hzb]

theorem add_of_xor_eq_sign (hza : isZero a = false) (hzb : isZero b = false) (h : a ^^^ b = SIGN) : add a b = ZERO := by
  simp [add, ha, hb, hza, hzb, h]

theorem add_general (hza : isZero a = false) (hzb : isZero b = false) (h : a ^^^ b ≠ SIGN) :
    add a b = if expf b ≤ expf a then addOrdered a b else addOrdered b a := by
  simp [add, ha, hb, hza, hzb, h]

end NotSpecial

/-- Settles O31: each clause is the equation of its shortcut. -/
theorem additionShortcutsInOrder : Obligations.AdditionShortcutsInOrder :=
  fun _ _ => ⟨add_of_special, fun ha hb =>
    ⟨add_of_isZero_left ha hb, add_of_isZero_right ha hb, add_of_xor_eq_sign ha hb⟩⟩

/-! ### A pattern and its negation

R153's `x + (-x) = 0` and R155's `x - x = 0` for an x that is neither special nor zero. `0x7FFFFFFF` is such an x by R13, but
its sign flip is the sentinel `0xFFFFFFFF`, so shortcut (1) of R142 wins over shortcut (3). -/

theorem isZero_xor_sign (x : Word) : isZero (x ^^^ SIGN) = isZero x := by
  rw [Bool.eq_iff_iff, isZero_iff, isZero_iff, expf_xor_sign, frac_xor_sign]

theorem xor_sign_eq_sent_iff (x : Word) : x ^^^ SIGN = SENT ↔ x = 0x7FFFFFFF :=
  BitVec.xor_left_inj (y := 0x7FFFFFFF) SIGN

theorem isSpecial_xor_sign {x : Word} (hs : isSpecial x = false) (hx : x ≠ 0x7FFFFFFF) :
    isSpecial (x ^^^ SIGN) = false := by
  refine Bool.eq_false_iff.2 fun h => ?_
  rcases (isSpecial_iff _).1 h with hsent | hinf
  · exact hx ((xor_sign_eq_sent_iff x).1 hsent)
  · rw [expf_xor_sign, frac_xor_sign] at hinf
    exact Bool.eq_false_iff.1 hs ((isSpecial_iff x).2 (.inr hinf))

/-- A pattern that is neither special nor zero cancels against its negation, but for the one whose negation is the
sentinel. -/
theorem add_xor_sign {x : Word} (hs : isSpecial x = false) (hz : isZero x = false) :
    add x (x ^^^ SIGN) = if x = 0x7FFFFFFF then SENT else ZERO := by
  split
  case isTrue h => exact add_of_special (.inr ((isSpecial_iff _).2 (.inl ((xor_sign_eq_sent_iff x).2 h))))
  case isFalse h =>
    refine add_of_xor_eq_sign hs (isSpecial_xor_sign hs h) hz ((isZero_xor_sign x).trans hz) ?_
    rw [← BitVec.xor_assoc, BitVec.xor_self, BitVec.zero_xor]

/-- The counterexample: not special, not zero, and its sum with its negation is the sentinel. -/
theorem abs_mask_not_cancelled :
    isSpecial 0x7FFFFFFF = false ∧ isZero 0x7FFFFFFF = false ∧ add 0x7FFFFFFF (0x7FFFFFFF ^^^ SIGN) = SENT :=
  ⟨by decide, by decide, add_xor_sign (by decide) (by decide)⟩

/-- Refutes O30: its clause `x - x = 0` fails at `0x7FFFFFFF`. -/
theorem not_fsubAddsTheFlippedOperand : ¬ Obligations.FsubAddsTheFlippedOperand := by
  rintro ⟨-, -, -, -, hcancel, -⟩
  obtain ⟨hs, hz, hsent⟩ := abs_mask_not_cancelled
  have hzero : add 0x7FFFFFFF (0x7FFFFFFF ^^^ SIGN) = 0x00000000 := hcancel 0x7FFFFFFF hs hz
  exact absurd (hsent.symm.trans hzero) (by decide)

/-- Refutes O33: its clause `x + (-x) = 0` fails at `0x7FFFFFFF`. -/
theorem not_additionCommutesAndCancels : ¬ Obligations.AdditionCommutesAndCancels := by
  rintro ⟨-, -, -, hcancel, -⟩
  obtain ⟨hs, hz, hsent⟩ := abs_mask_not_cancelled
  have hzero : add 0x7FFFFFFF (0x7FFFFFFF ^^^ SIGN) = 0x00000000 := (hcancel 0x7FFFFFFF hs hz).2.2
  exact absurd (hsent.symm.trans hzero) (by decide)

end Sys2Proof.Machine
end

section
/-! The mantissa alignment engine (spec/41_add_sub.md R144). -/

namespace Sys2Proof.Machine

theorem align_eq (m d : Nat) : align m d = m * 16 / 2 ^ d ||| if m * 16 % 2 ^ d ≠ 0 then 1 else 0 := by
  simp only [align, lowmask, Nat.and_two_pow_sub_one_eq_mod, Nat.shiftRight_eq_div_pow, Nat.shiftLeft_eq]

theorem align_div_two (m d : Nat) : align m d / 2 = m * 16 / 2 ^ d / 2 := by
  rw [align_eq, Nat.or_div_two]
  split <;> simp

theorem align_mod_two (m d : Nat) : align m d % 2 = 1 ↔ m * 16 / 2 ^ d % 2 = 1 ∨ m * 16 % 2 ^ d ≠ 0 := by
  rw [align_eq, Nat.or_mod_two_eq_one]
  split <;> simp_all

theorem align_zero (m : Nat) : align m 0 = m * 16 := by
  simp [align_eq, Nat.mod_one]

/-- From 28 positions on the whole 28-bit word is shifted out. -/
theorem align_of_le {m d : Nat} (hm : m < 2 ^ 24) (hpos : 0 < m) (hd : 28 ≤ d) : align m d = 1 := by
  have hlt : m * 16 < 2 ^ d := calc
    m * 16 < 2 ^ 28 := by omega
    _ ≤ 2 ^ d := Nat.pow_le_pow_right (by decide) hd
  rw [align_eq, Nat.div_eq_of_lt hlt, Nat.mod_eq_of_lt hlt, if_pos (by omega), Nat.zero_or]

/-- Settles O34: no shift, a shift beyond the word, and the two halves of the aligned word. -/
theorem alignmentFoldsLostBitsIntoSticky : Obligations.AlignmentFoldsLostBitsIntoSticky :=
  ⟨align_zero, fun _ _ => align_of_le, fun m d => ⟨align_div_two m d, align_mod_two m d⟩⟩

end Sys2Proof.Machine
end

section
/-! How a significand with a sticky bit stands for an exact value (spec/41_add_sub.md R144, R152). -/

namespace Sys2Proof.Machine

/-- Every multiple of `g` lies on the same side of `x` as of the rational `N / D`. A sticky bit makes this true of an inexact
`x` for `g = 2`, and a rounding to `x / 16` asks for the multiples of 8 only. -/
def SameSide (g x N D : Int) : Prop := ∀ c : Int, (g * c ≤ x ↔ g * c * D ≤ N) ∧ (g * c < x ↔ g * c * D < N)

namespace SameSide
variable {g x N D : Int}

theorem of_exact (g x : Int) (hD : 0 < D) : SameSide g x (x * D) D := fun _ =>
  ⟨(mul_le_mul_iff_of_pos_right hD).symm, (mul_lt_mul_iff_of_pos_right hD).symm⟩

theorem eq_of_one (h : SameSide 1 x N D) : N = x * D := by
  have hx := h x
  simp only [one_mul, le_refl, lt_irrefl, true_iff, false_iff, not_lt] at hx
  exact le_antisymm hx.2 hx.1

theorem neg (h : SameSide g x N D) : SameSide g (-x) (-N) D := by
  intro c
  obtain ⟨hle, hlt⟩ := h (-c)
  rw [mul_neg, neg_mul] at hle hlt
  constructor <;> omega

theorem add_multiple (h : SameSide g x N D) (k : Int) : SameSide g (g * k + x) (g * k * D + N) D := by
  intro c
  obtain ⟨hle, hlt⟩ := h (c - k)
  rw [mul_sub, sub_mul] at hle hlt
  constructor <;> omega

theorem scale_iff {t : Int} (ht : 0 < t) : SameSide g x (N * t) (D * t) ↔ SameSide g x N D := by
  unfold SameSide
  simp only [← mul_assoc, mul_le_mul_iff_of_pos_right ht, mul_lt_mul_iff_of_pos_right ht]

theorem mul_left {t : Int} (ht : 0 < t) (h : SameSide g x N D) : SameSide (g * t) (x * t) (N * t) D := by
  intro c
  rw [mul_right_comm g t c, mul_right_comm (g * c) t D]
  simpa only [mul_le_mul_iff_of_pos_right ht, mul_lt_mul_iff_of_pos_right ht] using h c

theorem coarsen (h : SameSide g x N D) (t : Int) : SameSide (g * t) x N D := fun c => by
  simpa only [mul_assoc] using h (t * c)

theorem trans {y t : Int} (hy : SameSide g y x t) (h : SameSide g x N D) : SameSide g y N (t * D) := fun c => by
  obtain ⟨hle, hlt⟩ := h (c * t)
  rw [hy c |>.1, hy c |>.2, mul_assoc g c t, hle, hlt]
  simp only [mul_assoc, and_self]

theorem pos_iff (h : SameSide g x N D) : 0 < x ↔ 0 < N := by simpa using (h 0).2

theorem nonneg_iff (h : SameSide g x N D) : 0 ≤ x ↔ 0 ≤ N := by simpa using (h 0).1

theorem abs (h : SameSide g x N D) : SameSide g |x| |N| D := by
  by_cases hx : 0 ≤ x
  · rwa [abs_of_nonneg hx, abs_of_nonneg (h.nonneg_iff.1 hx)]
  · have hN := mt h.nonneg_iff.2 hx
    rw [abs_of_neg (by omega), abs_of_neg (by omega)]
    exact h.neg

/-- The quotient with a sticky bit: odd as soon as a bit is lost. -/
theorem of_sticky {x N D : Nat} (hD : 0 < D) (hhalf : x / 2 = N / D / 2)
    (hodd : x % 2 = 1 ↔ N / D % 2 = 1 ∨ N % D ≠ 0) : SameSide 2 x N D := by
  intro c
  have hD' : (0 : Int) < D := by exact_mod_cast hD
  have hdiv : (N : Int) = D * ((N / D : Nat) : Int) + ((N % D : Nat) : Int) := by exact_mod_cast (Nat.div_add_mod N D).symm
  have hle : 2 * c * D ≤ N ↔ 2 * c ≤ ((N / D : Nat) : Int) := by
    rw [Int.natCast_div, Int.le_ediv_iff_mul_le hD']
  refine ⟨by omega, ?_⟩
  by_cases hr : N % D = 0
  · rw [hdiv, hr, mul_comm (D : Int), Nat.cast_zero, add_zero, mul_lt_mul_iff_of_pos_right hD']
    omega
  · have hne : 2 * c * D ≠ N := fun heq => hr (Nat.mod_eq_zero_of_dvd (by exact_mod_cast Dvd.intro_left _ heq))
    omega

end SameSide

/-! ### The words of the general path -/

theorem sameSide_align (m d : Nat) : SameSide 2 (align m d) (m * 16) (2 ^ d) := by
  exact_mod_cast SameSide.of_sticky (Nat.two_pow_pos d) (align_div_two m d) (align_mod_two m d)

/-- A 28-bit word shifted by one place or not at all loses nothing. -/
theorem sameSide_one_align {m d : Nat} (hd : d ≤ 1) : SameSide 1 (align m d) (m * 16) (2 ^ d) := by
  have hexact : align m d * 2 ^ d = m * 16 := by
    have hhalf := align_div_two m d
    have hodd := align_mod_two m d
    interval_cases d <;> omega
  have hcast : (m * 16 : Int) = align m d * 2 ^ d := by exact_mod_cast hexact.symm
  exact hcast ▸ SameSide.of_exact 1 _ (by positivity)

theorem align_lt {m : Nat} (hm : m < 2 ^ 24) (d : Nat) : align m d < 2 ^ 28 := by
  have := align_div_two m d
  have := Nat.div_le_self (m * 16) (2 ^ d)
  omega

/-- Two places or more leave the word below a quarter of its range. -/
theorem align_le {m d : Nat} (hm : m < 2 ^ 24) (hd : 2 ≤ d) : align m d ≤ 2 ^ 26 := by
  have hhalf := align_div_two m d
  have hquarter : m * 16 / 2 ^ d ≤ m * 16 / 2 ^ 2 :=
    Nat.div_le_div_left (Nat.pow_le_pow_right (by decide) hd) (by decide)
  omega

/-- A sign and a magnitude as an integer. -/
def signed (s : Bool) (n : Int) : Int := if s then -n else n

theorem bitLevelValue_eq_signed (v : Word) : bitLevelValue v = signed (sign v) (sig v * 2 ^ expf v) := by
  simp [bitLevelValue, signed]

theorem signed_mul (s : Bool) (n t : Int) : signed s (n * t) = signed s n * t := by
  cases s <;> simp [signed]

theorem SameSide.signed {g x N D : Int} (h : SameSide g x N D) (s : Bool) :
    SameSide g (signed s x) (Machine.signed s N) D := by
  cases s
  · exact h
  · exact h.neg

/-- R145: the magnitude and sign of `combine` are those of the signed sum. -/
theorem signed_combine (sB sS : Bool) (xB xS : Nat) :
    signed (combine sB xB sS xS).2 (combine sB xB sS xS).1 = signed sB xB + signed sS xS := by
  by_cases hs : sB = sS
  · subst hs
    rw [combine, if_pos rfl]
    cases sB <;> simp [signed, add_comm]
  · obtain rfl : sS = !sB := Bool.eq_not_of_ne (Ne.symm hs)
    rw [combine, if_neg hs]
    split <;> cases sB <;> simp [signed] <;> omega

theorem combine_le (sB sS : Bool) (xB xS : Nat) : (combine sB xB sS xS).1 ≤ xB + xS := by
  unfold combine
  split_ifs <;> simp <;> omega

theorem le_combine (sB sS : Bool) (xB xS : Nat) : xB ≤ (combine sB xB sS xS).1 + xS := by
  unfold combine
  split_ifs <;> simp <;> omega

theorem abs_signed (s : Bool) (n : Nat) : |signed s n| = n := by
  cases s <;> simp [signed]

theorem signed_lt_zero_iff {n : Nat} (s : Bool) (hn : n ≠ 0) : signed s n < 0 ↔ s = true := by
  cases s with
  | false => simp [signed]
  | true => simp [signed, Nat.pos_of_ne_zero hn]

end Sys2Proof.Machine
end

section
/-! The general path of addition is the exact sum, rounded once (spec/41_add_sub.md R145 to R149, R152). -/

namespace Sys2Proof.Machine

/-! ### Normalization (R146) -/

theorem sameSide_shiftRight_sticky (x : Nat) : SameSide 2 ((x >>> 1 ||| x &&& 1 : Nat) : Int) x 2 := by
  refine SameSide.of_sticky (D := 2) (by decide) ?_ ?_
  · rw [Nat.or_div_two, Nat.and_div_two]
    simp [Nat.shiftRight_eq_div_pow]
  · rw [Nat.or_mod_two_eq_one, Nat.and_mod_two_eq_one]
    simp [Nat.shiftRight_eq_div_pow]

/-- `y` is a 28-bit word with its implicit bit at bit 27 that stands for `N / D` at the exponent `e`, after `u` right shifts
and `w` left shifts. -/
structure Normalizes (y : Nat × Int) (e : Int) (N D : Int) (u w : Nat) : Prop where
  exponent : y.2 = e + u - w
  lower : 2 ^ 27 ≤ y.1
  upper : y.1 < 2 ^ 28
  sameSide : SameSide 4 y.1 (N * 2 ^ w) (D * 2 ^ u)

section
variable {x : Nat} {N D : Int} (e : Int)

theorem normalize_of_carry (hlo : 2 ^ 28 ≤ x) (hhi : x < 2 ^ 29) (h : SameSide 2 x N D) :
    Normalizes (normalize x e) e N D 1 0 := by
  have hp : msb x = 28 := (Nat.log2_eq_iff (by omega)).2 ⟨hlo, hhi⟩
  have hs := sameSide_shiftRight_sticky x
  have hlower := (hs (2 ^ 26)).1
  have hupper := (hs (2 ^ 27)).1
  simp only [normalize, hp, if_true]
  refine ⟨by simp, by omega, by omega, ?_⟩
  simpa [mul_comm] using (hs.trans h).coarsen 2

theorem normalize_of_normalized (hlo : 2 ^ 27 ≤ x) (hhi : x < 2 ^ 28) (h : SameSide 2 x N D) :
    Normalizes (normalize x e) e N D 0 0 := by
  have hp : msb x = 27 := (Nat.log2_eq_iff (by omega)).2 ⟨hlo, hhi⟩
  simp only [normalize, hp]
  exact ⟨by simp, hlo, hhi, by simpa using h.coarsen 2⟩

theorem normalize_of_short (hx : x ≠ 0) (hhi : x < 2 ^ 27)
    (h : SameSide 4 (x * 2 ^ (27 - msb x)) (N * 2 ^ (27 - msb x)) D) :
    Normalizes (normalize x e) e N D 0 (27 - msb x) := by
  have hp : msb x < 27 := (Nat.log2_lt hx).2 hhi
  have hlo : 2 ^ msb x ≤ x := Nat.log2_self_le hx
  have hup : x < 2 ^ (msb x + 1) := Nat.lt_log2_self
  simp only [normalize, if_neg (show ¬ msb x = 28 by omega), if_pos hp, Nat.shiftLeft_eq]
  refine ⟨by simp, ?_, ?_, by simpa using h⟩
  · calc 2 ^ 27 = 2 ^ msb x * 2 ^ (27 - msb x) := by rw [← pow_add]; congr 1; omega
      _ ≤ x * 2 ^ (27 - msb x) := Nat.mul_le_mul_right _ hlo
  · calc x * 2 ^ (27 - msb x) < 2 ^ (msb x + 1) * 2 ^ (27 - msb x) := Nat.mul_lt_mul_of_pos_right hup (by positivity)
      _ = 2 ^ 28 := by rw [← pow_add]; congr 1; omega

/-- A left shift by one place leaves the multiples of 4 on their sides; a longer one is of an exact word only. -/
theorem exists_normalizes (hx : x ≠ 0) (hhi : x < 2 ^ 29) (hD : 0 < D) (h : SameSide 2 x N D)
    (hexact : x < 2 ^ 26 → SameSide 1 x N D) : ∃ u w, Normalizes (normalize x e) e N D u w := by
  rcases le_or_gt (2 ^ 28) x with h28 | h28
  · exact ⟨1, 0, normalize_of_carry e h28 hhi h⟩
  rcases le_or_gt (2 ^ 27) x with h27 | h27
  · exact ⟨0, 0, normalize_of_normalized e h27 h28 h⟩
  refine ⟨0, _, normalize_of_short e hx h27 ?_⟩
  rcases le_or_gt (2 ^ 26) x with h26 | h26
  · have hp : msb x = 26 := (Nat.log2_eq_iff hx).2 ⟨h26, h27⟩
    rw [hp]
    exact h.mul_left two_pos
  · rw [(hexact h26).eq_of_one, mul_right_comm]
    exact SameSide.of_exact 4 _ hD

end

/-! ### Rounding (R147 to R149) -/

/-- The end of R149 and of R152: the significand after the rounding, its carry taken into the exponent. -/
def packRounded (s : Bool) (e : Int) (m : Nat) : Word :=
  if m = 2 ^ 24 then (if 254 < e + 1 then SENT else pack s (e + 1).toNat 0) else pack s e.toNat m

theorem roundSum_of_range {s : Bool} {x : Nat} {e : Int} (hx : x < 2 ^ 28) (hlo : 1 ≤ e) (hhi : e ≤ 254) :
    roundSum s x e = packRounded s e (if 8 < x % 16 ∨ (x % 16 = 8 ∧ s = true) then x / 16 + 1 else x / 16) := by
  have hr : ¬ (e < 1 ∨ 254 < e) := by omega
  have hup : roundsUp s (x % 16) = true ↔ 8 < x % 16 ∨ (x % 16 = 8 ∧ s = true) := by simp [roundsUp]
  have hm : x / 16 ≠ 2 ^ 24 := by omega
  simp only [roundSum, packRounded, if_neg hr, ← hup, Nat.shiftRight_eq_div_pow]
  cases roundsUp s (x % 16) with
  | true => rfl
  | false => simp only [Bool.false_eq_true, if_false, if_neg hm]

theorem roundExact_of_msb {v : Int} {k : Nat} (hp : msb v.natAbs = k + 24) (hk : k ≤ 253) :
    roundExact v = packRounded (decide (v < 0)) (k + 1)
      (if 2 ^ k < v.natAbs % 2 ^ (k + 1) ∨ (v.natAbs % 2 ^ (k + 1) = 2 ^ k ∧ v < 0)
        then v.natAbs / 2 ^ (k + 1) + 1 else v.natAbs / 2 ^ (k + 1)) := by
  have hr : ¬ (k + 24 < 24 ∨ 277 < k + 24) := by omega
  have h1 : 277 < k + 24 + 1 ↔ (254 : Int) < k + 1 + 1 := by omega
  have h2 : ((k : Int) + 1 + 1).toNat = k + 2 := by omega
  have h3 : ((k : Int) + 1).toNat = k + 1 := by omega
  simp only [roundExact, packRounded, hp, if_neg hr, Nat.add_sub_cancel, show k + 24 - 23 = k + 1 by omega,
    show k + 24 - 22 = k + 2 by omega, h1, h2, h3]

theorem roundExact_of_msb_out {v : Int} (h : msb v.natAbs < 24 ∨ 277 < msb v.natAbs) : roundExact v = SENT := if_pos h

/-- A word that stands for `n / 2^(k+1)` in sixteenths has its quotient, and its tail on the same side of the half. -/
theorem quotient_and_tail {x n k : Nat} (h : SameSide 4 x (16 * n) (2 ^ (k + 1))) :
    x / 16 = n / 2 ^ (k + 1) ∧ (8 < x % 16 ↔ 2 ^ k < n % 2 ^ (k + 1)) ∧ (x % 16 = 8 ↔ n % 2 ^ (k + 1) = 2 ^ k) := by
  have side (t : Nat) : (4 * t ≤ x ↔ t * 2 ^ k ≤ 2 * n) ∧ (4 * t < x ↔ t * 2 ^ k < 2 * n) := by
    obtain ⟨hle, hlt⟩ := h t
    rw [pow_succ, ← mul_assoc, mul_assoc 4 (t : Int)] at hle hlt
    constructor <;> zify <;> omega
  have hrem := Nat.mod_lt n (Nat.two_pow_pos (k + 1))
  have hdiv := Nat.div_add_mod' n (2 ^ (k + 1))
  have hbelow := (side (4 * (n / 2 ^ (k + 1)))).1
  have habove := (side (4 * (n / 2 ^ (k + 1)) + 4)).1
  have hhalf := side (4 * (n / 2 ^ (k + 1)) + 2)
  have hpow : 2 ^ (k + 1) = 2 ^ k * 2 := pow_succ 2 k
  generalize n / 2 ^ (k + 1) = q at *
  generalize n % 2 ^ (k + 1) = r at *
  rw [add_mul, mul_assoc] at *
  rw [hpow, ← mul_assoc] at hdiv
  omega

/-- At a normal exponent `k + 1`, or one too large, both ends round the same quotient. -/
theorem roundSum_eq_roundExact_of_pos {v : Int} {x k : Nat} (hlo : 2 ^ 27 ≤ x) (hhi : x < 2 ^ 28)
    (h : SameSide 4 x (16 * v.natAbs) (2 ^ (k + 1))) : roundSum (decide (v < 0)) x (k + 1) = roundExact v := by
  obtain ⟨hq, htail, htie⟩ := quotient_and_tail h
  have hp : msb v.natAbs = k + 24 := by
    have hlow : 2 ^ 23 ≤ v.natAbs / 2 ^ (k + 1) := by omega
    have hhigh : v.natAbs / 2 ^ (k + 1) < 2 ^ 24 := by omega
    rw [Nat.le_div_iff_mul_le (by positivity), ← pow_add] at hlow
    rw [Nat.div_lt_iff_lt_mul (by positivity), ← pow_add] at hhigh
    have hne : v.natAbs ≠ 0 := (hlow.trans_lt' (by positivity)).ne'
    exact (Nat.log2_eq_iff hne).2 ⟨by convert hlow using 2; omega, by convert hhigh using 2; omega⟩
  rcases le_or_gt k 253 with hk | hk
  · rw [roundExact_of_msb hp hk, roundSum_of_range hhi (by omega) (by omega)]
    simp only [hq, htail, htie, decide_eq_true_eq]
  · rw [roundExact_of_msb_out (.inr (by omega))]
    exact if_pos (.inr (by omega))

/-- The exact value below the smallest normal pattern has fewer than 25 bits in units of 2^-150. -/
theorem roundExact_of_lt {v : Int} (h : v.natAbs < 2 ^ 24) : roundExact v = SENT := by
  refine roundExact_of_msb_out (.inl ?_)
  by_cases hv : v.natAbs = 0
  · rw [hv]
    decide
  · exact (Nat.log2_lt hv).2 h

/-- `x` in sixteenths at the exponent `u - w` against `v` in units of exponent 0. -/
theorem roundSum_eq_roundExact {v : Int} {x u w : Nat} (hlo : 2 ^ 27 ≤ x) (hhi : x < 2 ^ 28)
    (h : SameSide 4 x (16 * v.natAbs * 2 ^ w) (2 ^ u)) : roundSum (decide (v < 0)) x (u - w) = roundExact v := by
  rcases Nat.lt_or_ge w u with hwu | huw
  · obtain ⟨k, rfl⟩ := Nat.exists_eq_add_of_lt hwu
    have hside : SameSide 4 x (16 * v.natAbs) (2 ^ (k + 1)) := by
      rwa [← SameSide.scale_iff (t := 2 ^ w) (by positivity), ← pow_add, add_comm, ← add_assoc]
    have he : ((w + k + 1 : Nat) : Int) - w = k + 1 := by omega
    exact he ▸ roundSum_eq_roundExact_of_pos hlo hhi hside
  · have hpow : (2 : Int) ^ u ≤ 2 ^ w := pow_le_pow_right₀ (by decide) huw
    have hlt : 16 * (v.natAbs : Int) * 2 ^ w < 4 * 2 ^ 26 * 2 ^ u := by
      have := (h (2 ^ 26)).1
      omega
    have hn : 16 * (v.natAbs : Int) < 4 * 2 ^ 26 := lt_of_mul_lt_mul_right (by omega) (by positivity : (0 : Int) ≤ 2 ^ w)
    rw [roundExact_of_lt (by omega)]
    exact if_pos (.inl (by omega))

/-! ### The general path (R145, R152) -/

/-- The two values over the smaller exponent, in sixteenths. -/
theorem bitLevelValue_add_eq {a b : Word} (h : expf b ≤ expf a) :
    (bitLevelValue a + bitLevelValue b) * 16 =
      (signed (sign a) (sig a * 16 * 2 ^ (expf a - expf b)) + signed (sign b) (sig b * 16)) * 2 ^ expf b := by
  have hpow : (2 : Int) ^ expf a = 2 ^ (expf a - expf b) * 2 ^ expf b := by rw [← pow_add, Nat.sub_add_cancel h]
  simp only [bitLevelValue_eq_signed, add_mul, ← signed_mul, hpow]
  ring_nf

/-- The word of the signed sum of R145. -/
theorem sameSide_combine {g : Int} {xB xS : Nat} {N D : Int} (hg : g ∣ xB) (h : SameSide g xS N D) (sB sS : Bool) :
    SameSide g (signed sB xB + signed sS xS) (signed sB (xB * D) + signed sS N) D := by
  have hdvd : g ∣ signed sB xB := by cases sB <;> simpa [signed] using hg
  obtain ⟨k, hk⟩ := hdvd
  rw [signed_mul, hk]
  exact (h.signed sS).add_multiple k

/-- R145: the combined word and its sign, before normalization. -/
def combined (big small : Word) : Nat × Bool :=
  combine (sign big) (sig big <<< 4) (sign small) (align (sig small) (expf big - expf small))

theorem addOrdered_eq_roundSum (big small : Word) : addOrdered big small =
    roundSum (combined big small).2 (normalize (combined big small).1 (expf big)).1
      (normalize (combined big small).1 (expf big)).2 := rfl

theorem combined_lt (a b : Word) : (combined a b).1 < 2 ^ 29 := by
  have hsum := combine_le (sign a) (sign b) (sig a <<< 4) (align (sig b) (expf a - expf b))
  have ha := sig_lt a
  have hb := align_lt (sig_lt b) (expf a - expf b)
  have hxB : sig a <<< 4 = sig a * 16 := Nat.shiftLeft_eq _ _
  unfold combined
  omega

/-- Operands two or more exponents apart cancel by at most one place. -/
theorem le_combined {a b : Word} (h : 2 ≤ expf a - expf b) : 2 ^ 26 ≤ (combined a b).1 := by
  have hsum := le_combine (sign a) (sign b) (sig a <<< 4) (align (sig b) (expf a - expf b))
  have ha := sig_ge a
  have hb := align_le (sig_lt b) h
  have hxB : sig a <<< 4 = sig a * 16 := Nat.shiftLeft_eq _ _
  unfold combined
  omega

section
variable {a b : Word} (hle : expf b ≤ expf a)
include hle

/-- The combined word inherits what the alignment gives: sides of the multiples of 2 in general, exactness for close
operands. -/
theorem sameSide_signed_combined {g : Int} (hg : g ∣ 16)
    (h : SameSide g (align (sig b) (expf a - expf b)) (sig b * 16) (2 ^ (expf a - expf b))) :
    SameSide g (signed (combined a b).2 (combined a b).1) ((bitLevelValue a + bitLevelValue b) * 16) (2 ^ expf a) := by
  have hxB : ((sig a <<< 4 : Nat) : Int) = sig a * 16 := by rw [Nat.shiftLeft_eq]; norm_cast
  have hsum := sameSide_combine (xB := sig a <<< 4) (hxB ▸ hg.mul_left _) h (sign a) (sign b)
  rw [← signed_combine, hxB] at hsum
  rw [bitLevelValue_add_eq hle, ← Nat.sub_add_cancel hle, pow_add, Nat.sub_add_cancel hle]
  exact (SameSide.scale_iff (by positivity)).2 hsum

theorem sameSide_combined {g : Int} (hg : g ∣ 16)
    (h : SameSide g (align (sig b) (expf a - expf b)) (sig b * 16) (2 ^ (expf a - expf b))) :
    SameSide g (combined a b).1 (16 * (bitLevelValue a + bitLevelValue b).natAbs) (2 ^ expf a) := by
  have habs := (sameSide_signed_combined hle hg h).abs
  rwa [abs_signed, abs_mul, Int.abs_eq_natAbs, mul_comm] at habs

theorem addOrdered_eq_roundExact (hv : bitLevelValue a + bitLevelValue b ≠ 0) :
    addOrdered a b = roundExact (bitLevelValue a + bitLevelValue b) := by
  have halign := sameSide_align (sig b) (expf a - expf b)
  have hside := sameSide_combined hle (by decide) halign
  have hne : (combined a b).1 ≠ 0 := by
    have := hside.pos_iff
    omega
  have hsign : (combined a b).2 = decide (bitLevelValue a + bitLevelValue b < 0) := by
    have hneg := signed_lt_zero_iff (combined a b).2 hne
    have := (sameSide_signed_combined hle (by decide) halign).nonneg_iff
    rw [Bool.eq_iff_iff, decide_eq_true_iff, ← hneg]
    omega
  have hexact (hshort : (combined a b).1 < 2 ^ 26) :
      SameSide 1 (combined a b).1 (16 * (bitLevelValue a + bitLevelValue b).natAbs) (2 ^ expf a) := by
    have hd : expf a - expf b ≤ 1 := Nat.le_of_lt_succ (lt_of_not_ge fun h => absurd (le_combined h) hshort.not_ge)
    exact sameSide_combined hle (by decide) (sameSide_one_align hd)
  obtain ⟨u, w, hexp, hlo, hhi, hnorm⟩ := exists_normalizes (expf a) hne (combined_lt a b) (by positivity) hside hexact
  rw [← pow_add] at hnorm
  rw [addOrdered_eq_roundSum, hexp, hsign, ← Nat.cast_add]
  exact roundSum_eq_roundExact hlo hhi hnorm

end

/-! ### Exact cancellation (R142, R145) -/

/-- A magnitude has one significand and exponent. -/
theorem expf_le_of_magnitude_eq {a b : Word} (h : sig a * 2 ^ expf a = sig b * 2 ^ expf b) : expf a ≤ expf b := by
  by_contra hlt
  have hb := sig_lt b
  have ha := sig_ge a
  have hcontra : sig b * 2 ^ expf b < sig a * 2 ^ expf a := calc
    sig b * 2 ^ expf b < 2 ^ 24 * 2 ^ expf b := Nat.mul_lt_mul_of_pos_right hb (by positivity)
    _ = 2 ^ 23 * 2 ^ (expf b + 1) := by ring
    _ ≤ sig a * 2 ^ expf a := Nat.mul_le_mul ha (Nat.pow_le_pow_right (by decide) (by omega))
  omega

theorem fields_eq_of_magnitude_eq {a b : Word} (h : sig a * 2 ^ expf a = sig b * 2 ^ expf b) :
    expf a = expf b ∧ frac a = frac b := by
  have he := le_antisymm (expf_le_of_magnitude_eq h) (expf_le_of_magnitude_eq h.symm)
  rw [he] at h
  have hsig : sig a = sig b := Nat.eq_of_mul_eq_mul_right (by positivity) h
  exact ⟨he, Nat.add_left_cancel hsig⟩

/-- The exact sum is zero for exact sign-negations only. -/
theorem bitLevelValue_add_ne_zero {a b : Word} (h : a ^^^ b ≠ SIGN) : bitLevelValue a + bitLevelValue b ≠ 0 := by
  intro hzero
  have ha : 0 < sig a * 2 ^ expf a := Nat.mul_pos (Nat.zero_lt_of_lt (sig_ge a)) (by positivity)
  have hmag : sig a * 2 ^ expf a = sig b * 2 ^ expf b ∧ sign b = !sign a := by
    unfold bitLevelValue at hzero
    generalize sig a * 2 ^ expf a = m at *
    generalize sig b * 2 ^ expf b = n at *
    cases hsa : sign a <;> cases hsb : sign b <;> simp only [hsa, hsb, Bool.false_eq_true, if_true, if_false] at hzero <;>
      simp <;> omega
  obtain ⟨he, hf⟩ := fields_eq_of_magnitude_eq hmag.1
  have hb : b = a ^^^ SIGN := eq_of_fields (by simp [hmag.2]) (by simp [he]) (by simp [hf])
  exact h (by rw [hb, ← BitVec.xor_assoc, BitVec.xor_self, BitVec.zero_xor])

/-- Settles O32: the operand with the larger exponent field goes first, and the exact sum does not depend on the order. -/
theorem additionIsTheExactSumRounded : Obligations.AdditionIsTheExactSumRounded := by
  intro a b ha hb hza hzb hxor
  have hv := bitLevelValue_add_ne_zero hxor
  rw [add_general ha hb hza hzb hxor]
  split
  case isTrue hle => exact addOrdered_eq_roundExact hle hv
  case isFalse hlt =>
    rw [add_comm] at hv ⊢
    exact addOrdered_eq_roundExact (le_of_not_ge hlt) hv

/-- R153's commutativity, which O33's failure leaves standing: the shortcuts answer alike, and the exact sum is symmetric. -/
theorem add_comm_of_not_both_zero {a b : Word} (h : ¬ (isZero a = true ∧ isZero b = true)) : add a b = add b a := by
  by_cases hs : isSpecial a = true ∨ isSpecial b = true
  · rw [add_of_special hs, add_of_special hs.symm]
  obtain ⟨ha, hb⟩ : isSpecial a = false ∧ isSpecial b = false := by simpa using hs
  cases hza : isZero a with
  | true =>
    have hzb : isZero b = false := by simpa [hza] using h
    rw [add_of_isZero_left ha hb hza, add_of_isZero_right hb ha hzb hza]
  | false =>
    cases hzb : isZero b with
    | true => rw [add_of_isZero_right ha hb hza hzb, add_of_isZero_left hb ha hzb]
    | false =>
      by_cases hx : a ^^^ b = SIGN
      · rw [add_of_xor_eq_sign ha hb hza hzb hx, add_of_xor_eq_sign hb ha hzb hza (BitVec.xor_comm b a ▸ hx)]
      · rw [additionIsTheExactSumRounded a b ha hb hza hzb hx,
          additionIsTheExactSumRounded b a hb ha hzb hza (BitVec.xor_comm b a ▸ hx), Int.add_comm]

end Sys2Proof.Machine
end

section
/-! Fmul and the truncating product (spec/42_mul_div_pow.md R180, R181). -/

namespace Sys2Proof.Machine

/-! ### The shortcuts of R181, and the general path -/

theorem mul_of_special {a b : Word} (h : isSpecial a = true ∨ isSpecial b = true) : mul a b = SENT :=
  if_pos (Bool.or_eq_true_iff.2 h)

/-- The one renormalizing position of R181. -/
def renorm (a b : Word) : Nat := if 2 ^ 47 ≤ sig a * sig b then 1 else 0

theorem renorm_cases (a b : Word) :
    renorm a b = 1 ∧ 2 ^ 47 ≤ sig a * sig b ∨ renorm a b = 0 ∧ sig a * sig b < 2 ^ 47 := by
  unfold renorm
  split
  · exact .inl ⟨rfl, ‹_›⟩
  · exact .inr ⟨rfl, lt_of_not_ge ‹_›⟩

section NotSpecial
variable {a b : Word} (ha : isSpecial a = false) (hb : isSpecial b = false)
include ha hb

theorem mul_of_isZero (hz : isZero a = true ∨ isZero b = true) : mul a b = pack (sign a != sign b) 0 0 := by
  simp [mul, ha, hb, hz]

theorem mul_general (hza : isZero a = false) (hzb : isZero b = false) :
    mul a b = if expf a + expf b + renorm a b < 128 ∨ 381 < expf a + expf b + renorm a b then SENT
      else pack (sign a != sign b) (expf a + expf b + renorm a b - 127) (sig a * sig b / 2 ^ (23 + renorm a b)) := by
  simp only [mul, ha, hb, hza, hzb, Bool.or_self, Bool.false_eq_true, if_false, Nat.shiftRight_eq_div_pow]
  rcases renorm_cases a b with ⟨hc, hp⟩ | ⟨hc, hp⟩
  · simp only [hc, hp, if_true]
    exact if_congr (by omega) rfl (congrArg (pack _ · _) (by omega))
  · simp only [hc, Nat.not_le.2 hp, if_false]
    exact if_congr (by omega) rfl (congrArg (pack _ · _) (by omega))

end NotSpecial

/-- The product of two significands has 47 or 48 bits. -/
theorem sig_mul_sig_bounds (a b : Word) : 2 ^ 46 ≤ sig a * sig b ∧ sig a * sig b < 2 ^ 48 :=
  ⟨by simpa using Nat.mul_le_mul (sig_ge a) (sig_ge b), by simpa using Nat.mul_lt_mul'' (sig_lt a) (sig_lt b)⟩

theorem sig_pack {m : Nat} (s : Bool) (e : Nat) (hlo : 2 ^ 23 ≤ m) (hhi : m < 2 ^ 24) : sig (pack s e m) = m := by
  rw [sig, frac_pack]
  omega

/-- The renormalized product keeps 24 bits. -/
theorem truncated_bounds (a b : Word) : 2 ^ 23 ≤ sig a * sig b / 2 ^ (23 + renorm a b) ∧
    sig a * sig b / 2 ^ (23 + renorm a b) < 2 ^ 24 := by
  have hp := sig_mul_sig_bounds a b
  rcases renorm_cases a b with ⟨hc, h⟩ | ⟨hc, h⟩
  · rw [hc]; omega
  · rw [hc]; omega

theorem isZero_pack_zero (s : Bool) : isZero (pack s 0 0) = true := by
  simp [isZero_iff]

theorem mul_zero_of_isZero {a b : Word} (ha : isSpecial a = false) (hb : isSpecial b = false)
    (hz : isZero a = true ∨ isZero b = true) : isZero (mul a b) = true ∧ sign (mul a b) = (sign a != sign b) := by
  rw [mul_of_isZero ha hb hz]
  exact ⟨isZero_pack_zero _, sign_pack _ _ _⟩

/-- Settles O36: the general path packs the quotient of the product by its renormalizing position. -/
theorem multiplicationTruncatesTheProduct : Obligations.MultiplicationTruncatesTheProduct := by
  refine fun a b => ⟨mul_of_special, fun ha hb => ⟨mul_zero_of_isZero ha hb, fun hza hzb => ?_⟩⟩
  refine ⟨renorm a b, renorm_cases a b, ?_⟩
  rw [mul_general ha hb hza hzb]
  refine ⟨fun hout => if_pos hout, fun hlo hhi => ?_⟩
  obtain ⟨hm, hm'⟩ := truncated_bounds a b
  rw [if_neg (by omega), sig_pack _ _ hm hm', sign_pack, expf_pack]
  exact ⟨rfl, by omega, Nat.div_mul_le_self _ _, Nat.lt_mul_of_div_lt (Nat.lt_succ_self _) (by positivity)⟩

theorem fmul_writesOnly (rd ra rb : RegIdx) (s : State) :
    WritesOnly (.fmul rd ra rb) s rd (mul (readReg s ra) (readReg s rb)) :=
  writesOnly_of_exec rfl

/-- Settles O35: the frame is that of every register write, and 2.0 * 3.0 is evaluated. -/
theorem fmulWritesTheProduct : Obligations.FmulWritesTheProduct := by
  refine ⟨fmul_writesOnly, rfl, rfl, rfl, runsTo_of_writesOnly (i := .fmul 3 1 2) rfl fun s hs => ?_⟩
  have h1 : readReg s 1 = 0x40000000 := hs (1, 0x40000000) (by simp)
  have h2 : readReg s 2 = 0x40400000 := hs (2, 0x40400000) (by simp)
  have hprod : mul (readReg s 1) (readReg s 2) = 0x40C00000 := by rw [h1, h2]; decide
  exact hprod ▸ fmul_writesOnly 3 1 2 s

end Sys2Proof.Machine
end

section
/-! Pow, the repeated product and the negative count (spec/42_mul_div_pow.md R200 to R202). -/

namespace Sys2Proof.Machine

/-! ### The repeated product (R201) -/

theorem power_of_negative {n : Word} (a : Word) (h : n.getLsbD 31 = true) :
    power a n = .error .unsupportedOperation :=
  if_pos h

theorem power_zero (a : Word) : power a 0 = .ok ONE := rfl

/-- A count from 1 on: that many multiplications less one. -/
theorem power_ofNat_succ (a : Word) {n : Nat} (h : n + 1 < 2 ^ 31) :
    power a (BitVec.ofNat 32 (n + 1)) = .ok (mulRepeat a n a) := by
  have hn : (BitVec.ofNat 32 (n + 1)).toNat = n + 1 := by rw [BitVec.toNat_ofNat]; omega
  have hsign : (BitVec.ofNat 32 (n + 1)).getLsbD 31 = false := by
    rw [BitVec.getLsbD, hn]
    exact Nat.testBit_lt_two_pow h
  have hne : BitVec.ofNat 32 (n + 1) ≠ 0 := fun h0 => by simp [h0] at hn
  rw [power, hsign, if_neg Bool.false_ne_true, if_neg hne, hn, Nat.add_sub_cancel]

/-- R201's last multiplication, where `mulRepeat` peels off the first. -/
theorem mulRepeat_succ (a : Word) : ∀ (k : Nat) (r : Word), mulRepeat a (k + 1) r = mul (mulRepeat a k r) a
  | 0, _ => rfl
  | k + 1, r => mulRepeat_succ a k (mul r a)

theorem mulRepeat_one_one (k : Nat) : mulRepeat ONE k ONE = ONE := by
  induction k with
  | zero => rfl
  | succ k ih => rw [mulRepeat_succ, ih]; decide

theorem isSpecial_of_isZero {v : Word} (h : isZero v = true) : isSpecial v = false :=
  isSpecial_of_expf_ne (by rw [((isZero_iff v).1 h).1]; decide)

/-- Settles O38: by the number of multiplications that a count asks for. -/
theorem powerMultipliesRepeatedly : Obligations.PowerMultipliesRepeatedly := by
  refine ⟨fun a n h => power_of_negative a h, fun a => ⟨power_zero a, power_ofNat_succ a (n := 0) (by decide)⟩,
    fun a n hpos hn => ?_, fun a => mul_of_special (.inl (by decide)),
    fun r a hz ha => mul_zero_of_isZero (isSpecial_of_isZero hz) ha (.inl hz), fun n hn => ?_⟩
  · obtain ⟨k, rfl⟩ := Nat.exists_eq_add_of_le' hpos
    exact ⟨_, power_ofNat_succ a (by omega), mulRepeat_succ a k a ▸ power_ofNat_succ a hn⟩
  · cases n with
    | zero => exact power_zero _
    | succ k => exact (power_ofNat_succ ONE hn).trans (congrArg Except.ok (mulRepeat_one_one k))

theorem pow_writesOnly {rd ra : RegIdx} {imm : BitVec 19} {s : State} {v : Word}
    (h : power (readReg s ra) (immediateB imm) = .ok v) : WritesOnly (.pow rd ra imm) s rd v :=
  writesOnly_of_exec (by simp [exec, execPow, h, writeBackOrRaise, writeBack])

theorem immediateB_eq_ofNat (imm : BitVec 19) : immediateB imm = BitVec.ofNat 32 imm.toNat :=
  BitVec.eq_of_toNat_eq (by rw [immediateB_toNat, BitVec.toNat_ofNat]; omega)

/-- Settles O37: no immediate is a negative count, and 2.0 to the tenth is evaluated. -/
theorem powWritesThePower : Obligations.PowWritesThePower := by
  refine ⟨fun rd ra imm s => ?_, rfl, rfl, rfl, runsTo_of_writesOnly (i := .pow 2 1 10) rfl fun s hs => ?_⟩
  · obtain ⟨v, hv⟩ := power_immediate_ok (readReg s ra) imm
    exact ⟨v, immediateB_eq_ofNat imm ▸ hv, pow_writesOnly hv⟩
  · have h1 : readReg s 1 = 0x40000000 := hs (1, 0x40000000) (by simp)
    exact pow_writesOnly (by rw [h1]; rfl)

/-! ### The negative count (R202, R303) -/

theorem power_eq_error_iff (a n : Word) (c : FaultCode) :
    power a n = .error c ↔ c = .unsupportedOperation ∧ n.getLsbD 31 = true := by
  cases hn : n.getLsbD 31 with
  | true => simp [power_of_negative a hn, eq_comm]
  | false =>
    have hlt : n.toNat < 2 ^ 31 := not_le.1 (of_decide_eq_false (sign_eq n ▸ hn))
    obtain ⟨v, hv⟩ := power_ok_of_lt a n hlt
    simp [hv]

/-- R119: of the operations only power can fail. -/
theorem apply_ok_of_ne_power {op : AluOp} (h : op ≠ .power) (a b : Word) : ∃ v, apply op a b = .ok v := by
  cases op with
  | power => exact absurd rfl h
  | _ => exact ⟨_, rfl⟩

/-- R303: the one fault that a step enters is that of a word that selects no instruction. -/
theorem fault_code_of_step {s t : State} {r : FaultRecord} (h : step s = .next t) (hr : t.fault = some r) :
    r.code = .unknownOpcode := by
  obtain ⟨hf, w, -, he⟩ := stepEffect_of_step h
  cases he with
  | get _ => simp [hf] at hr
  | write v _ _ => simp [hf] at hr
  | raise _ => cases hr; rfl

/-- Settles O14: the power operation's own test decides, and the effects of a step leave one code. -/
theorem onlyANegativeCountIsUnsupported : Obligations.OnlyANegativeCountIsUnsupported := by
  refine ⟨fun a b => ?_, fun op a b c h => ?_, fun rd a b s hneg => ?_, fun s t r => fault_code_of_step⟩
  · simp [apply, power_eq_error_iff]
  · by_cases hop : op = .power
    · subst hop
      exact ⟨rfl, ((power_eq_error_iff a b c).1 h).1⟩
    · obtain ⟨v, hv⟩ := apply_ok_of_ne_power hop a b
      simp [hv] at h
  · rw [power_of_negative a hneg]
    rfl

end Sys2Proof.Machine
end

section
/-! The native unit's exact rationals: the logarithm and the nearest integer (spec/42_mul_div_pow.md R192). -/

namespace Sys2Proof.Machine

/-! ### The exact rational and its logarithm -/

theorem scaleRatio_div (num den : Nat) (k : Int) :
    ((scaleRatio num den k).1 / (scaleRatio num den k).2 : ℚ) = num / den / 2 ^ k := by
  unfold scaleRatio
  split
  case isTrue hk =>
    lift k to Nat using hk
    simp [div_div]
  case isFalse hk =>
    obtain ⟨n, rfl⟩ : ∃ n : Nat, k = -n := ⟨(-k).toNat, by omega⟩
    simp [div_eq_mul_inv, mul_right_comm]

theorem scaleRatio_den_pos {num den : Nat} (hd : 0 < den) (k : Int) : 0 < (scaleRatio num den k).2 := by
  unfold scaleRatio
  split
  · exact Nat.mul_pos hd (Nat.two_pow_pos _)
  · exact hd

/-- The difference of the two numbers' logarithms is at most one too large. -/
theorem log_ratio_bounds {num den : Nat} (hn : 0 < num) (hd : 0 < den) :
    (2 : ℚ) ^ ((num.log2 : Int) - den.log2 - 1) ≤ num / den ∧ (num / den : ℚ) < 2 ^ ((num.log2 : Int) - den.log2 + 1) := by
  have hnlo : (2 : ℚ) ^ num.log2 ≤ num := by exact_mod_cast Nat.log2_self_le hn.ne'
  have hnhi : (num : ℚ) < 2 ^ (num.log2 + 1) := by exact_mod_cast Nat.lt_log2_self
  have hdlo : (2 : ℚ) ^ den.log2 ≤ den := by exact_mod_cast Nat.log2_self_le hd.ne'
  have hdhi : (den : ℚ) < 2 ^ (den.log2 + 1) := by exact_mod_cast Nat.lt_log2_self
  have hd' : (0 : ℚ) < den := by exact_mod_cast hd
  constructor
  · calc (2 : ℚ) ^ ((num.log2 : Int) - den.log2 - 1) = 2 ^ num.log2 / 2 ^ (den.log2 + 1) := by
          rw [sub_sub, zpow_sub₀ two_ne_zero]; norm_cast
      _ ≤ num / den := div_le_div₀ (by positivity) hnlo hd' hdhi.le
  · calc (num / den : ℚ) < 2 ^ (num.log2 + 1) / 2 ^ den.log2 := div_lt_div₀ hnhi hdlo (by positivity) (by positivity)
      _ = 2 ^ ((num.log2 : Int) - den.log2 + 1) := by
          rw [sub_add_eq_add_sub, zpow_sub₀ two_ne_zero]; norm_cast

/-- R192's `floor(log2(q))`. -/
theorem ratioLog2_eq_log {num den : Nat} (hn : 0 < num) (hd : 0 < den) :
    ratioLog2 num den = Int.log 2 (num / den : ℚ) := by
  have hq : (0 : ℚ) < num / den := by positivity
  obtain ⟨hlo, hhi⟩ := log_ratio_bounds hn hd
  rw [← Nat.cast_two, Int.zpow_le_iff_le_log one_lt_two hq] at hlo
  rw [← Nat.cast_two, Int.lt_zpow_iff_log_lt one_lt_two hq] at hhi
  have htest : (scaleRatio num den (num.log2 - den.log2)).2 ≤ (scaleRatio num den (num.log2 - den.log2)).1 ↔
      ((2 : Nat) : ℚ) ^ ((num.log2 : Int) - den.log2) ≤ num / den := by
    have hden : (0 : ℚ) < (scaleRatio num den (num.log2 - den.log2)).2 := by exact_mod_cast scaleRatio_den_pos hd _
    rw [← Nat.cast_le (α := ℚ), ← one_le_div hden, scaleRatio_div, one_le_div (by positivity), Nat.cast_two]
  simp only [ratioLog2, htest, Int.zpow_le_iff_le_log one_lt_two hq]
  split <;> omega

/-! ### The nearest integer -/

/-- `m` is the integer nearest to `y`, the even one of two. -/
def NearestEven (y : ℚ) (m : Nat) : Prop := |m - y| ≤ 1 / 2 ∧ (|m - y| = 1 / 2 → m % 2 = 0)

/-- A distance to a rational, in units of its denominator. -/
theorem abs_sub_div_mul (m num : Nat) {den : Nat} (hd : 0 < den) :
    |(m : ℚ) - num / den| * den = (|(m * den - num : Int)| : Int) := by
  have hd' : (0 : ℚ) < den := by exact_mod_cast hd
  push_cast
  rw [← abs_of_pos hd', ← abs_mul, abs_of_pos hd', sub_mul, div_mul_cancel₀ _ hd'.ne']

theorem nearestEven_div_iff (m num : Nat) {den : Nat} (hd : 0 < den) : NearestEven (num / den) m ↔
    |(m * den - num : Int)| * 2 ≤ den ∧ (|(m * den - num : Int)| * 2 = den → m % 2 = 0) := by
  have hd' : (0 : ℚ) < den := by exact_mod_cast hd
  rw [NearestEven, eq_div_of_mul_eq hd'.ne' (abs_sub_div_mul m num hd), div_le_div_iff₀ hd' two_pos,
    div_eq_div_iff hd'.ne' two_ne_zero]
  norm_cast
  simp only [one_mul]

theorem nearestEven_spec (num : Nat) {den : Nat} (hd : 0 < den) : NearestEven (num / den) (nearestEven num den) := by
  rw [nearestEven_div_iff _ _ hd]
  have hlt := Nat.mod_lt num hd
  have hdiv : (num : Int) = (num / den : Nat) * den + (num % den : Nat) := by exact_mod_cast (Nat.div_add_mod' num den).symm
  simp only [nearestEven]
  split
  · have habs : |(((num / den + 1 : Nat) : Int) * den - num)| = den - (num % den : Nat) := by
      rw [hdiv, Nat.cast_succ, add_mul, one_mul, add_sub_add_left_eq_sub, abs_of_nonneg (by omega)]
    omega
  · have habs : |(((num / den : Nat) : Int) * den - num)| = (num % den : Nat) := by
      rw [hdiv, sub_add_cancel_left, abs_neg, abs_of_nonneg (by omega)]
    omega

namespace NearestEven
variable {y : ℚ} {m : Nat} (h : NearestEven y m)
include h

/-- No integer is nearer, and another one as near makes `m` even. -/
theorem abs_le (c : Int) : |m - y| ≤ |c - y| ∧ (|m - y| = |c - y| → c = m ∨ m % 2 = 0) := by
  obtain ⟨hnear, heven⟩ := h
  by_cases hc : c = m
  · subst hc
    exact ⟨le_rfl, fun _ => .inl rfl⟩
  have hone : (1 : ℚ) ≤ |(c : ℚ) - (m : ℚ)| := by exact_mod_cast Int.one_le_abs (sub_ne_zero.2 hc)
  have htri : |(c : ℚ) - (m : ℚ)| ≤ |c - y| + |m - y| := by
    rw [abs_sub_comm (m : ℚ) y]
    exact abs_sub_le _ _ _
  exact ⟨by linarith, fun heq => .inr (heven (by linarith))⟩

theorem le_of_natCast_le {c : Nat} (hc : c ≤ y) : c ≤ m := by
  by_contra hlt
  have h1 : (m : ℚ) + 1 ≤ c := by exact_mod_cast not_le.1 hlt
  have := neg_le_of_abs_le h.1
  linarith

theorem le_of_lt_natCast {c : Nat} (hc : y < c) : m ≤ c := by
  by_contra hlt
  have h1 : (c : ℚ) + 1 ≤ m := by exact_mod_cast not_le.1 hlt
  have := le_of_abs_le h.1
  linarith

/-- An even number above `y` is the nearest from the half below it on. -/
theorem eq_even_iff {c : Nat} (hc : c % 2 = 0) (hy : y < c) : m = c ↔ c - 1 / 2 ≤ y := by
  have hle := h.le_of_lt_natCast hy
  obtain ⟨hnear, heven⟩ := h
  constructor
  · rintro rfl
    have := le_of_abs_le hnear
    linarith
  · intro hhalf
    by_contra hne
    have hm : (m : ℚ) + 1 ≤ c := by exact_mod_cast Nat.lt_of_le_of_ne hle hne
    have hdist : (m : ℚ) - y = -(1 / 2) := by
      have := neg_le_of_abs_le hnear
      linarith
    have hc' : c = m + 1 := by
      have : (c : ℚ) ≤ (m + 1 : Nat) := by push_cast; linarith
      exact le_antisymm (by exact_mod_cast this) (by exact_mod_cast hm)
    have := heven (by rw [hdist]; norm_num)
    omega

end NearestEven

end Sys2Proof.Machine
end

section
/-! IEEE-754 rounding of an exact positive rational (spec/42_mul_div_pow.md R190 to R192). A finite magnitude counts units of
2^-149, the weight of the lowest bit of a subnormal. -/

namespace Sys2Proof.Machine

/-! ### The unit and the significand of a rounding -/

/-- R192's `E` and `m` for a value of `x` units: `m` multiples of 2^k (k = E + 126), with 24 bits unless `k` is the exponent of
the subnormals. -/
structure Rounding (x : ℚ) (k m : Nat) : Prop where
  upper : x < 2 ^ (k + 24)
  lower : k = 0 ∨ 2 ^ (k + 23) ≤ x
  near : NearestEven (x / 2 ^ k) m

/-- The number of the non-negative pattern of `m * 2^k` units, the infinity's from 2^128 on. -/
def roundedNumber (k m : Nat) : Nat := min (k * 2 ^ 23 + m) (255 * 2 ^ 23)

/-- The unit is a power of two not below the lowest one. -/
theorem exists_unit {q : ℚ} (hq : 0 < q) : ∃ k : Nat, max (Int.log 2 q) (-126) = k - 126 ∧
    q * 2 ^ 149 < 2 ^ (k + 24) ∧ (k = 0 ∨ 2 ^ (k + 23) ≤ q * 2 ^ 149) := by
  obtain ⟨k, hk⟩ : ∃ k : Nat, max (Int.log 2 q) (-126) = k - 126 := ⟨(max (Int.log 2 q) (-126) + 126).toNat, by omega⟩
  have hpow (n : Nat) : (2 : ℚ) ^ (k + n) = 2 ^ ((k : Int) + n - 149) * 2 ^ 149 := by
    rw [zpow_sub₀ two_ne_zero]
    norm_cast
    field_simp
  refine ⟨k, hk, ?_, ?_⟩
  · rw [hpow, mul_lt_mul_iff_left₀ (by positivity)]
    exact_mod_cast (Int.lt_zpow_iff_log_lt one_lt_two hq).2 (show Int.log 2 q < k + (24 : Nat) - 149 by omega)
  · refine or_iff_not_imp_left.2 fun h0 => ?_
    rw [hpow, mul_le_mul_iff_left₀ (by positivity)]
    exact_mod_cast (Int.zpow_le_iff_le_log one_lt_two hq).2 (show (k : Int) + (23 : Nat) - 149 ≤ Int.log 2 q by omega)

namespace Rounding
variable {x : ℚ} {k m : Nat} (h : Rounding x k m)
include h

theorem m_le : m ≤ 2 ^ 24 := by
  refine h.near.le_of_lt_natCast ?_
  rw [div_lt_iff₀ (by positivity)]
  calc x < 2 ^ (k + 24) := h.upper
    _ = (2 ^ 24 : Nat) * 2 ^ k := by push_cast; ring

theorem k_eq_zero_or_le_m : k = 0 ∨ 2 ^ 23 ≤ m := by
  refine h.lower.imp_right fun hx => h.near.le_of_natCast_le ?_
  rw [le_div_iff₀ (by positivity)]
  calc ((2 ^ 23 : Nat) : ℚ) * 2 ^ k = 2 ^ (k + 23) := by push_cast; ring
    _ ≤ x := hx

/-- No multiple of the unit is nearer, and another one as near makes `m` even. -/
theorem abs_le_multiple (c : Int) : |m * 2 ^ k - x| ≤ |c * 2 ^ k - x| ∧
    (|m * 2 ^ k - x| = |c * 2 ^ k - x| → c = m ∨ m % 2 = 0) := by
  have hpos : (0 : ℚ) < 2 ^ k := by positivity
  have hunits (t : ℚ) : |t * 2 ^ k - x| = |t - x / 2 ^ k| * 2 ^ k := by
    rw [← abs_of_pos hpos, ← abs_mul, abs_of_pos hpos, sub_mul, div_mul_cancel₀ _ hpos.ne']
  rw [hunits, hunits, mul_le_mul_iff_left₀ hpos, mul_left_inj' hpos.ne']
  exact h.near.abs_le c

/-- No number of a coarser or equal grid, or below the 24-bit multiples of the unit, is nearer. -/
theorem abs_le {n : Nat} (hn : 2 ^ k ∣ n ∨ n < 2 ^ (k + 23)) : |m * 2 ^ k - x| ≤ |n - x| ∧
    (|m * 2 ^ k - x| = |n - x| → n = m * 2 ^ k ∨ m % 2 = 0) := by
  by_cases hdvd : 2 ^ k ∣ n
  · obtain ⟨c, rfl⟩ := hdvd
    have hc := h.abs_le_multiple c
    push_cast at hc ⊢
    rw [mul_comm (2 ^ k : ℚ)]
    refine ⟨hc.1, fun heq => (hc.2 heq).imp_left fun hcm => ?_⟩
    rw [mul_comm, Int.ofNat_inj.1 hcm]
  · have hlt : (n : ℚ) < 2 ^ (k + 23) := by exact_mod_cast hn.resolve_left hdvd
    have hx : 2 ^ (k + 23) ≤ x := h.lower.resolve_left fun h0 => hdvd (by simp [h0])
    have hbinade := (h.abs_le_multiple (2 ^ 23)).1
    have hcast : (((2 ^ 23 : Int) : ℚ) * 2 ^ k) = 2 ^ (k + 23) := by push_cast; ring
    rw [hcast, abs_of_nonpos (by linarith : (2 : ℚ) ^ (k + 23) - x ≤ 0)] at hbinade
    rw [abs_of_neg (by linarith : (n : ℚ) - x < 0)]
    exact ⟨by linarith, fun heq => by linarith⟩

/-- R192's overflow: from half a unit past the largest finite magnitude on. -/
theorem roundedNumber_eq_iff : roundedNumber k m = 255 * 2 ^ 23 ↔ (2 ^ 25 - 1) * 2 ^ 252 ≤ x := by
  have hm := h.m_le
  have hk := h.k_eq_zero_or_le_m
  rcases lt_trichotomy k 253 with hlt | rfl | hgt
  · have hup : x < (2 ^ 25 - 1) * 2 ^ 252 := calc
      x < 2 ^ (k + 24) := h.upper
      _ ≤ 2 ^ (252 + 24) := pow_le_pow_right₀ one_le_two (by omega)
      _ = 2 ^ 24 * 2 ^ 252 := by rw [pow_add, mul_comm]
      _ ≤ (2 ^ 25 - 1) * 2 ^ 252 := by gcongr; norm_num
    simp only [hup.not_ge, iff_false, roundedNumber]
    omega
  · have hbelow : x / 2 ^ 253 < (2 ^ 24 : Nat) := by
      rw [div_lt_iff₀ (by positivity)]
      exact h.upper.trans_eq (by rw [pow_add, mul_comm]; norm_num)
    have hcarry : roundedNumber 253 m = 255 * 2 ^ 23 ↔ m = 2 ^ 24 := by
      unfold roundedNumber
      omega
    rw [hcarry, h.near.eq_even_iff (by decide) hbelow, le_div_iff₀ (by positivity)]
    norm_num
  · have hlow : (2 ^ 25 - 1) * 2 ^ 252 ≤ x := calc
      ((2 ^ 25 - 1) * 2 ^ 252 : ℚ) ≤ 2 ^ 25 * 2 ^ 252 := by gcongr; norm_num
      _ = 2 ^ (254 + 23) := by rw [← pow_add]
      _ ≤ 2 ^ (k + 23) := pow_le_pow_right₀ one_le_two (by omega)
      _ ≤ x := h.lower.resolve_left (by omega)
    simp only [hlow, iff_true, roundedNumber]
    omega

end Rounding

/-! ### The classes and the magnitude of a pattern (R191) -/

theorem ieeeClass_eq_nan_iff (v : Word) : ieeeClass v = .nan ↔ expf v = 255 ∧ frac v ≠ 0 := by
  unfold ieeeClass
  split_ifs <;> simp_all

theorem ieeeClass_eq_inf_iff (v : Word) : ieeeClass v = .inf ↔ expf v = 255 ∧ frac v = 0 := by
  unfold ieeeClass
  split_ifs <;> simp_all

theorem ieeeMag_pos_of_finite {v : Word} (h : ieeeClass v = .finite) : 0 < ieeeMag v := by
  unfold ieeeMag
  split
  · refine Nat.pos_of_ne_zero fun hf => ?_
    simp_all [ieeeClass]
  · positivity

/-- Every magnitude is on the grid of a unit, or below its 24-bit multiples. -/
theorem ieeeMag_on_grid (p : Word) (k : Nat) : 2 ^ k ∣ ieeeMag p ∨ ieeeMag p < 2 ^ (k + 23) := by
  have hf := frac_lt p
  unfold ieeeMag
  split
  · exact .inr (hf.trans_le (Nat.pow_le_pow_right (by decide) (by omega)))
  rcases le_or_gt k (expf p - 1) with hle | hlt
  · exact .inl ((pow_dvd_pow 2 hle).mul_left _)
  · refine .inr ?_
    calc (2 ^ 23 + frac p) * 2 ^ (expf p - 1) < 2 ^ 24 * 2 ^ (expf p - 1) :=
          Nat.mul_lt_mul_of_pos_right (by omega) (by positivity)
      _ = 2 ^ (expf p - 1 + 24) := by rw [add_comm, pow_add]
      _ ≤ 2 ^ (k + 23) := Nat.pow_le_pow_right (by decide) (by omega)

/-! ### The rounded pattern -/

theorem pack_congr {s : Bool} {e e' m m' : Nat} (he : e % 2 ^ 8 = e' % 2 ^ 8) (hm : m % 2 ^ 23 = m' % 2 ^ 23) :
    pack s e m = pack s e' m' :=
  eq_of_fields (by simp) (by simpa using he) (by simpa using hm)

/-- A sign over the number of a non-negative pattern. -/
def packNumber (s : Bool) (n : Nat) : Word := pack s (n / 2 ^ 23) n

/-- R192: the exact positive rational has a rounding, and the result is the pattern of its number. -/
theorem exists_rounding (s : Bool) {num den : Nat} (hn : 0 < num) (hd : 0 < den) :
    ∃ k m, Rounding ((num * 2 ^ 149 : Nat) / den) k m ∧ ieeeRound s num den = packNumber s (roundedNumber k m) := by
  have hq : (0 : ℚ) < num / den := by positivity
  have hx : (((num * 2 ^ 149 : Nat) : ℚ) / den) = num / den * 2 ^ 149 := by push_cast; ring
  obtain ⟨k, he, hupper, hlower⟩ := exists_unit hq
  rw [← hx] at hupper hlower
  have hnear := nearestEven_spec (scaleRatio num den (k - 126 - 23)).1 (scaleRatio_den_pos (num := num) hd (k - 126 - 23))
  have hscale : (num / den / 2 ^ ((k : Int) - 126 - 23) : ℚ) = (num * 2 ^ 149 : Nat) / den / 2 ^ k := by
    rw [hx, sub_sub, zpow_sub₀ two_ne_zero]
    norm_cast
    field_simp
  rw [scaleRatio_div, hscale] at hnear
  have hround : Rounding _ k _ := ⟨hupper, hlower, hnear⟩
  refine ⟨k, _, hround, ?_⟩
  have hm := hround.m_le
  have hk := hround.k_eq_zero_or_le_m
  simp only [ieeeRound, ratioLog2_eq_log hn hd, he]
  generalize nearestEven _ _ = m at *
  unfold packNumber roundedNumber
  rcases Nat.lt_or_ge m (2 ^ 23) with hsub | hnormal
  · simp only [if_neg (show m ≠ 2 ^ 24 by omega), if_pos hsub]
    exact pack_congr (by omega) (by omega)
  · split_ifs <;> exact pack_congr (by omega) (by omega)

theorem expf_packNumber {s : Bool} {n : Nat} (hn : n ≤ 255 * 2 ^ 23) : expf (packNumber s n) = n / 2 ^ 23 := by
  rw [packNumber, expf_pack]
  omega

@[simp] theorem sign_packNumber (s : Bool) (n : Nat) : sign (packNumber s n) = s := sign_pack _ _ _

@[simp] theorem frac_packNumber (s : Bool) (n : Nat) : frac (packNumber s n) = n % 2 ^ 23 := frac_pack _ _ _

theorem ieeeMag_packNumber {s : Bool} {k m : Nat} (hm : m ≤ 2 ^ 24) (hk : k = 0 ∨ 2 ^ 23 ≤ m)
    (hn : k * 2 ^ 23 + m < 255 * 2 ^ 23) : ieeeMag (packNumber s (k * 2 ^ 23 + m)) = m * 2 ^ k := by
  unfold ieeeMag
  rw [expf_packNumber hn.le, frac_packNumber]
  rcases Nat.lt_or_ge m (2 ^ 23) with hsub | hnormal
  · obtain rfl : k = 0 := by omega
    rw [if_pos (by omega)]
    omega
  rcases Nat.eq_or_lt_of_le hm with rfl | hlt
  · rw [if_neg (by omega), show (k * 2 ^ 23 + 2 ^ 24) / 2 ^ 23 - 1 = k + 1 by omega,
      show (k * 2 ^ 23 + 2 ^ 24) % 2 ^ 23 = 0 by omega]
    ring
  · rw [if_neg (by omega), show (k * 2 ^ 23 + m) / 2 ^ 23 - 1 = k by omega,
      show 2 ^ 23 + (k * 2 ^ 23 + m) % 2 ^ 23 = m by omega]

theorem roundedNumber_le (k m : Nat) : roundedNumber k m ≤ 255 * 2 ^ 23 := min_le_right _ _

section
variable (s : Bool) {num den : Nat} (hn : 0 < num) (hd : 0 < den)
include hn hd

theorem sign_ieeeRound : sign (ieeeRound s num den) = s := by
  obtain ⟨k, m, -, hr⟩ := exists_rounding s hn hd
  rw [hr, sign_packNumber]

theorem ieeeClass_ieeeRound_ne_nan : ieeeClass (ieeeRound s num den) ≠ .nan := by
  obtain ⟨k, m, -, hr⟩ := exists_rounding s hn hd
  have hle := roundedNumber_le k m
  rw [hr, Ne, ieeeClass_eq_nan_iff, expf_packNumber hle, frac_packNumber]
  omega

theorem ieeeClass_ieeeRound_eq_inf_iff :
    ieeeClass (ieeeRound s num den) = .inf ↔ den * ((2 ^ 25 - 1) * 2 ^ 252) ≤ num * 2 ^ 149 := by
  obtain ⟨k, m, h, hr⟩ := exists_rounding s hn hd
  have hle := roundedNumber_le k m
  have hd' : (0 : ℚ) < den := by exact_mod_cast hd
  have hinf : ieeeClass (ieeeRound s num den) = .inf ↔ roundedNumber k m = 255 * 2 ^ 23 := by
    rw [hr, ieeeClass_eq_inf_iff, expf_packNumber hle, frac_packNumber]
    omega
  rw [hinf, h.roundedNumber_eq_iff, le_div_iff₀ hd', mul_comm den, ← Nat.cast_le (α := ℚ)]
  norm_num

/-- A finite result is `m * 2^k` units. -/
theorem ieeeRound_finite (hfin : ieeeClass (ieeeRound s num den) ≠ .inf) :
    ∃ k m, Rounding ((num * 2 ^ 149 : Nat) / den) k m ∧ ieeeMag (ieeeRound s num den) = m * 2 ^ k ∧
      frac (ieeeRound s num den) % 2 = m % 2 := by
  obtain ⟨k, m, h, hr⟩ := exists_rounding s hn hd
  refine ⟨k, m, h, ?_⟩
  rw [hr, Ne, ieeeClass_eq_inf_iff, expf_packNumber (roundedNumber_le k m), frac_packNumber] at hfin
  have hlt : k * 2 ^ 23 + m < 255 * 2 ^ 23 := by
    unfold roundedNumber at hfin
    omega
  rw [hr, roundedNumber, min_eq_left hlt.le, ieeeMag_packNumber h.m_le h.k_eq_zero_or_le_m hlt, frac_packNumber]
  exact ⟨rfl, by omega⟩

/-- R190, R192: no pattern is nearer to the exact rational, and a tie goes to an even significand. -/
theorem ieeeRound_nearest (hfin : ieeeClass (ieeeRound s num den) ≠ .inf) (p : Word) :
    |(ieeeMag (ieeeRound s num den) * den : Int) - num * 2 ^ 149| ≤ |(ieeeMag p * den : Int) - num * 2 ^ 149| ∧
    (|(ieeeMag (ieeeRound s num den) * den : Int) - num * 2 ^ 149| = |(ieeeMag p * den : Int) - num * 2 ^ 149| →
      ieeeMag p = ieeeMag (ieeeRound s num den) ∨ frac (ieeeRound s num den) % 2 = 0) := by
  obtain ⟨k, m, h, hmag, hparity⟩ := ieeeRound_finite s hn hd hfin
  have hd' : (0 : ℚ) < den := by exact_mod_cast hd
  have hdist (n : Nat) : ((|(n * den : Int) - num * 2 ^ 149| : Int) : ℚ) = |(n : ℚ) - (num * 2 ^ 149 : Nat) / den| * den := by
    rw [abs_sub_div_mul n _ hd]
    norm_cast
  have hnear := h.abs_le (ieeeMag_on_grid p k)
  rw [hmag, hparity, ← Int.cast_le (R := ℚ), ← Int.cast_inj (α := ℚ), hdist, hdist, mul_le_mul_iff_left₀ hd',
    mul_left_inj' hd'.ne']
  exact_mod_cast hnear

end

end Sys2Proof.Machine
end

section
/-! Fdiv (spec/42_mul_div_pow.md R185, R193, R196). -/

namespace Sys2Proof.Machine

/-! ### The rows of R193 -/

theorem ieeeClass_nativeNan (call : Config.NativeCall) : ieeeClass (nativeNan call) = .nan :=
  (ieeeClass_eq_nan_iff _).2 (nativeNan_fields call)

theorem ieeeDiv_nan {a b : Word} (h : ieeeClass a = .nan ∨ ieeeClass b = .nan ∨ (ieeeClass a = .inf ∧ ieeeClass b = .inf) ∨
    (ieeeClass a = .zero ∧ ieeeClass b = .zero)) : ieeeDiv a b = nativeNan (.divide a b) := by
  rcases h with ha | hb | ⟨ha, hb⟩ | ⟨ha, hb⟩
  · simp [ieeeDiv, ha]
  · cases ha : ieeeClass a <;> simp [ieeeDiv, ha, hb]
  · simp [ieeeDiv, ha, hb]
  · simp [ieeeDiv, ha, hb]

theorem ieeeDiv_inf {a b : Word} (h : (ieeeClass a = .inf ∧ (ieeeClass b = .zero ∨ ieeeClass b = .finite)) ∨
    (ieeeClass a = .finite ∧ ieeeClass b = .zero)) : ieeeDiv a b = pack (sign a != sign b) 0xFF 0 := by
  rcases h with ⟨ha, hb | hb⟩ | ⟨ha, hb⟩ <;> simp [ieeeDiv, ha, hb]

theorem ieeeDiv_zero {a b : Word} (h : ((ieeeClass a = .zero ∨ ieeeClass a = .finite) ∧ ieeeClass b = .inf) ∨
    (ieeeClass a = .zero ∧ ieeeClass b = .finite)) : ieeeDiv a b = pack (sign a != sign b) 0 0 := by
  rcases h with ⟨ha | ha, hb⟩ | ⟨ha, hb⟩ <;> simp [ieeeDiv, ha, hb]

theorem ieeeDiv_finite {a b : Word} (ha : ieeeClass a = .finite) (hb : ieeeClass b = .finite) :
    ieeeDiv a b = ieeeRound (sign a != sign b) (ieeeMag a) (ieeeMag b) := by
  simp [ieeeDiv, ha, hb]

theorem ieeeClass_ieeeDiv_of_nan {a b : Word} (h : ieeeClass a = .nan ∨ ieeeClass b = .nan) :
    ieeeClass (ieeeDiv a b) = .nan := by
  rw [ieeeDiv_nan (h.imp_right .inl), ieeeClass_nativeNan]

theorem pack_inf (s t : Bool) : pack (s != t) 0xFF 0 = if s = t then 0x7F800000 else 0xFF800000 := by
  decide +revert

theorem pack_zero (s t : Bool) : pack (s != t) 0 0 = if s = t then 0x00000000 else 0x80000000 := by
  decide +revert

/-- Settles O40: a row produces a NaN, the signed infinity or the signed zero. -/
theorem divisionOfSpecialClasses : Obligations.DivisionOfSpecialClasses := by
  refine fun a b => ⟨fun h => ?_, fun h => ?_, fun h => ?_⟩
  · rw [ieeeDiv_nan h, ieeeClass_nativeNan]
  · rw [ieeeDiv_inf h, pack_inf]
  · rw [ieeeDiv_zero h, pack_zero]

/-- Settles O41: the quotient of the magnitudes is a positive rational, rounded by R192. -/
theorem divisionIsCorrectlyRounded : Obligations.DivisionIsCorrectlyRounded := by
  intro a b ha hb
  have hna := ieeeMag_pos_of_finite ha
  have hnb := ieeeMag_pos_of_finite hb
  rw [ieeeDiv_finite ha hb]
  exact ⟨sign_ieeeRound _ hna hnb, ieeeClass_ieeeRound_ne_nan _ hna hnb, ieeeClass_ieeeRound_eq_inf_iff _ hna hnb,
    fun hfin p _ => ieeeRound_nearest _ hna hnb hfin p⟩

theorem fdiv_writesOnly (rd ra rb : RegIdx) (s : State) :
    WritesOnly (.fdiv rd ra rb) s rd (ieeeDiv (readReg s ra) (readReg s rb)) :=
  writesOnly_of_exec rfl

/-- Settles O39: the sentinel is of the NaN class, and 1.0 / 3.0 is evaluated. -/
theorem fdivWritesTheQuotient : Obligations.FdivWritesTheQuotient := by
  have hsent : ieeeClass 0xFFFFFFFF = .nan := by decide
  refine ⟨fdiv_writesOnly, rfl, fun b => ⟨ieeeClass_ieeeDiv_of_nan (.inl hsent), ieeeClass_ieeeDiv_of_nan (.inr hsent)⟩,
    runsTo_of_writesOnly (i := .fdiv 3 1 2) rfl fun s hs => ?_⟩
  have h1 : readReg s 1 = 0x3F800000 := hs (1, 0x3F800000) (by simp)
  have h2 : readReg s 2 = 0x40400000 := hs (2, 0x40400000) (by simp)
  have hquot : ieeeDiv (readReg s 1) (readReg s 2) = 0x3EAAAAAB := by rw [h1, h2]; decide
  exact hquot ▸ fdiv_writesOnly 3 1 2 s

end Sys2Proof.Machine
end

section
/-! Fneg, Finv and Fabs (spec/43_sign_minmax.md R220 to R222), and the worked examples of instructions that apply a function to
one operand or to two. -/

namespace Sys2Proof.Machine

theorem runsTo_of_one_operand {w : Word} {i : Instr} {rd ra : RegIdx} {f : Word → Word} {a v : Word}
    (hw : ∀ s, WritesOnly i s rd (f (readReg s ra))) (hd : decode w = .ok i) (hv : f a = v) :
    RunsTo w [(ra, a)] rd v :=
  runsTo_of_writesOnly hd fun s hs => by
    have ha : readReg s ra = a := hs (ra, a) (by simp)
    exact hv ▸ ha ▸ hw s

theorem runsTo_of_two_operands {w : Word} {i : Instr} {rd ra rb : RegIdx} {f : Word → Word → Word} {a b v : Word}
    (hw : ∀ s, WritesOnly i s rd (f (readReg s ra) (readReg s rb))) (hd : decode w = .ok i) (hv : f a b = v) :
    RunsTo w [(ra, a), (rb, b)] rd v :=
  runsTo_of_writesOnly hd fun s hs => by
    have ha : readReg s ra = a := hs (ra, a) (by simp)
    have hb : readReg s rb = b := hs (rb, b) (by simp)
    exact hv ▸ ha ▸ hb ▸ hw s

/-! ### The three operations on patterns -/

theorem inverse_eq_negate (a : Word) : inverse a = negate a := rfl

theorem negate_negate (a : Word) : negate (negate a) = a := by
  rw [negate, negate, BitVec.xor_assoc, BitVec.xor_self, BitVec.xor_zero]

theorem absolute_absolute (a : Word) : absolute (absolute a) = absolute a := by
  rw [absolute, absolute, BitVec.and_assoc, BitVec.and_self]

/-! ### The instructions -/

theorem fneg_writesOnly (rd ra : RegIdx) (s : State) : WritesOnly (.fneg rd ra) s rd (negate (readReg s ra)) :=
  writesOnly_of_exec rfl

theorem finv_writesOnly (rd ra : RegIdx) (s : State) : WritesOnly (.finv rd ra) s rd (inverse (readReg s ra)) :=
  writesOnly_of_exec rfl

theorem fabs_writesOnly (rd ra : RegIdx) (s : State) : WritesOnly (.fabs rd ra) s rd (absolute (readReg s ra)) :=
  writesOnly_of_exec rfl

/-- Settles O44: the fields of a pattern with its sign flipped, and with its sign cleared. -/
theorem signOperationsTouchOnlyTheSignBit : Obligations.SignOperationsTouchOnlyTheSignBit := by
  refine ⟨fun rd ra s => ⟨_, fneg_writesOnly rd ra s, inverse_eq_negate (readReg s ra) ▸ finv_writesOnly rd ra s,
      sign_xor_sign _, expf_xor_sign _, frac_xor_sign _⟩,
    fun rd ra s => ⟨_, fabs_writesOnly rd ra s, sign_and_abs _, expf_and_abs _, frac_and_abs _⟩,
    fun a => ⟨negate_negate a, absolute_absolute a⟩,
    rfl, rfl, rfl, rfl, rfl, rfl, rfl, rfl, rfl, rfl, rfl, rfl, ?_, ?_, ?_⟩
  · exact runsTo_of_one_operand (fneg_writesOnly 2 1) rfl rfl
  · exact runsTo_of_one_operand (finv_writesOnly 2 1) rfl rfl
  · exact runsTo_of_one_operand (fabs_writesOnly 2 1) rfl rfl

end Sys2Proof.Machine
end

section
/-! The order of Min and Max (spec/43_sign_minmax.md R223): `less` compares the places of two patterns among the integers. -/

namespace Sys2Proof.Machine

/-! ### The 31-bit magnitude -/

theorem toNat_extractLsb'_eq_and_abs (v : Word) : (v.extractLsb' 0 31).toNat = (v &&& ABS).toNat := by
  rw [BitVec.extractLsb'_toNat, toNat_and_abs, Nat.shiftRight_zero]

theorem toNat_and_abs_lt (v : Word) : (v &&& ABS).toNat < 2 ^ 31 := by
  rw [toNat_and_abs]
  exact Nat.mod_lt _ (by decide)

theorem toNat_and_abs_eq_fields (v : Word) : (v &&& ABS).toNat = expf v * 2 ^ 23 + frac v := by
  simpa using toNat_eq_fields (v &&& ABS)

/-- R223: "comparing exponent then mantissa is comparing the 31-bit magnitudes". -/
theorem magnitude_lt_iff (a b : Word) : (a &&& ABS).toNat < (b &&& ABS).toNat ↔
    if expf a = expf b then frac a < frac b else expf a < expf b := by
  have ha := frac_lt a
  have hb := frac_lt b
  rw [toNat_and_abs_eq_fields, toNat_and_abs_eq_fields]
  split <;> omega

theorem less_of_sign_ne {a b : Word} (h : sign a ≠ sign b) : less a b = sign a := by
  simp [less, h]

theorem less_iff_of_nonnegative {a b : Word} (ha : sign a = false) (hb : sign b = false) :
    less a b = true ↔ (a &&& ABS).toNat < (b &&& ABS).toNat := by
  rw [magnitude_lt_iff]
  by_cases he : expf a = expf b
  · simp +contextual [less, ha, hb, he, Nat.ne_of_lt]
  · simp [less, ha, hb, he]

theorem less_iff_of_negative {a b : Word} (ha : sign a = true) (hb : sign b = true) :
    less a b = true ↔ (b &&& ABS).toNat < (a &&& ABS).toNat := by
  rw [magnitude_lt_iff]
  by_cases he : expf a = expf b
  · simp +contextual [less, ha, hb, he, Nat.ne_of_gt]
  · simp [less, ha, hb, he, Ne.symm he]

/-! ### The place of a pattern in the order -/

/-- The negative patterns downwards from -1 and the others upwards from 0, each by its magnitude. -/
def orderPlace (v : Word) : Int := if sign v then -1 - (v &&& ABS).toNat else (v &&& ABS).toNat

theorem orderPlace_of_negative {v : Word} (h : sign v = true) : orderPlace v = -1 - (v &&& ABS).toNat := if_pos h

theorem orderPlace_of_nonnegative {v : Word} (h : sign v = false) : orderPlace v = (v &&& ABS).toNat := by
  simp [orderPlace, h]

theorem orderPlace_range (v : Word) : -2 ^ 31 ≤ orderPlace v ∧ orderPlace v < 2 ^ 31 := by
  have := toNat_and_abs_lt v
  unfold orderPlace
  split <;> omega

theorem orderPlace_injective : Function.Injective orderPlace := by
  intro a b h
  have ha := frac_lt a
  have hb := frac_lt b
  simp only [orderPlace, toNat_and_abs_eq_fields] at h
  cases hsa : sign a <;> cases hsb : sign b <;> simp only [hsa, hsb, if_true, if_false, Bool.false_eq_true] at h
  case false.true | true.false => omega
  all_goals exact eq_of_fields (hsa.trans hsb.symm) (by omega) (by omega)

theorem less_iff_orderPlace_lt (a b : Word) : less a b = true ↔ orderPlace a < orderPlace b := by
  cases hsa : sign a <;> cases hsb : sign b
  case false.false =>
    rw [less_iff_of_nonnegative hsa hsb, orderPlace_of_nonnegative hsa, orderPlace_of_nonnegative hsb, Nat.cast_lt]
  case false.true =>
    rw [less_of_sign_ne (by simp [hsa, hsb]), orderPlace_of_nonnegative hsa, orderPlace_of_negative hsb, hsa]
    simp; omega
  case true.false =>
    rw [less_of_sign_ne (by simp [hsa, hsb]), orderPlace_of_negative hsa, orderPlace_of_nonnegative hsb, hsa]
    simp; omega
  case true.true =>
    rw [less_iff_of_negative hsa hsb, orderPlace_of_negative hsa, orderPlace_of_negative hsb]
    omega

theorem less_eq_decide (a b : Word) : less a b = decide (orderPlace a < orderPlace b) :=
  Bool.eq_iff_iff.2 ((less_iff_orderPlace_lt a b).trans decide_eq_true_iff.symm)

theorem less_trichotomy (a b : Word) : (less a b = true ∧ less b a = false ∧ a ≠ b) ∨
    (less a b = false ∧ less b a = true ∧ a ≠ b) ∨ (less a b = false ∧ less b a = false ∧ a = b) := by
  simp only [less_eq_decide, decide_eq_true_eq, decide_eq_false_iff_not, not_lt, ← orderPlace_injective.ne_iff,
    ← orderPlace_injective.eq_iff]
  omega

theorem less_trans {a b c : Word} (hab : less a b = true) (hbc : less b c = true) : less a c = true := by
  rw [less_iff_orderPlace_lt] at hab hbc ⊢
  exact hab.trans hbc

theorem sentinel_less {v : Word} (h : v ≠ 0xFFFFFFFF) : less 0xFFFFFFFF v = true := by
  have hplace : orderPlace 0xFFFFFFFF = -2 ^ 31 := by decide
  rw [less_iff_orderPlace_lt]
  exact lt_of_le_of_ne (hplace ▸ (orderPlace_range v).1) (orderPlace_injective.ne h.symm)

theorem less_highest {v : Word} (h : v ≠ 0x7FFFFFFF) : less v 0x7FFFFFFF = true := by
  have hplace : orderPlace 0x7FFFFFFF = 2 ^ 31 - 1 := by decide
  have hne := orderPlace_injective.ne h
  have hrange := orderPlace_range v
  rw [less_iff_orderPlace_lt]
  omega

/-! ### The numeric order -/

/-- The numeric magnitude grows strictly with the 31-bit magnitude; an infinity's is the one after the largest finite one. -/
theorem ieeeMag_lt_iff (a b : Word) : ieeeMag a < ieeeMag b ↔ (a &&& ABS).toNat < (b &&& ABS).toNat := by
  refine ⟨fun h => lt_of_not_ge fun hle => h.not_ge (ieeeMag_le_of_abs_le hle), fun h => ?_⟩
  have hb := toNat_and_abs_lt b
  have hstep : gridValue (a &&& ABS).toNat < gridValue ((a &&& ABS).toNat + 1) := by
    rw [gridValue_succ _ (by omega)]
    exact Nat.lt_add_of_pos_right (by positivity)
  have hgrid := hstep.trans_le (gridValue_mono h hb)
  rw [← ieeeMag_and_ABS a, ← ieeeMag_and_ABS b]
  exact Nat.lt_of_mul_lt_mul_right hgrid

theorem magnitude_eq_zero_of_ieeeMag {v : Word} (h : ieeeMag v = 0) : (v &&& ABS).toNat = 0 := by
  have hzero : ¬ ieeeMag 0 < ieeeMag v := by omega
  rw [ieeeMag_lt_iff] at hzero
  exact Nat.eq_zero_of_not_pos hzero

theorem eq_negZero_iff (v : Word) : v = 0x80000000 ↔ orderPlace v = -1 :=
  (orderPlace_injective.eq_iff (b := 0x80000000)).symm

theorem eq_zero_iff (v : Word) : v = 0x00000000 ↔ orderPlace v = 0 :=
  (orderPlace_injective.eq_iff (b := 0x00000000)).symm

/-- R223: "it agrees with numeric order except that -0 is strictly below +0". -/
theorem less_iff_numeric (a b : Word) : less a b = true ↔ (a = 0x80000000 ∧ b = 0x00000000) ∨
    signed (sign a) (ieeeMag a) < signed (sign b) (ieeeMag b) := by
  rw [less_iff_orderPlace_lt, eq_negZero_iff, eq_zero_iff]
  have ha := @magnitude_eq_zero_of_ieeeMag a
  have hb := @magnitude_eq_zero_of_ieeeMag b
  cases hsa : sign a <;> cases hsb : sign b <;>
    simp only [signed, orderPlace, hsa, hsb, if_true, if_false, Bool.false_eq_true]
  case false.false =>
    have := ieeeMag_lt_iff a b
    omega
  case true.true =>
    have := ieeeMag_lt_iff b a
    omega
  case false.true => omega
  case true.false => omega

/-- Settles O45: `less` compares places, and each place holds one pattern. -/
theorem lessIsAStrictTotalOrder : Obligations.LessIsAStrictTotalOrder := by
  refine ⟨less_trichotomy, fun _ _ _ => less_trans, fun a b => ?_, fun v => ⟨sentinel_less, less_highest⟩,
    fun a b _ _ => less_iff_numeric a b⟩
  simp only [toNat_extractLsb'_eq_and_abs]
  split_ifs with hs ha
  · rw [less_of_sign_ne hs]
  · exact less_iff_of_nonnegative ha (not_ne_iff.1 hs ▸ ha)
  · have ha' : sign a = true := by simpa using ha
    exact less_iff_of_negative ha' (not_ne_iff.1 hs ▸ ha')

end Sys2Proof.Machine
end

section
/-! Min and Max (spec/43_sign_minmax.md R224, R225): the lesser and the greater place. -/

namespace Sys2Proof.Machine

theorem orderPlace_minimum (a b : Word) : orderPlace (minimum a b) = min (orderPlace a) (orderPlace b) := by
  rw [minimum, apply_ite orderPlace, less_eq_decide, min_comm, min_def_lt]
  simp

theorem orderPlace_maximum (a b : Word) : orderPlace (maximum a b) = max (orderPlace a) (orderPlace b) := by
  rw [maximum, apply_ite orderPlace, less_eq_decide, max_def_lt]
  simp

theorem minimum_comm (a b : Word) : minimum a b = minimum b a :=
  orderPlace_injective (by simp only [orderPlace_minimum, min_comm])

theorem maximum_comm (a b : Word) : maximum a b = maximum b a :=
  orderPlace_injective (by simp only [orderPlace_maximum, max_comm])

theorem minimum_assoc (a b c : Word) : minimum (minimum a b) c = minimum a (minimum b c) :=
  orderPlace_injective (by simp only [orderPlace_minimum, min_assoc])

theorem maximum_assoc (a b c : Word) : maximum (maximum a b) c = maximum a (maximum b c) :=
  orderPlace_injective (by simp only [orderPlace_maximum, max_assoc])

/-- R225: "`{min(a, b), max(a, b)} = {a, b}` as multisets". -/
theorem minimum_maximum_cases (a b : Word) :
    minimum a b = a ∧ maximum a b = b ∨ minimum a b = b ∧ maximum a b = a := by
  rcases less_trichotomy a b with ⟨hab, hba, -⟩ | ⟨hab, hba, -⟩ | ⟨hab, hba, rfl⟩ <;> simp [minimum, maximum, *]

theorem less_maximum_minimum (a b : Word) : less (maximum a b) (minimum a b) = false := by
  rw [less_eq_decide, orderPlace_minimum, orderPlace_maximum, decide_eq_false_iff_not, not_lt]
  exact min_le_max

theorem maximum_highest (v : Word) : maximum 0x7FFFFFFF v = 0x7FFFFFFF := by
  have hplace : orderPlace 0x7FFFFFFF = 2 ^ 31 - 1 := by decide
  have hrange := orderPlace_range v
  refine orderPlace_injective ?_
  rw [orderPlace_maximum]
  omega

theorem min_writesOnly (rd ra rb : RegIdx) (s : State) :
    WritesOnly (.min rd ra rb) s rd (minimum (readReg s ra) (readReg s rb)) :=
  writesOnly_of_exec rfl

theorem max_writesOnly (rd ra rb : RegIdx) (s : State) :
    WritesOnly (.max rd ra rb) s rd (maximum (readReg s ra) (readReg s rb)) :=
  writesOnly_of_exec rfl

/-- Settles O46: the places of the two results are the minimum and the maximum of the operands' places. -/
theorem minAndMaxWriteAnOperand : Obligations.MinAndMaxWriteAnOperand := by
  refine ⟨min_writesOnly, max_writesOnly, rfl, rfl, rfl, rfl,
    fun a b => ⟨minimum_maximum_cases a b, less_maximum_minimum a b⟩,
    fun a b => ⟨minimum_comm a b, maximum_comm a b⟩,
    fun a b c => ⟨minimum_assoc a b c, maximum_assoc a b c⟩,
    rfl, rfl, rfl, rfl, rfl, rfl, rfl, rfl, rfl, rfl, rfl, rfl, rfl, maximum_highest, ?_, ?_⟩
  · exact runsTo_of_two_operands (min_writesOnly 3 1 2) rfl rfl
  · exact runsTo_of_two_operands (max_writesOnly 3 1 2) rfl rfl

end Sys2Proof.Machine
end

section
/-! The candidates of Floor, Ceil and Round (spec/44_floor_ceil_round.md R240 to R242) as exact magnitudes. `2^149` units
of `ieeeMag` are 1.0, so the fraction of a pattern is its magnitude modulo `2^149`. -/

namespace Sys2Proof.Machine

/-! ### The split point (R240) -/

theorem ieeeMag_of_normal {a : Word} (h : 1 ≤ expf a) : ieeeMag a = sig a * 2 ^ (expf a - 1) :=
  if_neg (by omega)

/-- R240: "less than the bias (magnitude < 1.0)". -/
theorem ieeeMag_lt_one_iff (a : Word) : ieeeMag a < 2 ^ 149 ↔ expf a < 127 := by
  have hone : ieeeMag ONE = 2 ^ 149 := by decide
  have hf := frac_lt a
  rw [← hone, ieeeMag_lt_iff, toNat_and_abs_eq_fields, show (ONE &&& ABS).toNat = 127 * 2 ^ 23 from rfl]
  omega

/-- R240 (iii): "every mantissa bit is an integer bit". -/
theorem ieeeMag_mod_one_of_le {a : Word} (h : 150 ≤ expf a) : ieeeMag a % 2 ^ 149 = 0 := by
  rw [ieeeMag_of_normal (by omega)]
  exact Nat.mod_eq_zero_of_dvd ((pow_dvd_pow 2 (by omega)).mul_left _)

/-- R240 (ii): the split point of the significand is the point of the magnitude. -/
theorem two_pow_split {e : Nat} (hlo : 1 ≤ e) (hhi : e ≤ 150) : 2 ^ (150 - e) * 2 ^ (e - 1) = 2 ^ 149 := by
  rw [← pow_add, show 150 - e + (e - 1) = 149 by omega]

/-! ### The mask on the whole word (R241) -/

theorem toNat_and_lowmask (a : Word) {n : Nat} (hn : n ≤ 32) :
    (a &&& BitVec.ofNat 32 (lowmask n)).toNat = a.toNat % 2 ^ n := by
  have hlt : lowmask n < 2 ^ 32 :=
    (Nat.sub_lt (by positivity) one_pos).trans_le (Nat.pow_le_pow_right (by decide) hn)
  rw [BitVec.toNat_and, BitVec.toNat_ofNat, Nat.mod_eq_of_lt hlt, lowmask, Nat.and_two_pow_sub_one_eq_mod]

theorem not_lowmask (n : Nat) : ~~~BitVec.ofNat 32 (lowmask n) = BitVec.allOnes 32 <<< n := by
  apply BitVec.eq_of_getLsbD_eq
  intro i hi
  have hsub : i - n < 32 := by omega
  simp only [BitVec.getLsbD_not, BitVec.getLsbD_ofNat, lowmask, Nat.testBit_two_pow_sub_one, BitVec.getLsbD_shiftLeft,
    BitVec.getLsbD_allOnes, hi, hsub, decide_true, Bool.true_and, Bool.and_true]

theorem toNat_maskFraction (a : Word) (n : Nat) : (maskFraction a n).toNat = a.toNat - a.toNat % 2 ^ n := by
  rw [maskFraction, not_lowmask, toNat_and_allOnes_shiftLeft, Nat.div_mul_self_eq_mod_sub_self]

/-! ### The fraction bits of the significand -/

theorem sig_mod_eq_frac_mod (a : Word) {n : Nat} (hn : n ≤ 23) : sig a % 2 ^ n = frac a % 2 ^ n := by
  rw [sig, Nat.add_mod, Nat.mod_eq_zero_of_dvd (pow_dvd_pow 2 hn), zero_add, Nat.mod_mod]

/-- The low bits of the word are those of the significand. -/
theorem toNat_mod_eq_sig_mod (a : Word) {n : Nat} (hn : n ≤ 23) : a.toNat % 2 ^ n = sig a % 2 ^ n := by
  rw [sig_mod_eq_frac_mod a hn, frac_eq, Nat.mod_mod_of_dvd _ (pow_dvd_pow 2 hn)]

/-- The implicit leading 1 is no fraction bit. -/
theorem le_sig_sub_mod (a : Word) {n : Nat} (hn : n ≤ 23) : 2 ^ 23 ≤ sig a - sig a % 2 ^ n := by
  have hle := Nat.mod_le (frac a) (2 ^ n)
  rw [sig_mod_eq_frac_mod a hn, sig]
  omega

/-- One integer unit more ends at most at the next power of two (R242). -/
theorem sig_sub_mod_add_le (a : Word) {n : Nat} (hn : n ≤ 24) : sig a - sig a % 2 ^ n + 2 ^ n ≤ 2 ^ 24 := by
  have hsplit : 2 ^ n * 2 ^ (24 - n) = 2 ^ 24 := by rw [← pow_add, Nat.add_sub_cancel' hn]
  have hlt : sig a / 2 ^ n < 2 ^ (24 - n) := by
    refine Nat.div_lt_of_lt_mul ?_
    rw [hsplit]
    exact sig_lt a
  rw [← Nat.div_mul_self_eq_mod_sub_self, ← Nat.succ_mul, ← hsplit, mul_comm (2 ^ n)]
  exact Nat.mul_le_mul_right _ hlt

/-! ### A pattern from its number -/

theorem toNat_packNumber (s : Bool) {p : Nat} (hp : p < 2 ^ 31) :
    (packNumber s p).toNat = (if s then 2 ^ 31 else 0) + p := by
  rw [packNumber, toNat_pack]
  omega

theorem toNat_of_normal {a : Word} (h : 1 ≤ expf a) :
    a.toNat = (if sign a then 2 ^ 31 else 0) + ((expf a - 1) * 2 ^ 23 + sig a) := by
  have hfields := toNat_eq_fields a
  unfold sig
  omega

/-! ### The two candidates between 1.0 and 2^23 (R240 (ii)) -/

section
variable {a : Word} (hlo : 127 ≤ expf a) (hhi : expf a < 150)
include hlo hhi

theorem ieeeMag_mod_one : ieeeMag a % 2 ^ 149 = sig a % 2 ^ (150 - expf a) * 2 ^ (expf a - 1) := by
  rw [ieeeMag_of_normal (by omega), ← two_pow_split (e := expf a) (by omega) (by omega), Nat.mul_mod_mul_right]

/-- R241: the significand with its fraction bits cleared. -/
theorem maskFraction_eq_packNumber : maskFraction a (150 - expf a) =
    packNumber (sign a) ((expf a - 1) * 2 ^ 23 + (sig a - sig a % 2 ^ (150 - expf a))) := by
  apply BitVec.eq_of_toNat_eq
  have hsig := sig_lt a
  have hle := Nat.mod_le (sig a) (2 ^ (150 - expf a))
  rw [toNat_maskFraction, toNat_mod_eq_sig_mod a (by omega), toNat_packNumber _ (by omega),
    toNat_of_normal (a := a) (by omega)]
  omega

/-- R242: "the addition is on the 32-bit word, so a carry out of the mantissa field increments the exponent field". -/
theorem increment_eq_packNumber : maskFraction a (150 - expf a) + BitVec.ofNat 32 (2 ^ (150 - expf a)) =
    packNumber (sign a) ((expf a - 1) * 2 ^ 23 + (sig a - sig a % 2 ^ (150 - expf a) + 2 ^ (150 - expf a))) := by
  apply BitVec.eq_of_toNat_eq
  have hle := sig_sub_mod_add_le a (n := 150 - expf a) (by omega)
  rw [maskFraction_eq_packNumber hlo hhi, BitVec.toNat_add, BitVec.toNat_ofNat, toNat_packNumber _ (by omega),
    toNat_packNumber _ (by omega)]
  split <;> omega

theorem and_lowmask_eq_zero_iff :
    a &&& BitVec.ofNat 32 (lowmask (150 - expf a)) = 0 ↔ ieeeMag a % 2 ^ 149 = 0 := by
  rw [ieeeMag_mod_one hlo hhi, ← BitVec.toNat_inj, toNat_and_lowmask a (by omega), toNat_mod_eq_sig_mod a (by omega)]
  simp

theorem ieeeMag_maskFraction : ieeeMag (maskFraction a (150 - expf a)) = ieeeMag a - ieeeMag a % 2 ^ 149 := by
  have hge := le_sig_sub_mod a (n := 150 - expf a) (by omega)
  have hle := sig_sub_mod_add_le a (n := 150 - expf a) (by omega)
  rw [maskFraction_eq_packNumber hlo hhi, ieeeMag_packNumber (by omega) (.inr hge) (by omega), Nat.sub_mul,
    ieeeMag_mod_one hlo hhi, ieeeMag_of_normal (by omega)]

theorem ieeeMag_increment : ieeeMag (maskFraction a (150 - expf a) + BitVec.ofNat 32 (2 ^ (150 - expf a))) =
    ieeeMag a - ieeeMag a % 2 ^ 149 + 2 ^ 149 := by
  have hge := le_sig_sub_mod a (n := 150 - expf a) (by omega)
  have hle := sig_sub_mod_add_le a (n := 150 - expf a) (by omega)
  rw [increment_eq_packNumber hlo hhi, ieeeMag_packNumber hle (.inr (hge.trans le_self_add)) (by omega), Nat.add_mul,
    Nat.sub_mul, two_pow_split (by omega) (by omega), ieeeMag_mod_one hlo hhi, ieeeMag_of_normal (by omega)]

end

/-! ### The candidates over all patterns (R241, R242) -/

theorem magDown_of_lt {a : Word} (h : expf a < 127) : magDown a = ZERO := if_pos h

theorem magUp_of_lt {a : Word} (h : expf a < 127) : magUp a = pack (sign a) 127 0 := if_pos h

theorem magDown_of_le {a : Word} (h : 150 ≤ expf a) : magDown a = a := by
  rw [magDown, if_neg (by omega), if_pos h]

theorem magUp_of_integral {a : Word} (h : 127 ≤ expf a) (hint : ieeeMag a % 2 ^ 149 = 0) : magUp a = a := by
  unfold magUp
  rw [if_neg (by omega)]
  split
  case isTrue => rfl
  case isFalse hhi => rw [if_pos ((and_lowmask_eq_zero_iff h (by omega)).2 hint)]

theorem magDown_of_between {a : Word} (hlo : 127 ≤ expf a) (hhi : expf a < 150) :
    magDown a = maskFraction a (150 - expf a) := by
  rw [magDown, if_neg (by omega), if_neg (by omega)]

/-- Below 2^23 a pattern with a fraction is incremented. -/
theorem magUp_of_fraction {a : Word} (h : 127 ≤ expf a) (hfrac : ieeeMag a % 2 ^ 149 ≠ 0) : expf a < 150 ∧
    magUp a = maskFraction a (150 - expf a) + BitVec.ofNat 32 (2 ^ (150 - expf a)) := by
  have hhi : expf a < 150 := not_le.1 fun hle => hfrac (ieeeMag_mod_one_of_le hle)
  refine ⟨hhi, ?_⟩
  rw [magUp, if_neg (by omega), if_neg (by omega), if_neg (mt (and_lowmask_eq_zero_iff h hhi).1 hfrac)]

/-- R241: "the candidate with the smaller magnitude", the integer part. -/
theorem ieeeMag_magDown (a : Word) : ieeeMag (magDown a) = ieeeMag a / 2 ^ 149 * 2 ^ 149 := by
  rw [Nat.div_mul_self_eq_mod_sub_self]
  rcases lt_or_ge (expf a) 127 with hsmall | hlo
  · rw [magDown_of_lt hsmall, Nat.mod_eq_of_lt ((ieeeMag_lt_one_iff a).2 hsmall), Nat.sub_self]
    rfl
  rcases lt_or_ge (expf a) 150 with hmid | hhi
  · rw [magDown_of_between hlo hmid, ieeeMag_maskFraction hlo hmid]
  · rw [magDown_of_le hhi, ieeeMag_mod_one_of_le hhi, Nat.sub_zero]

/-- R242: "the candidate with the larger magnitude", the integer after the integer part, in the small branch too. -/
theorem ieeeMag_magUp_of_fraction {a : Word} (hfrac : ieeeMag a % 2 ^ 149 ≠ 0) :
    ieeeMag (magUp a) = (ieeeMag a / 2 ^ 149 + 1) * 2 ^ 149 := by
  rw [Nat.add_mul, Nat.div_mul_self_eq_mod_sub_self, one_mul]
  rcases lt_or_ge (expf a) 127 with hsmall | hlo
  · have hone : ieeeMag (pack (sign a) 127 0) = 2 ^ 149 := by cases sign a <;> decide
    rw [magUp_of_lt hsmall, hone, Nat.mod_eq_of_lt ((ieeeMag_lt_one_iff a).2 hsmall), Nat.sub_self, zero_add]
  · obtain ⟨hhi, hup⟩ := magUp_of_fraction hlo hfrac
    rw [hup, ieeeMag_increment hlo hhi]

theorem ieeeMag_magUp {a : Word} (h : 127 ≤ expf a) :
    ieeeMag (magUp a) = (ieeeMag a + (2 ^ 149 - 1)) / 2 ^ 149 * 2 ^ 149 := by
  by_cases hint : ieeeMag a % 2 ^ 149 = 0
  · rw [magUp_of_integral h hint]
    omega
  · rw [ieeeMag_magUp_of_fraction hint]
    omega

theorem sign_magDown {a : Word} (h : 127 ≤ expf a) : sign (magDown a) = sign a := by
  rcases lt_or_ge (expf a) 150 with hmid | hhi
  · rw [magDown_of_between h hmid, maskFraction_eq_packNumber h hmid, sign_packNumber]
  · rw [magDown_of_le hhi]

theorem sign_magUp (a : Word) : sign (magUp a) = sign a := by
  rcases lt_or_ge (expf a) 127 with hsmall | hlo
  · rw [magUp_of_lt hsmall, sign_pack]
  by_cases hint : ieeeMag a % 2 ^ 149 = 0
  · rw [magUp_of_integral hlo hint]
  · obtain ⟨hhi, hup⟩ := magUp_of_fraction hlo hint
    rw [hup, increment_eq_packNumber hlo hhi, sign_packNumber]

end Sys2Proof.Machine
end

section
/-! Floor and Ceil (spec/44_floor_ceil_round.md R243, R244, R247), and the completion of the three instructions. -/

namespace Sys2Proof.Machine

theorem floor_of_lt {a : Word} (h : expf a < 127) : floor a = if sign a then NEG_ONE else ZERO := if_pos h

theorem ceil_of_lt {a : Word} (h : expf a < 127) : ceil a = if sign a then ZERO else ONE := if_pos h

theorem floor_of_le {a : Word} (h : 127 ≤ expf a) : floor a = magDown a := if_neg (by omega)

theorem ceil_of_le {a : Word} (h : 127 ≤ expf a) : ceil a = magUp a := if_neg (by omega)

theorem round_of_le {a : Word} (h : 150 ≤ expf a) : round a = a := if_pos h

/-- Settles O48: the two operations are R241's and R242's candidates. -/
theorem floorAndCeilRoundTheMagnitude : Obligations.FloorAndCeilRoundTheMagnitude := by
  refine ⟨fun a h _ => ?_, fun a h => ⟨?_, ?_, round_of_le h⟩⟩
  · rw [floor_of_le h, ceil_of_le h]
    exact ⟨sign_magDown h, ieeeMag_magDown a, sign_magUp a, ieeeMag_magUp h⟩
  · rw [floor_of_le (by omega), magDown_of_le h]
  · rw [ceil_of_le (by omega), magUp_of_integral (by omega) (ieeeMag_mod_one_of_le h)]

theorem floor_writesOnly (rd ra : RegIdx) (s : State) : WritesOnly (.floor rd ra) s rd (floor (readReg s ra)) :=
  writesOnly_of_exec rfl

theorem ceil_writesOnly (rd ra : RegIdx) (s : State) : WritesOnly (.ceil rd ra) s rd (ceil (readReg s ra)) :=
  writesOnly_of_exec rfl

theorem round_writesOnly (rd ra : RegIdx) (s : State) : WritesOnly (.round rd ra) s rd (round (readReg s ra)) :=
  writesOnly_of_exec rfl

/-- Settles O47: the rows of the small branch, and 2.75 to 2.0, 3.0 and 3.0. -/
theorem floorCeilRoundWriteTheirResult : Obligations.FloorCeilRoundWriteTheirResult := by
  refine ⟨fun rd ra s => ⟨floor_writesOnly rd ra s, ceil_writesOnly rd ra s, round_writesOnly rd ra s⟩,
    fun a h => ⟨floor_of_lt h, ceil_of_lt h⟩, ?_, ?_, ?_⟩
  · exact runsTo_of_one_operand (floor_writesOnly 2 1) rfl rfl
  · exact runsTo_of_one_operand (ceil_writesOnly 2 1) rfl rfl
  · exact runsTo_of_one_operand (round_writesOnly 2 1) rfl rfl

end Sys2Proof.Machine
end

section
/-! Round (spec/44_floor_ceil_round.md R245): the two discarded bits as bits of the exact magnitude. -/

namespace Sys2Proof.Machine

/-- R245: below `2^23` the discarded bit of weight `2^-k` is the bit of that weight in the exact value, for a subnormal
too. -/
theorem discardedBit_eq_testBit {a : Word} (h : expf a < 150) {k : Nat} (hk : k ≤ 125) :
    discardedBit a (150 - expf a) k = (ieeeMag a).testBit (149 - k) := by
  unfold discardedBit
  rcases Nat.eq_zero_or_pos (expf a) with hsub | hnormal
  · have hsig : sig a < 2 ^ (150 - expf a - k) := (sig_lt a).trans_le (Nat.pow_le_pow_right (by decide) (by omega))
    have hfrac : frac a < 2 ^ (149 - k) := (frac_lt a).trans_le (Nat.pow_le_pow_right (by decide) (by omega))
    rw [Nat.testBit_lt_two_pow hsig, ieeeMag, if_pos hsub, Nat.testBit_lt_two_pow hfrac, Bool.and_false]
  · rw [ieeeMag_of_normal hnormal, Nat.testBit_mul_two_pow, show 149 - k - (expf a - 1) = 150 - expf a - k by omega]
    congr 1
    rw [decide_eq_decide]
    omega

/-- R245: "using the same sign-aware tie rule as addition", with the two bits at the top of addition's four. -/
theorem roundsUp_two_bits_iff (s : Bool) {q : Nat} (hq : q < 4) :
    roundsUp s (q * 4) = true ↔ q = 3 ∨ (q = 2 ∧ s = true) := by
  have habove : 8 < q * 4 ↔ q = 3 := by omega
  have htie : q * 4 = 8 ↔ q = 2 := by omega
  simp only [roundsUp, Bool.or_eq_true, Bool.and_eq_true, decide_eq_true_eq, habove, htie]

theorem discardedBits_select {a : Word} (h : expf a < 150) :
    (discardedBit a (150 - expf a) 1 && (discardedBit a (150 - expf a) 2 || sign a)) =
      roundsUp (sign a) (ieeeMag a / 2 ^ 147 % 4 * 4) := by
  have hhalf : ieeeMag a / 2 ^ 148 = ieeeMag a / 2 ^ 147 / 2 := by omega
  rw [discardedBit_eq_testBit h (by decide), discardedBit_eq_testBit h (by decide), Bool.eq_iff_iff,
    roundsUp_two_bits_iff _ (Nat.mod_lt _ (by decide))]
  simp only [Nat.testBit_eq_decide_div_mod_eq, Nat.reduceSub, hhalf, Bool.and_eq_true, Bool.or_eq_true,
    decide_eq_true_eq]
  cases sign a
  case false => simp only [Bool.false_eq_true, or_false, and_false]; omega
  case true => simp only [or_true, and_true]; omega

/-- R245: a magnitude that rounds up has a fraction. -/
theorem fraction_ne_zero_of_roundsUp {s : Bool} {m : Nat} (h : roundsUp s (m / 2 ^ 147 % 4 * 4) = true) :
    m % 2 ^ 149 ≠ 0 := by
  rw [roundsUp_two_bits_iff s (Nat.mod_lt _ (by decide))] at h
  omega

/-- R245: the selection; from `2^23` on no bit is discarded and the lower candidate is the operand. -/
theorem round_eq_candidate (a : Word) :
    round a = if roundsUp (sign a) (ieeeMag a / 2 ^ 147 % 4 * 4) then magUp a else magDown a := by
  rcases lt_or_ge (expf a) 150 with hlt | hge
  · rw [round, if_neg (by omega), ← discardedBits_select hlt]
  · have hint := ieeeMag_mod_one_of_le hge
    rw [round_of_le hge, if_neg fun hup => fraction_ne_zero_of_roundsUp hup hint, magDown_of_le hge]

theorem ieeeMag_magDown_ne_zero_iff (a : Word) : ieeeMag (magDown a) ≠ 0 ↔ 127 ≤ expf a := by
  have hone := ieeeMag_lt_one_iff a
  rw [ieeeMag_magDown]
  omega

/-- Settles O49: each candidate has the magnitude and the sign claimed, and only the lower one can be a zero. -/
theorem roundLooksAtTwoFractionBits : Obligations.RoundLooksAtTwoFractionBits := by
  intro a _
  simp only [round_eq_candidate, ← roundsUp_two_bits_iff (sign a) (Nat.mod_lt (ieeeMag a / 2 ^ 147) four_pos)]
  split
  case isTrue hup =>
    have hmag := ieeeMag_magUp_of_fraction (fraction_ne_zero_of_roundsUp hup)
    exact ⟨fun hzero => by omega, fun _ => sign_magUp a, hmag⟩
  case isFalse =>
    refine ⟨fun hzero => magDown_of_lt ?_, fun hne => sign_magDown ((ieeeMag_magDown_ne_zero_iff a).1 hne),
      ieeeMag_magDown a⟩
    exact not_le.1 fun hle => (ieeeMag_magDown_ne_zero_iff a).2 hle hzero

end Sys2Proof.Machine
end

section
/-! Sqrt (spec/45_transcendental.md R278): rounding the integer root with its inexact half rounds the exact root. -/

namespace Sys2Proof.Machine

/-! ### The classes of R278 -/

theorem ieeeSqrt_of_nan {a : Word} (h : ieeeClass a = .nan) : ieeeSqrt a = nativeNan (.squareRoot a) := if_pos h

theorem ieeeSqrt_of_zero {a : Word} (h : ieeeClass a = .zero) : ieeeSqrt a = a := by
  simp [ieeeSqrt, h]

theorem ieeeSqrt_of_negative {a : Word} (hs : sign a = true) (hz : ieeeClass a ≠ .zero) :
    ieeeSqrt a = nativeNan (.squareRoot a) := by
  simp [ieeeSqrt, hs, hz]

theorem ieeeSqrt_of_positive {a : Word} (h : ieeeClass a = .finite) (hs : sign a = false) :
    ieeeSqrt a = if expf a = 0 then sqrtFinite (frac a) (-149) else sqrtFinite (2 ^ 23 + frac a) ((expf a : Int) - 150) := by
  simp [ieeeSqrt, h, hs]

theorem sqrt_writesOnly (rd ra : RegIdx) (s : State) : WritesOnly (.sqrt rd ra) s rd (ieeeSqrt (readReg s ra)) :=
  writesOnly_of_exec rfl

/-- Settles O42: each class has its row in R278, and the root of 9.0 is evaluated. -/
theorem sqrtWritesTheRoot : Obligations.SqrtWritesTheRoot := by
  refine ⟨sqrt_writesOnly, rfl, fun a => ⟨fun h => ?_, ieeeSqrt_of_zero, fun hs hz => ?_⟩, by decide, ?_⟩
  · rw [ieeeSqrt_of_nan h, ieeeClass_nativeNan]
  · rw [ieeeSqrt_of_negative hs hz, ieeeClass_nativeNan]
  · exact runsTo_of_one_operand (sqrt_writesOnly 2 1) rfl (by decide +kernel)

/-! ### The root of an integer with its inexact half -/

/-- R278: twice the integer root, one more where it is not exact. -/
def twiceRoot (x : Nat) : Nat := 2 * isqrt x + if isqrt x * isqrt x = x then 0 else 1

/-- No whole number lies between the root and what stands for it. -/
theorem sq_le_of_two_mul_le_twiceRoot {x c : Nat} (h : 2 * c ≤ twiceRoot x) : c * c ≤ x := by
  have hc : c ≤ isqrt x := by
    unfold twiceRoot at h
    split at h <;> omega
  exact (Nat.mul_le_mul hc hc).trans (isqrt_spec x).1

theorem le_sq_of_twiceRoot_le_two_mul {x c : Nat} (h : twiceRoot x ≤ 2 * c) : x ≤ c * c := by
  unfold twiceRoot at h
  split at h
  case isTrue hexact => exact hexact.symm.le.trans (Nat.mul_le_mul (by omega) (by omega))
  case isFalse => exact (isqrt_spec x).2.le.trans (Nat.mul_le_mul (by omega) (by omega))

/-- The same for the whole multiples of a unit: `n` is a midpoint, doubled. -/
theorem sq_le_of_le_twiceRoot {x e n : Nat} (hd : 2 ^ (e + 1) ∣ n) (h : n ≤ twiceRoot x * 2 ^ e) :
    n ^ 2 ≤ 4 * (x * (2 ^ e) ^ 2) := by
  obtain ⟨c, rfl⟩ := hd
  have hc : c * c ≤ x := sq_le_of_two_mul_le_twiceRoot
    (Nat.le_of_mul_le_mul_right (by rw [pow_succ] at h; linarith) (Nat.two_pow_pos e))
  calc (2 ^ (e + 1) * c) ^ 2 = 4 * (c * c * (2 ^ e) ^ 2) := by ring
    _ ≤ 4 * (x * (2 ^ e) ^ 2) := by gcongr

theorem le_sq_of_twiceRoot_le {x e n : Nat} (hd : 2 ^ (e + 1) ∣ n) (h : twiceRoot x * 2 ^ e ≤ n) :
    4 * (x * (2 ^ e) ^ 2) ≤ n ^ 2 := by
  obtain ⟨c, rfl⟩ := hd
  have hc : x ≤ c * c := le_sq_of_twiceRoot_le_two_mul
    (Nat.le_of_mul_le_mul_right (by rw [pow_succ] at h; linarith) (Nat.two_pow_pos e))
  calc 4 * (x * (2 ^ e) ^ 2) ≤ 4 * (c * c * (2 ^ e) ^ 2) := by gcongr
    _ = (2 ^ (e + 1) * c) ^ 2 := by ring

/-- R278: "R >= 2^26"; and the root of the largest operand. -/
theorem twiceRoot_bounds {x : Nat} (hlo : 2 ^ 52 ≤ x) (hhi : x < 2 ^ 77) : 2 ^ 27 ≤ twiceRoot x ∧ twiceRoot x < 2 ^ 40 := by
  obtain ⟨h1, h2⟩ := isqrt_spec x
  have hge : 2 ^ 26 ≤ isqrt x := by by_contra hlt; nlinarith
  have hlt : isqrt x < 2 ^ 39 - 1 := by
    by_contra hge
    have := Nat.mul_le_mul (not_lt.1 hge) (not_lt.1 hge)
    omega
  unfold twiceRoot
  split <;> omega

/-! ### The exact root of a pattern -/

/-- The operand in units of 2^-149, scaled by 2^149, is a 52- to 77-bit number times a square unit, and the root's stand-in is
rounded as a multiple of half that unit. -/
structure ScaledRoot (a : Word) (x e : Nat) : Prop where
  lower : 2 ^ 52 ≤ x
  upper : x < 2 ^ 77
  exponent : e ≤ 175
  square : ieeeMag a * 2 ^ 149 = x * (2 ^ e) ^ 2
  rounds : ∃ num den, 0 < num ∧ 0 < den ∧ ieeeSqrt a = ieeeRound false num den ∧
    (((num * 2 ^ 149 : Nat) : ℚ) / den) = (twiceRoot x * 2 ^ e : Nat) / 2

/-- R278's integers for `n * 2^(q - 149)`. -/
theorem sqrtFinite_scaled {n q : Nat} (hn : 0 < n) (hn' : n < 2 ^ 24) (hq : q ≤ 253) :
    ∃ x e, 2 ^ 52 ≤ x ∧ x < 2 ^ 77 ∧ e ≤ 175 ∧ n * 2 ^ q * 2 ^ 149 = x * (2 ^ e) ^ 2 ∧
      ∃ num den, 0 < num ∧ 0 < den ∧ sqrtFinite n ((q : Int) - 149) = ieeeRound false num den ∧
        (((num * 2 ^ 149 : Nat) : ℚ) / den) = (twiceRoot x * 2 ^ e : Nat) / 2 := by
  obtain ⟨k, e, hk, hke, hk52, hk53⟩ : ∃ k e : Nat, (if ((q : Int) - 149) % 2 = 0 then 52 else 53) = k ∧
      k + 2 * e = q + 149 ∧ 52 ≤ k ∧ k ≤ 53 := by
    split
    · exact ⟨52, (q + 149 - 52) / 2, rfl, by omega, by omega, by omega⟩
    · exact ⟨53, (q + 149 - 53) / 2, rfl, by omega, by omega, by omega⟩
  have hx : 2 ^ 52 ≤ n * 2 ^ k := (Nat.pow_le_pow_right two_pos hk52).trans (Nat.le_mul_of_pos_left _ hn)
  have hx' : n * 2 ^ k < 2 ^ 77 := calc
    n * 2 ^ k < 2 ^ 24 * 2 ^ k := Nat.mul_lt_mul_of_pos_right hn' (Nat.two_pow_pos k)
    _ ≤ 2 ^ 24 * 2 ^ 53 := by gcongr; norm_num
    _ = 2 ^ 77 := by norm_num
  have hexp : 1 - ((q : Int) - 149 - k) / 2 = 150 - e := by omega
  have hpos : 0 < twiceRoot (n * 2 ^ k) := by have := (twiceRoot_bounds hx hx').1; omega
  refine ⟨n * 2 ^ k, e, hx, hx', by omega, ?_,
    (scaleRatio (twiceRoot (n * 2 ^ k)) 1 (150 - e)).1, (scaleRatio (twiceRoot (n * 2 ^ k)) 1 (150 - e)).2, ?_,
    scaleRatio_den_pos one_pos _, ?_, ?_⟩
  · rw [mul_assoc, mul_assoc, ← pow_add, ← pow_mul, ← pow_add, ← hke, mul_comm e 2]
  · unfold scaleRatio
    split
    · exact hpos
    · exact Nat.mul_pos hpos (Nat.two_pow_pos _)
  · simp only [sqrtFinite, hk, hexp, twiceRoot]
  · rw [Nat.cast_mul, mul_div_right_comm, scaleRatio_div, zpow_sub₀ two_ne_zero]
    push_cast
    norm_num
    field_simp
    norm_num

theorem exists_scaledRoot {a : Word} (h : ieeeClass a = .finite) (hs : sign a = false) : ∃ x e, ScaledRoot a x e := by
  have hf := frac_lt a
  have hpos := ieeeMag_pos_of_finite h
  have hsqrt := ieeeSqrt_of_positive h hs
  have hmag : ieeeMag a = if expf a = 0 then frac a else (2 ^ 23 + frac a) * 2 ^ (expf a - 1) := rfl
  by_cases he : expf a = 0
  · rw [if_pos he] at hsqrt hmag
    obtain ⟨x, e, h1, h2, h3, h4, h5⟩ := sqrtFinite_scaled (n := frac a) (q := 0) (by omega) (by omega) (by omega)
    refine ⟨x, e, h1, h2, h3, ?_, ?_⟩
    · rw [hmag]; simpa using h4
    · rw [hsqrt]; simpa using h5
  · have hlt : expf a < 255 := lt_of_le_of_ne (Nat.le_of_lt_succ (expf_lt a)) fun h255 => by
      unfold ieeeClass at h
      split_ifs at h
    rw [if_neg he] at hsqrt hmag
    obtain ⟨x, e, h1, h2, h3, h4, h5⟩ :=
      sqrtFinite_scaled (n := 2 ^ 23 + frac a) (q := expf a - 1) (by omega) (by omega) (by omega)
    refine ⟨x, e, h1, h2, h3, hmag ▸ h4, ?_⟩
    rw [hsqrt, show (expf a : Int) - 150 = ((expf a - 1 : Nat) : Int) - 149 by omega]
    exact h5

/-! ### The midpoints of a rounded half-integer -/

namespace Rounding
variable {x k m : Nat} (h : Rounding ((x : ℚ) / 2) k m)
include h

theorem doubled_bounds : x < 2 ^ (k + 25) ∧ (k = 0 ∨ 2 ^ (k + 24) ≤ x) ∧ 2 * m * 2 ^ k ≤ x + 2 ^ k ∧ x ≤ (2 * m + 1) * 2 ^ k := by
  have hpos : (0 : ℚ) < 2 ^ k := by positivity
  have h1 := neg_le_of_abs_le h.near.1
  have h2 := le_of_abs_le h.near.1
  have hup := h.upper
  rw [div_lt_iff₀ two_pos, ← pow_succ] at hup
  refine ⟨by exact_mod_cast hup, h.lower.imp_right fun hlo => ?_, ?_, ?_⟩
  · rw [le_div_iff₀ two_pos, ← pow_succ] at hlo
    exact_mod_cast hlo
  · have h3 : (m : ℚ) - 1 / 2 ≤ x / 2 / 2 ^ k := by linarith
    rw [le_div_iff₀ hpos] at h3
    have h4 : (2 * m * 2 ^ k : ℚ) ≤ x + 2 ^ k := by linarith
    exact_mod_cast h4
  · have h3 : (x : ℚ) / 2 / 2 ^ k ≤ m + 1 / 2 := by linarith
    rw [div_le_iff₀ hpos] at h3
    have h4 : (x : ℚ) ≤ (2 * m + 1) * 2 ^ k := by linarith
    exact_mod_cast h4

/-- The doubled midpoint with any pattern below the result is at most a whole multiple of the unit not above `x`. -/
theorem exists_midpoint_below (hk : k ≠ 0) {p : Word} (hp : ieeeMag p < m * 2 ^ k) :
    ∃ n, 2 ^ k ∣ n ∧ ieeeMag p + m * 2 ^ k ≤ n ∧ n ≤ x := by
  obtain ⟨-, hlow, hdown, -⟩ := h.doubled_bounds
  have hm := h.k_eq_zero_or_le_m.resolve_left hk
  have hstep : (m - 1) * 2 ^ k + 2 ^ k = m * 2 ^ k := by rw [← Nat.succ_mul, Nat.succ_eq_add_one, Nat.sub_add_cancel (by omega)]
  have below : ieeeMag p ≤ (m - 1) * 2 ^ k → ∃ n, 2 ^ k ∣ n ∧ ieeeMag p + m * 2 ^ k ≤ n ∧ n ≤ x := fun hle =>
    ⟨(m - 1 + m) * 2 ^ k, dvd_mul_left _ _, by rw [add_mul]; omega, by rw [add_mul]; linarith⟩
  rcases ieeeMag_on_grid p k with ⟨c, hc⟩ | hlt
  · rw [hc, mul_comm] at hp
    have hcm := Nat.lt_of_mul_lt_mul_right hp
    exact below (by rw [hc, mul_comm]; exact Nat.mul_le_mul_right _ (by omega))
  rcases Nat.eq_or_lt_of_le hm with heq | hgt
  · refine ⟨2 ^ (k + 24), pow_dvd_pow 2 (by omega), ?_, hlow.resolve_left hk⟩
    rw [← heq, ← pow_add, add_comm 23, pow_succ 2 (k + 23)]
    omega
  · refine below (hlt.le.trans ?_)
    rw [add_comm, pow_add]
    exact Nat.mul_le_mul_right _ (by omega)

theorem exists_midpoint_above (hk : k ≠ 0) {p : Word} (hp : m * 2 ^ k < ieeeMag p) :
    ∃ n, 2 ^ k ∣ n ∧ n ≤ ieeeMag p + m * 2 ^ k ∧ x ≤ n := by
  obtain ⟨-, -, -, hup⟩ := h.doubled_bounds
  have hm := h.k_eq_zero_or_le_m.resolve_left hk
  refine ⟨(2 * m + 1) * 2 ^ k, dvd_mul_left _ _, ?_, hup⟩
  have hge : 2 ^ (k + 23) ≤ m * 2 ^ k := by rw [add_comm, pow_add]; exact Nat.mul_le_mul_right _ hm
  obtain ⟨c, hc⟩ := (ieeeMag_on_grid p k).resolve_right (by omega)
  rw [hc, mul_comm (2 ^ k) c] at hp
  have hcm := Nat.mul_le_mul_right (2 ^ k) (Nat.lt_of_mul_lt_mul_right hp)
  rw [Nat.succ_mul] at hcm
  rw [hc, add_mul, mul_comm (2 ^ k) c]
  linarith

end Rounding

/-- The rounded root is a 24-bit multiple of a unit that is at least eight times the one of the integer root. -/
theorem ieeeSqrt_rounding {a : Word} {x e : Nat} (h : ScaledRoot a x e) :
    ∃ k m, Rounding (((twiceRoot x * 2 ^ e : Nat) : ℚ) / 2) k m ∧ e + 1 ≤ k ∧ k ≤ 200 ∧
      ieeeSqrt a = packNumber false (k * 2 ^ 23 + m) := by
  obtain ⟨num, den, hn, hd, hsqrt, hval⟩ := h.rounds
  obtain ⟨k, m, hround, hpack⟩ := exists_rounding false hn hd
  rw [hval] at hround
  obtain ⟨hlo, hhi⟩ := twiceRoot_bounds h.lower h.upper
  obtain ⟨hup, hlow, -, -⟩ := hround.doubled_bounds
  have hek : e + 27 < k + 25 := (Nat.pow_lt_pow_iff_right one_lt_two).1 <| calc
    2 ^ (e + 27) = 2 ^ 27 * 2 ^ e := by rw [add_comm, pow_add]
    _ ≤ twiceRoot x * 2 ^ e := Nat.mul_le_mul_right _ hlo
    _ < 2 ^ (k + 25) := hup
  have hke : k + 24 < 40 + 175 := (Nat.pow_lt_pow_iff_right one_lt_two).1 <| calc
    2 ^ (k + 24) ≤ twiceRoot x * 2 ^ e := hlow.resolve_left (by omega)
    _ < 2 ^ 40 * 2 ^ e := Nat.mul_lt_mul_of_pos_right hhi (Nat.two_pow_pos e)
    _ ≤ 2 ^ (40 + 175) := by rw [← pow_add]; exact Nat.pow_le_pow_right two_pos (by have := h.exponent; omega)
  have hm := hround.m_le
  refine ⟨k, m, hround, by omega, by omega, ?_⟩
  rw [hsqrt, hpack, roundedNumber, min_eq_left (by omega)]

/-- Settles O43: a midpoint of two patterns is a whole multiple of the integer root's unit, or a power of two above one, so it
lies on the same side of the exact root as of what is rounded. -/
theorem squareRootIsCorrectlyRounded : Obligations.SquareRootIsCorrectlyRounded := by
  intro a ha hs
  obtain ⟨x, e, hroot⟩ := exists_scaledRoot ha hs
  obtain ⟨k, m, hround, hek, hk, hpack⟩ := ieeeSqrt_rounding hroot
  have hm := hround.m_le
  have hk0 : k ≠ 0 := by omega
  have hmag : ieeeMag (ieeeSqrt a) = m * 2 ^ k := by
    rw [hpack, ieeeMag_packNumber hm hround.k_eq_zero_or_le_m (by omega)]
  have hexpf : expf (ieeeSqrt a) = (k * 2 ^ 23 + m) / 2 ^ 23 := by rw [hpack, expf_packNumber (by omega)]
  refine ⟨by rw [hpack, sign_packNumber], by omega, by omega, fun p _ => ?_⟩
  rw [hmag, mul_assoc, hroot.square]
  constructor
  · intro hp
    obtain ⟨n, hdvd, hle, hn⟩ := hround.exists_midpoint_below hk0 hp
    exact (Nat.pow_le_pow_left hle 2).trans (sq_le_of_le_twiceRoot ((pow_dvd_pow 2 hek).trans hdvd) hn)
  · intro hp
    obtain ⟨n, hdvd, hle, hn⟩ := hround.exists_midpoint_above hk0 hp
    exact (le_sq_of_twiceRoot_le ((pow_dvd_pow 2 hek).trans hdvd) hn).trans (Nat.pow_le_pow_left hle 2)

end Sys2Proof.Machine
end

section
/-! The twelve-term series of Sin, Cos and Tan (spec/45_transcendental.md R260 to R265): the terms and the sums one by one, and
the sign of the angle. -/

namespace Sys2Proof.Machine

/-! ### The terms and the sums (R262) -/

/-- The term after `k` denominators, from the first term `t`. -/
def seriesTerm (nx2 : Word) (dens : List Word) (t : Word) : Nat → Word
  | 0 => t
  | k + 1 => ieeeDiv (mul (seriesTerm nx2 dens t k) nx2) (dens.getD k 0)

/-- The sum after `k` denominators, from the first term `t` and the sum `s`. -/
def seriesPartial (nx2 : Word) (dens : List Word) (t s : Word) : Nat → Word
  | 0 => s
  | k + 1 => add (seriesPartial nx2 dens t s k) (seriesTerm nx2 dens t (k + 1))

theorem seriesTerm_cons (nx2 den : Word) (dens : List Word) (t : Word) :
    ∀ k, seriesTerm nx2 (den :: dens) t (k + 1) = seriesTerm nx2 dens (ieeeDiv (mul t nx2) den) k
  | 0 => rfl
  | k + 1 => by rw [seriesTerm, seriesTerm_cons nx2 den dens t k, seriesTerm, List.getD_cons_succ]

theorem seriesPartial_cons (nx2 den : Word) (dens : List Word) (t s : Word) :
    ∀ k, seriesPartial nx2 (den :: dens) t s (k + 1) =
      seriesPartial nx2 dens (ieeeDiv (mul t nx2) den) (add s (ieeeDiv (mul t nx2) den)) k
  | 0 => rfl
  | k + 1 => by rw [seriesPartial, seriesPartial_cons nx2 den dens t s k, seriesPartial, seriesTerm_cons]

/-- The loop's result is the sum after the last denominator. -/
theorem seriesSum_eq_seriesPartial (nx2 : Word) (dens : List Word) (t s : Word) :
    seriesSum nx2 dens t s = seriesPartial nx2 dens t s dens.length := by
  induction dens generalizing t s with
  | nil => rfl
  | cons den dens ih => rw [seriesSum, List.length_cons, seriesPartial_cons, ih]

/-- R262: the divisors are the binary32 constants of the integers. -/
theorem sinDen_getD : ∀ k < 11, sinDen.getD k 0 = ieeeRound false ((2 * k + 2) * (2 * k + 3)) 1 := by decide +kernel

theorem cosDen_getD : ∀ k < 11, cosDen.getD k 0 = ieeeRound false ((2 * k + 1) * (2 * k + 2)) 1 := by decide +kernel

theorem sin_writesOnly (rd ra : RegIdx) (s : State) : WritesOnly (.sin rd ra) s rd (sine (readReg s ra)) :=
  writesOnly_of_exec rfl

theorem cos_writesOnly (rd ra : RegIdx) (s : State) : WritesOnly (.cos rd ra) s rd (cosine (readReg s ra)) :=
  writesOnly_of_exec rfl

theorem tan_writesOnly (rd ra : RegIdx) (s : State) :
    WritesOnly (.tan rd ra) s rd (ieeeDiv (sine (readReg s ra)) (cosine (readReg s ra))) :=
  writesOnly_of_exec rfl

/-- Settles O50: the loop over the denominators as its terms and sums, and the sine of 30.0 is evaluated. -/
theorem sinSumsTwelveTerms : Obligations.SinSumsTwelveTerms := by
  refine ⟨sin_writesOnly, fun a => ⟨radians a, seriesTerm (negSquare (radians a)) sinDen (radians a),
    seriesPartial (negSquare (radians a)) sinDen (radians a) (radians a), rfl, rfl, rfl, fun k hk => ⟨?_, rfl⟩, ?_⟩, rfl, rfl, ?_⟩
  · rw [seriesTerm, sinDen_getD k hk]
    rfl
  · exact seriesSum_eq_seriesPartial _ sinDen _ _
  · exact runsTo_of_one_operand (sin_writesOnly 2 1) rfl (by decide +kernel)

/-- Settles O51: as for Sin, from 1.0; the cosine of 60.0 is evaluated. -/
theorem cosSumsTwelveTerms : Obligations.CosSumsTwelveTerms := by
  refine ⟨cos_writesOnly, fun a => ⟨radians a, seriesTerm (negSquare (radians a)) cosDen ONE,
    seriesPartial (negSquare (radians a)) cosDen ONE ONE, rfl, rfl, rfl, fun k hk => ⟨?_, rfl⟩, ?_⟩, rfl, ?_⟩
  · rw [seriesTerm, cosDen_getD k hk]
    rfl
  · exact seriesSum_eq_seriesPartial _ cosDen _ _
  · exact runsTo_of_one_operand (cos_writesOnly 2 1) rfl (by decide +kernel)

/-! ### The quotient (R265) -/

theorem ieeeClass_pack_zero_ne_nan (s : Bool) (e : Nat) : ieeeClass (pack s e 0) ≠ .nan := by
  rw [Ne, ieeeClass_eq_nan_iff, frac_pack]
  exact fun h => h.2 rfl

/-- A quotient of the NaN class is the native NaN of its division: the other rows of R193 give no NaN. -/
theorem ieeeDiv_eq_nativeNan_of_nan {a b : Word} :
    ieeeClass (ieeeDiv a b) = .nan → ieeeDiv a b = nativeNan (.divide a b) := by
  unfold ieeeDiv
  dsimp only
  split
  case h_9 ha hb =>
    exact fun h => absurd h (ieeeClass_ieeeRound_ne_nan _ (ieeeMag_pos_of_finite ha) (ieeeMag_pos_of_finite hb))
  case h_1 | h_2 | h_3 | h_6 => exact fun _ => rfl
  case h_4 | h_5 | h_7 | h_8 => exact fun h => absurd h (ieeeClass_pack_zero_ne_nan _ _)

/-- Settles O52: the sentinel is a NaN to the divide and comes from it only as one; 90.0 and 45.0 are evaluated. -/
theorem tanDividesSineByCosine : Obligations.TanDividesSineByCosine := by
  have hsent : ieeeClass 0xFFFFFFFF = .nan := by decide
  refine ⟨tan_writesOnly, rfl, fun a h => ?_, fun a h => ?_, by decide +kernel, by decide +kernel, ?_⟩
  · have hnan : ieeeClass (sine a) = .nan ∨ ieeeClass (cosine a) = .nan :=
      h.imp (fun hs => (congrArg ieeeClass hs).trans hsent) (fun hc => (congrArg ieeeClass hc).trans hsent)
    exact ⟨ieeeDiv_nan (hnan.imp_right .inl), ieeeClass_ieeeDiv_of_nan hnan⟩
  · have hquot : ieeeDiv (sine a) (cosine a) = 0xFFFFFFFF := h
    exact (ieeeDiv_eq_nativeNan_of_nan (hquot ▸ hsent)).symm.trans hquot
  · exact runsTo_of_one_operand (f := fun v => ieeeDiv (sine v) (cosine v)) (tan_writesOnly 2 1) rfl (by decide +kernel)

/-! ### The sign of the angle (R264, R181) -/

theorem xor_sign_xor_sign (x : Word) : x ^^^ SIGN ^^^ SIGN = x := negate_negate x

theorem isSpecial_xor_sign_eq {x : Word} (h : x ≠ SENT) (h' : x ≠ 0x7FFFFFFF) : isSpecial (x ^^^ SIGN) = isSpecial x := by
  cases hs : isSpecial x with
  | false => exact isSpecial_xor_sign hs h'
  | true =>
    refine (Bool.not_eq_false _).mp fun hflip => ?_
    have hne : x ^^^ SIGN ≠ 0x7FFFFFFF := fun heq => h (by
      rw [← xor_sign_xor_sign x, heq]
      decide)
    rw [← xor_sign_xor_sign x, isSpecial_xor_sign hflip hne] at hs
    exact Bool.false_ne_true hs

theorem sig_xor_sign (x : Word) : sig (x ^^^ SIGN) = sig x := by rw [sig, sig, frac_xor_sign]

theorem pack_not (s : Bool) (e m : Nat) : pack (!s) e m = pack s e m ^^^ SIGN :=
  eq_of_fields (by simp) (by simp) (by simp)

/-- R181: flipping the sign of a factor flips the sign of the product, but for the sentinel. -/
theorem mul_xor_sign_left {a b : Word} (h : a ≠ SENT) (h' : a ≠ 0x7FFFFFFF) :
    (mul (a ^^^ SIGN) b = SENT ∧ mul a b = SENT) ∨
    (mul (a ^^^ SIGN) b = mul a b ^^^ SIGN ∧ expf (mul a b) ≤ 254) := by
  have hspecial := isSpecial_xor_sign_eq h h'
  by_cases hs : isSpecial a = true ∨ isSpecial b = true
  · exact .inl ⟨mul_of_special (hs.imp_left hspecial.trans), mul_of_special hs⟩
  obtain ⟨ha, hb⟩ : isSpecial a = false ∧ isSpecial b = false := by simpa using hs
  have hsign : (sign (a ^^^ SIGN) != sign b) = !(sign a != sign b) := by rw [sign_xor_sign, Bool.not_bne]
  have hrenorm : renorm (a ^^^ SIGN) b = renorm a b := by rw [renorm, renorm, sig_xor_sign]
  by_cases hz : isZero a = true ∨ isZero b = true
  · rw [mul_of_isZero (hspecial.trans ha) hb (hz.imp_left (isZero_xor_sign a).trans), mul_of_isZero ha hb hz, hsign, pack_not]
    exact .inr ⟨rfl, by simp⟩
  obtain ⟨hza, hzb⟩ : isZero a = false ∧ isZero b = false := by simpa using hz
  rw [mul_general (hspecial.trans ha) hb ((isZero_xor_sign a).trans hza) hzb, mul_general ha hb hza hzb, hsign, hrenorm,
    expf_xor_sign, sig_xor_sign, pack_not]
  split
  case isTrue => exact .inl ⟨rfl, rfl⟩
  case isFalse => exact .inr ⟨rfl, by rw [expf_pack]; omega⟩

/-- The square of a pattern and of its sign flip. -/
theorem mul_self_xor_sign {x : Word} (h : x ≠ SENT) (h' : x ≠ 0x7FFFFFFF) : mul (x ^^^ SIGN) (x ^^^ SIGN) = mul x x := by
  simp [mul, isSpecial_xor_sign_eq h h', isZero_xor_sign, sig_xor_sign]

theorem negSquare_radians_xor_sign {a : Word} (h : a ≠ SENT) (h' : a ≠ 0x7FFFFFFF) :
    negSquare (radians (a ^^^ SIGN)) = negSquare (radians a) := by
  unfold radians
  rcases mul_xor_sign_left (b := DEG) h h' with ⟨hflip, hx⟩ | ⟨hflip, he⟩
  · rw [hflip, hx]
  · have hne {v : Word} (hv : expf v = 255) : mul a DEG ≠ v := fun heq => by rw [heq, hv] at he; omega
    rw [hflip, negSquare, mul_self_xor_sign (hne (by decide)) (hne (by decide)), negSquare]

/-- Settles O54: the series sees the angle through its square only. -/
theorem cosineIsEven : Obligations.CosineIsEven := fun _ h h' =>
  congrArg (seriesSum · cosDen ONE ONE) (negSquare_radians_xor_sign h h')

end Sys2Proof.Machine
end

section
/-! The series at fixed angles (spec/45_transcendental.md R270). The kernel evaluates them through a form of the loop that
evaluates each value once, and that answers where a native NaN decides the sum whatever its payload. -/

namespace Sys2Proof.Machine

/-! ### A native NaN in a sum (spec/41_add_sub.md R154) -/

/-- Neither special nor zero, and too small to bring the sum with a NaN pattern back into the exponent range. -/
def ordinary (s : Word) : Bool := !isSpecial s && !isZero s && decide (expf s ≤ 231)

theorem natAbs_bitLevelValue (v : Word) : (bitLevelValue v).natAbs = sig v * 2 ^ expf v := by
  unfold bitLevelValue
  split
  · rw [Int.natAbs_neg, Int.natAbs_natCast]
  · exact Int.natAbs_natCast _

/-- The exact sum is past every exponent, so addition gives the sentinel whatever the payload. -/
theorem add_nan {s v : Word} (hs : ordinary s = true) (hv : ieeeClass v = .nan) : add s v = SENT := by
  obtain ⟨⟨hspecial, hzero⟩, hexp⟩ : (isSpecial s = false ∧ isZero s = false) ∧ expf s ≤ 231 := by
    simpa [ordinary] using hs
  obtain ⟨hv255, hfrac⟩ := (ieeeClass_eq_nan_iff v).1 hv
  by_cases hvs : isSpecial v = true
  · exact add_of_special (.inr hvs)
  have hvz : isZero v = false := Bool.eq_false_iff.2 fun hz => by
    rw [isZero_iff] at hz
    omega
  have hxor : s ^^^ v ≠ SIGN := fun hx => by
    have hflip : s = v ^^^ SIGN := by rw [← hx, BitVec.xor_comm s v, ← BitVec.xor_assoc, BitVec.xor_self, BitVec.zero_xor]
    have := expf_xor_sign v
    rw [← hflip] at this
    omega
  rw [additionIsTheExactSumRounded s v hspecial (Bool.eq_false_iff.2 hvs) hzero hvz hxor]
  have hbig : (2 ^ 23 + 1) * 2 ^ 255 ≤ (bitLevelValue v).natAbs := by
    rw [natAbs_bitLevelValue, hv255]
    exact Nat.mul_le_mul_right _ (by unfold sig; omega)
  have hsmall : (bitLevelValue s).natAbs ≤ 2 ^ 24 * 2 ^ 231 := by
    rw [natAbs_bitLevelValue]
    exact Nat.mul_le_mul (sig_lt s).le (Nat.pow_le_pow_right two_pos hexp)
  have hsum : 2 ^ 255 * 2 ^ 23 ≤ (bitLevelValue s + bitLevelValue v).natAbs := by omega
  have hne : (bitLevelValue s + bitLevelValue v).natAbs ≠ 0 := by omega
  rw [← pow_add] at hsum
  exact roundExact_of_msb_out (.inr ((Nat.le_log2 hne).2 hsum))

/-- The sentinel absorbs every later term. -/
theorem seriesSum_sent (nx2 : Word) (dens : List Word) (t : Word) : seriesSum nx2 dens t SENT = SENT := by
  induction dens generalizing t with
  | nil => rfl
  | cons den dens ih => rw [seriesSum, add_of_special (.inl (by decide)), ih]

/-- R270 (a): "which then absorbs every later sum". -/
theorem seriesSum_of_product_sent {nx2 den t s : Word} {dens : List Word} (ht : mul t nx2 = SENT) (hs : ordinary s = true) :
    seriesSum nx2 (den :: dens) t s = SENT := by
  have hnan : ieeeClass (ieeeDiv SENT den) = .nan := ieeeClass_ieeeDiv_of_nan (.inl (by decide))
  rw [seriesSum, ht, add_nan hs hnan, seriesSum_sent]

/-! ### The loop with its values evaluated -/

/-- `f w`, where the kernel evaluates `w` to a number before it unfolds `f`. -/
def evaluated {α : Type} (w : Word) (f : Word → α) : α :=
  match w.toNat with
  | 0 => f 0
  | n + 1 => f (BitVec.ofNat 32 (n + 1))

theorem evaluated_eq {α : Type} (w : Word) (f : Word → α) : evaluated w f = f w := by
  unfold evaluated
  split
  case h_1 h => rw [BitVec.eq_of_toNat_eq (x := w) (y := 0) h]
  case h_2 n h => rw [show n + 1 = w.toNat from h.symm, BitVec.ofNat_toNat, BitVec.setWidth_eq]

/-- `seriesSum`, left at the sentinel as soon as the rest cannot change it. -/
def seriesEval (nx2 : Word) : List Word → Word → Word → Word
  | [], _, s => s
  | den :: dens, t, s =>
    evaluated (mul t nx2) fun p =>
      if s = SENT ∨ (p = SENT ∧ ordinary s) then SENT
      else evaluated (ieeeDiv p den) fun t' => evaluated (add s t') fun s' => seriesEval nx2 dens t' s'

theorem seriesEval_eq (nx2 : Word) (dens : List Word) (t s : Word) : seriesEval nx2 dens t s = seriesSum nx2 dens t s := by
  induction dens generalizing t s with
  | nil => rfl
  | cons den dens ih =>
    simp only [seriesEval, evaluated_eq, ih]
    split
    case isTrue h =>
      rcases h with rfl | ⟨hp, hs⟩
      · rw [seriesSum_sent]
      · rw [seriesSum_of_product_sent hp hs]
    case isFalse => rfl

def sineEval (a : Word) : Word :=
  evaluated (radians a) fun x => evaluated (negSquare x) fun nx2 => seriesEval nx2 sinDen x x

def cosineEval (a : Word) : Word :=
  evaluated (radians a) fun x => evaluated (negSquare x) fun nx2 => seriesEval nx2 cosDen ONE ONE

def tangentEval (a : Word) : Word :=
  evaluated (sineEval a) fun s => evaluated (cosineEval a) fun c => ieeeDiv s c

theorem sineEval_eq (a : Word) : sineEval a = sine a := by
  simp only [sineEval, evaluated_eq, seriesEval_eq, sine]

theorem cosineEval_eq (a : Word) : cosineEval a = cosine a := by
  simp only [cosineEval, evaluated_eq, seriesEval_eq, cosine]

theorem tangentEval_eq (a : Word) : tangentEval a = tangent a := by
  simp only [tangentEval, evaluated_eq, sineEval_eq, cosineEval_eq, tangent]

/-! ### Whole degrees -/

/-- R270 (a): the whole degrees at which Sin is the sentinel. -/
theorem sine_degrees : ∀ d < 91, 1 ≤ d → (sine (ieeeRound false d 1) = SENT ↔ d ≤ 9) := by
  simp only [← sineEval_eq]
  decide +kernel

/-- R270 (a): the whole degrees at which Cos is the sentinel. -/
theorem cosine_degrees : ∀ d < 91, 1 ≤ d → (cosine (ieeeRound false d 1) = SENT ↔ d ≤ 7) := by
  simp only [← cosineEval_eq]
  decide +kernel

/-- Settles O53: the whole degrees, the angles whose radians are the sentinel, and the rows of the table. -/
theorem seriesOfSmallAndSpecialAngles : Obligations.SeriesOfSmallAndSpecialAngles := by
  refine ⟨fun d h1 h2 => (sine_degrees d (by omega) h1).2 h2,
    fun d h1 h2 h => absurd ((sine_degrees d (by omega) (by omega)).1 h) (by omega),
    fun d h1 h2 => (cosine_degrees d (by omega) h1).2 h2,
    fun d h1 h2 h => absurd ((cosine_degrees d (by omega) (by omega)).1 h) (by omega), ?_, ?_, ?_, ?_⟩
  all_goals
    simp only [List.forall_mem_cons, List.not_mem_nil, false_implies, implies_true, and_true, ← tangentEval_eq, ← sineEval_eq,
      ← cosineEval_eq]
    decide +kernel

end Sys2Proof.Machine
end

section
/-! The grid of the patterns (spec/45_transcendental.md R276 (iv), R277 (vi)): how far a pattern is from a number in units in the
last place at that number, in fixed point and as real numbers. -/

namespace Sys2Proof.Machine

/-! ### The unit in the last place in fixed point -/

theorem ulpExp_mono {x y : Nat} (h : x ≤ y) : ulpExp x ≤ ulpExp y := by
  have := log2_mono h
  unfold ulpExp
  omega

theorem le_ulpExp (x : Nat) : 271 ≤ ulpExp x := by
  unfold ulpExp
  omega

/-- A number has at most 24 bits in its unit. -/
theorem lt_two_pow_ulpExp (x : Nat) : x < 2 ^ (ulpExp x + 24) :=
  Nat.lt_log2_self.trans_le (Nat.pow_le_pow_right two_pos (by unfold ulpExp; omega))

theorem ulpExp_le_succ {x y : Nat} (h : x < 2 ^ (y.log2 + 2)) : ulpExp x ≤ ulpExp y + 1 := by
  have hx : x.log2 < y.log2 + 2 := by
    rcases Nat.eq_zero_or_pos x with rfl | hpos
    · simp
    · exact (Nat.log2_lt hpos.ne').2 h
  unfold ulpExp
  omega

/-- The step from a pattern to the next is the unit in the last place at its value. -/
theorem ulpExp_gridValue {p : Nat} (h : p < 2 ^ 31) : ulpExp (gridValue p) = max (p / 2 ^ 23) 1 + 270 := by
  unfold gridValue ulpExp
  rw [ieeeMag_ofNat p h]
  have hm := Nat.mod_lt p (show 0 < 2 ^ 23 by decide)
  split
  case isTrue h0 =>
    have hlt : (p % 2 ^ 23 * 2 ^ 271).log2 < 294 := by
      rcases Nat.eq_zero_or_pos (p % 2 ^ 23) with hz | hpos
      · rw [hz, Nat.zero_mul]
        decide
      · refine (Nat.log2_lt (by positivity)).2 ?_
        rw [show 294 = 23 + 271 from rfl, pow_add]
        exact Nat.mul_lt_mul_of_pos_right hm (Nat.two_pow_pos _)
    omega
  case isFalse h0 =>
    have hlog : ((2 ^ 23 + p % 2 ^ 23) * 2 ^ (p / 2 ^ 23 - 1) * 2 ^ 271).log2 = 23 + (p / 2 ^ 23 - 1 + 271) := by
      rw [mul_assoc, ← pow_add, Nat.log2_eq_iff (by positivity), add_right_comm 23, pow_add, pow_add 2 (23 + 1)]
      exact ⟨Nat.mul_le_mul_right _ (by omega), Nat.mul_lt_mul_of_pos_right (by omega) (Nat.two_pow_pos _)⟩
    omega

theorem gridValue_add_one {p : Nat} (h : p + 1 < 2 ^ 31) : gridValue (p + 1) = gridValue p + 2 ^ ulpExp (gridValue p) := by
  rw [ulpExp_gridValue (by omega), gridValue_succ p h]

/-! ### A pattern above a number -/

/-- A pattern past one that is not below a number is a unit or more above it. -/
theorem gridValue_add_ulp_le {g c x : Nat} (hgc : g < c) (hc : c < 2 ^ 31) (hx : x ≤ gridValue g) :
    gridValue g + 2 ^ ulpExp x ≤ gridValue c := calc
  gridValue g + 2 ^ ulpExp x ≤ gridValue g + 2 ^ ulpExp (gridValue g) :=
    Nat.add_le_add_left (Nat.pow_le_pow_right two_pos (ulpExp_mono hx)) _
  _ = gridValue (g + 1) := (gridValue_add_one (by omega)).symm
  _ ≤ gridValue c := gridValue_mono hgc hc

/-! ### A pattern below a number -/

/-- The infinity counts as 2^128. -/
theorem gridValue_inf : gridValue 0x7F800000 = 2 ^ 548 := by decide +kernel

theorem gridValue_one : gridValue 0x3F800000 = 2 ^ 420 := by decide +kernel

theorem gridFloor_of_overflow {x : Nat} (h : 548 ≤ x.log2) : gridFloor x = 0x7F800000 := by
  unfold gridFloor
  rw [if_neg (by omega), if_pos h]

/-- No pattern above the one found is at most the number. -/
theorem le_gridFloor {p x : Nat} (hp : p ≤ 0x7F800000) (h : gridValue p ≤ x) : p ≤ gridFloor x := by
  by_cases hx : 548 ≤ x.log2
  · rwa [gridFloor_of_overflow hx]
  · by_contra hlt
    have hnear := (gridFloor_near x (by omega)).2
    have hself : ulpExp (gridValue (gridFloor x)) = ulpExp x := by
      rw [ulpExp_gridValue (by omega), (gridFloor_fields x (by omega)).1]
    have hsucc := gridValue_add_one (p := gridFloor x) (by omega)
    have hmono : gridValue (gridFloor x + 1) ≤ gridValue p := gridValue_mono (Nat.lt_of_not_le hlt) (by omega)
    rw [hself] at hsucc
    omega

/-- The first pattern of a binade and the two before it. -/
theorem gridValue_before_binade {e b : Nat} (hb : b = e * 2 ^ 23) (h1 : 2 ≤ e) (h2 : e ≤ 255) :
    gridValue b = 2 ^ (e + 293) ∧ gridValue (b - 1) + 2 ^ (e + 269) = 2 ^ (e + 293) ∧
    gridValue (b - 2) + 2 ^ (e + 270) = 2 ^ (e + 293) := by
  have hvalue : gridValue b = 2 ^ (e + 293) := by
    unfold gridValue
    rw [ieeeMag_ofNat _ (by omega), if_neg (by omega), show b % 2 ^ 23 = 0 by omega,
      show b / 2 ^ 23 - 1 = e - 1 by omega, Nat.add_zero, mul_assoc, ← pow_add, ← pow_add,
      show 23 + (e - 1 + 271) = e + 293 by omega]
  have hs1 := gridValue_succ (b - 1) (by omega)
  have hs2 := gridValue_succ (b - 2) (by omega)
  rw [show b - 1 + 1 = b by omega, hvalue, show max ((b - 1) / 2 ^ 23) 1 + 270 = e + 269 by omega] at hs1
  rw [show b - 2 + 1 = b - 1 by omega, show max ((b - 2) / 2 ^ 23) 1 + 270 = e + 269 by omega] at hs2
  have hdouble : 2 ^ (e + 270) = 2 ^ (e + 269) * 2 := pow_succ 2 (e + 269)
  exact ⟨hvalue, hs1.symm, by omega⟩

/-- The condition of `gridLow`: a number of a binade past the first half step is at least that much above its start. -/
theorem gridLow_of_half_step {x e b : Nat} (he : x.log2 = e + 293) (hbin : b = e * 2 ^ 23) (h1 : 2 ≤ e) (h2 : e ≤ 255) :
    gridLow x ≤ b - 1 ∨ 2 ^ (e + 293) + 2 ^ (e + 269) ≤ x := by
  have hs := shiftRight_log2_split x (by omega)
  have hb := shiftRight_log2_bounds x (by omega)
  have h23 : x.log2 - 23 = e + 270 := by omega
  have h24 : x.log2 - 24 = e + 269 := by omega
  have h293 : x.log2 - 293 = e := by omega
  rw [h23, h24] at hs
  rw [h23] at hb
  by_cases hc : x >>> (e + 269) = 2 ^ 24
  · refine .inl ?_
    unfold gridLow gridFloor
    rw [h23, h24, h293, if_pos ⟨by omega, by omega, hc⟩, if_neg (by omega)]
    split <;> omega
  · refine .inr ?_
    have hge : 2 ^ 24 + 1 ≤ x >>> (e + 269) := by omega
    rw [Nat.shiftRight_eq_div_pow, Nat.le_div_iff_mul_le (Nat.two_pow_pos _), Nat.succ_mul, ← pow_add,
      show 24 + (e + 269) = e + 293 by omega] at hge
    exact hge

theorem gridValue_add_ulp_le_of_same_exponent {c x : Nat} (hc : c < gridFloor x) (hx : x.log2 < 548)
    (he : max (c / 2 ^ 23) 1 + 270 = ulpExp x) : gridValue c + 2 ^ ulpExp x ≤ x := by
  have hg := gridFloor_le x
  rw [← he, ← gridValue_succ c (by omega)]
  exact (gridValue_mono hc (by omega)).trans (gridFloor_near x hx).1

theorem gridValue_add_ulp_le_of_overflow {c x : Nat} (hc : c ≤ 0x7F800000) (hx : 548 < x.log2) :
    gridValue c + 2 ^ ulpExp x ≤ x := by
  have hself : 2 ^ x.log2 ≤ x := Nat.log2_self_le (by rintro rfl; simp at hx)
  have hle : gridValue c ≤ 2 ^ (x.log2 - 1) := ((gridValue_mono hc (by decide)).trans_eq gridValue_inf).trans
    (Nat.pow_le_pow_right two_pos (by omega))
  have hu : 2 ^ ulpExp x ≤ 2 ^ (x.log2 - 1) := Nat.pow_le_pow_right two_pos (by unfold ulpExp; omega)
  have hdouble : 2 ^ x.log2 = 2 ^ (x.log2 - 1) * 2 := by rw [← pow_succ, Nat.sub_add_cancel (by omega)]
  omega

/-- A pattern before `gridLow` is a unit or more below the number. -/
theorem gridValue_add_ulp_le_of_lt_gridLow {c x : Nat} (h : c < gridLow x) : gridValue c + 2 ^ ulpExp x ≤ x := by
  have hc := h.trans_le (gridLow_le_gridFloor x)
  have hg := gridFloor_le x
  rcases Nat.lt_or_ge x.log2 295 with hlow | hlow
  · have hfields := (gridFloor_fields x (by omega)).1
    exact gridValue_add_ulp_le_of_same_exponent hc (by omega) (by unfold ulpExp at *; omega)
  rcases Nat.lt_or_ge 548 x.log2 with hhigh | hhigh
  · exact gridValue_add_ulp_le_of_overflow (by omega) hhigh
  obtain ⟨e, he⟩ : ∃ e, x.log2 = e + 293 := ⟨x.log2 - 293, by omega⟩
  have hu : ulpExp x = e + 270 := by
    unfold ulpExp
    omega
  obtain ⟨b, hb⟩ : ∃ b, b = e * 2 ^ 23 := ⟨_, rfl⟩
  rcases Nat.lt_or_ge c b with hbelow | habove
  · obtain ⟨-, hpred, hpred2⟩ := gridValue_before_binade hb (by omega) (by omega)
    have hself : 2 ^ (e + 293) ≤ x := he ▸ Nat.log2_self_le (by rintro rfl; simp at hlow)
    rw [hu]
    rcases Nat.lt_or_ge c (b - 1) with hlt | hge
    · have := gridValue_mono (show c ≤ b - 2 by omega) (by omega)
      omega
    · obtain rfl : c = b - 1 := by omega
      have hhalf := (gridLow_of_half_step he hb (by omega) (by omega)).resolve_left (Nat.not_le.2 h)
      have hdouble : 2 ^ (e + 270) = 2 ^ (e + 269) * 2 := pow_succ 2 (e + 269)
      omega
  · have hx : x.log2 < 548 := by
      by_contra hge
      rw [gridFloor_of_overflow (by omega)] at hc
      omega
    have hfields := (gridFloor_fields x hx).1
    exact gridValue_add_ulp_le_of_same_exponent hc hx (by omega)

/-- What is at most a number is at most `gridLow` of it, or the pattern after. -/
theorem pred_le_gridLow {p x : Nat} (hp : p ≤ 0x7F800000) (h : gridValue p ≤ x) : p - 1 ≤ gridLow x := by
  have hle := le_gridFloor hp h
  unfold gridLow
  split <;> omega

/-- A pattern is not past `gridLow` where its own unit, put on the pattern before it, does not pass the number. -/
theorem le_gridLow {p x : Nat} (hp : p ≤ 0x7F800000) (h : gridValue p ≤ x)
    (hhalf : gridValue (p - 1) + 2 ^ ulpExp (gridValue p) ≤ x) : p ≤ gridLow x := by
  have hle := le_gridFloor hp h
  by_cases hc : 294 < x.log2 ∧ x.log2 ≤ 548 ∧ x >>> (x.log2 - 24) = 2 ^ 24
  case neg =>
    unfold gridLow
    rwa [if_neg hc]
  obtain ⟨h1, h2, h3⟩ := hc
  obtain ⟨e, he⟩ : ∃ e, x.log2 = e + 293 := ⟨x.log2 - 293, by omega⟩
  have hhigh : x < 2 ^ (e + 293) + 2 ^ (e + 269) := by
    have := Nat.lt_div_mul_add (a := x) (Nat.two_pow_pos (e + 269))
    rw [show e + 269 = x.log2 - 24 by omega, ← Nat.shiftRight_eq_div_pow, h3, ← pow_add, he] at this
    rwa [show 24 + (e + 293 - 24) = e + 293 by omega] at this
  have hlow : gridLow x = gridFloor x - 1 := by
    unfold gridLow
    rw [if_pos ⟨h1, h2, h3⟩]
  obtain ⟨b, hb⟩ : ∃ b, b = e * 2 ^ 23 := ⟨_, rfl⟩
  obtain ⟨hstart, hpred, -⟩ := gridValue_before_binade hb (by omega) (by omega)
  have hbfloor : b ≤ gridFloor x := le_gridFloor (by omega) (by
    rw [hstart, ← he]
    exact Nat.log2_self_le (by rintro rfl; simp at h1))
  have hlast : gridLow x ≤ b - 1 := (gridLow_of_half_step he hb (by omega) (by omega)).resolve_right (by omega)
  by_contra hlt
  obtain rfl : p = b := by omega
  have hdouble : 2 ^ (e + 270) = 2 ^ (e + 269) * 2 := pow_succ 2 (e + 269)
  rw [ulpExp_gridValue (by omega), show max (p / 2 ^ 23) 1 + 270 = e + 270 by omega] at hhalf
  omega

/-! ### The unit in the last place as a real number -/

/-- A positive real number in fixed point, rounded down. -/
noncomputable def fixedFloor (y : ℝ) : Nat := ⌊2 ^ 420 * y⌋₊

theorem fixedFloor_le {y : ℝ} (hy : 0 < y) : (fixedFloor y : ℝ) ≤ 2 ^ 420 * y := Nat.floor_le (by positivity)

theorem lt_fixedFloor_add_one (y : ℝ) : 2 ^ 420 * y < fixedFloor y + 1 := Nat.lt_floor_add_one _

theorem le_fixedFloor {n : Nat} {y : ℝ} (h : (n : ℝ) ≤ 2 ^ 420 * y) : n ≤ fixedFloor y := Nat.le_floor h

theorem fixedFloor_le_of_le {n : Nat} {y : ℝ} (h : 2 ^ 420 * y ≤ n) : fixedFloor y ≤ n := Nat.floor_le_of_le h

/-- The exponent of a number is that of its fixed-point form, where that has one. -/
theorem max_log_fixedFloor {y : ℝ} (hy : 0 < y) :
    max (Int.log 2 y) (-126) + 420 = max (fixedFloor y).log2 294 := by
  have hsplit (k : Nat) : (2 : ℝ) ^ k = 2 ^ 420 * ((2 : Nat) : ℝ) ^ ((k : Int) - 420) := by
    rw [zpow_sub₀ (by norm_num), Nat.cast_two, zpow_natCast, show (420 : Int) = (420 : Nat) from rfl, zpow_natCast,
      mul_div_cancel₀ _ (by positivity)]
  have hupper : Int.log 2 y < ((fixedFloor y).log2 + 1 : Nat) - 420 := by
    rw [← Int.lt_zpow_iff_log_lt one_lt_two hy, ← mul_lt_mul_iff_right₀ (show (0 : ℝ) < 2 ^ 420 by positivity), ← hsplit]
    refine (lt_fixedFloor_add_one y).trans_le ?_
    exact_mod_cast Nat.lt_log2_self (n := fixedFloor y)
  rcases Nat.eq_zero_or_pos (fixedFloor y) with h0 | hpos
  · rw [h0] at hupper ⊢
    simp only [Nat.log2_zero] at *
    omega
  · have hlower : ((fixedFloor y).log2 : Int) - 420 ≤ Int.log 2 y := by
      rw [← Int.zpow_le_iff_le_log one_lt_two hy, ← mul_le_mul_iff_right₀ (show (0 : ℝ) < 2 ^ 420 by positivity), ← hsplit]
      refine le_trans ?_ (fixedFloor_le hy)
      exact_mod_cast Nat.log2_self_le hpos.ne'
    omega

theorem fixed_ulp {y : ℝ} (hy : 0 < y) : 2 ^ 420 * ulp y = 2 ^ ulpExp (fixedFloor y) := by
  have hexp : (ulpExp (fixedFloor y) : Int) = 420 + (max (Int.log 2 y) (-126) - 23) := by
    have := max_log_fixedFloor hy
    unfold ulpExp
    omega
  rw [ulp, ← zpow_natCast 2 (ulpExp _), hexp, zpow_add₀ two_ne_zero]
  rfl

theorem fixed_patternValue (p : Nat) : 2 ^ 420 * patternValue p = gridValue p :=
  mul_div_cancel₀ _ (by positivity)

/-! ### The ends of an interval -/

/-- The pattern `p` is at or below `y`, by less than two units in the last place. -/
structure LowEnd (y : ℝ) (p : Nat) : Prop where
  le : patternValue p ≤ y
  lt : y < patternValue p + 2 * ulp y

/-- The pattern `p` is at or above `y`, by less than three units in the last place. -/
structure HighEnd (y : ℝ) (p : Nat) : Prop where
  le : y ≤ patternValue p
  lt : patternValue p < y + 3 * ulp y

section
variable {y : ℝ} {p q : Nat} (hy : 0 < y)
include hy

theorem lowEnd_of_fixed (h1 : (gridValue p : ℝ) ≤ 2 ^ 420 * y)
    (h2 : 2 ^ 420 * y < gridValue p + 2 * 2 ^ ulpExp (fixedFloor y)) : LowEnd y p := by
  rw [← fixed_patternValue] at h1 h2
  rw [← fixed_ulp hy, mul_left_comm, ← mul_add] at h2
  exact ⟨le_of_mul_le_mul_left h1 (by positivity), lt_of_mul_lt_mul_left h2 (by positivity)⟩

theorem highEnd_of_fixed (h1 : 2 ^ 420 * y ≤ gridValue p)
    (h2 : gridValue p < 2 ^ 420 * y + 3 * 2 ^ ulpExp (fixedFloor y)) : HighEnd y p := by
  rw [← fixed_patternValue] at h1 h2
  rw [← fixed_ulp hy, mul_left_comm, ← mul_add] at h2
  exact ⟨le_of_mul_le_mul_left h1 (by positivity), lt_of_mul_lt_mul_left h2 (by positivity)⟩

end

theorem patternValue_mono {p q : Nat} (h : p ≤ q) (hq : q < 2 ^ 31) : patternValue p ≤ patternValue q :=
  div_le_div_of_nonneg_right (by exact_mod_cast gridValue_mono h hq) (by positivity)

theorem LowEnd.max {y : ℝ} {p q : Nat} (hp : LowEnd y p) (hp' : p < 2 ^ 31) (hq : patternValue q ≤ y) (hq' : q < 2 ^ 31) :
    LowEnd y (max p q) := by
  refine ⟨?_, hp.lt.trans_le ?_⟩
  · rcases max_choice p q with h | h <;> rw [h]
    exacts [hp.le, hq]
  · gcongr
    exact patternValue_mono (le_max_left p q) (max_lt hp' hq')

theorem HighEnd.min {y : ℝ} {p q : Nat} (hp : HighEnd y p) (hp' : p < 2 ^ 31) (hq : y ≤ patternValue q) :
    HighEnd y (min p q) := by
  refine ⟨?_, lt_of_le_of_lt ?_ hp.lt⟩
  · rcases min_choice p q with h | h <;> rw [h]
    exacts [hp.le, hq]
  · exact patternValue_mono (min_le_left p q) hp'

/-! ### The patterns less than a unit away -/

section
variable {y : ℝ} {c : Nat} (hy : 0 < y) (hnear : |patternValue c - y| < ulp y)
include hy hnear

theorem le_of_near {g : Nat} (hc : c ≤ 0x7F800000) (hg : y ≤ patternValue g) : c ≤ g := by
  by_contra hlt
  have hfloor : fixedFloor y ≤ gridValue g := fixedFloor_le_of_le (by rw [← fixed_patternValue]; gcongr)
  have hstep : ((gridValue g : ℝ) + 2 ^ ulpExp (fixedFloor y)) ≤ gridValue c := by
    exact_mod_cast gridValue_add_ulp_le (Nat.lt_of_not_le hlt) (by omega) hfloor
  rw [← fixed_patternValue, ← fixed_patternValue, ← fixed_ulp hy, ← mul_add] at hstep
  have hunit : patternValue g + ulp y ≤ patternValue c := le_of_mul_le_mul_left hstep (by positivity)
  linarith only [hunit, hg, lt_of_abs_lt hnear]

theorem gridLow_le_of_near : gridLow (fixedFloor y) ≤ c := by
  by_contra hlt
  have hstep : ((gridValue c : ℝ) + 2 ^ ulpExp (fixedFloor y)) ≤ 2 ^ 420 * y := by
    refine le_trans ?_ (fixedFloor_le hy)
    exact_mod_cast gridValue_add_ulp_le_of_lt_gridLow (Nat.lt_of_not_le hlt)
  rw [← fixed_patternValue, ← fixed_ulp hy, ← mul_add] at hstep
  have hunit : patternValue c + ulp y ≤ y := le_of_mul_le_mul_left hstep (by positivity)
  linarith only [hunit, neg_lt_of_abs_lt hnear]

end

end Sys2Proof.Machine
end

section
/-! Exp (spec/45_transcendental.md R276): the interval of every operand lies next to e^v and shuts out nothing less than a unit in
the last place from it. -/

namespace Sys2Proof.Machine

/-! ### The fixed-point bounds, in units in the last place -/

/-- Fixed-point bounds of `y`, each less than half a unit off. -/
structure ExpEnclosure (y : ℝ) (L U : Nat) : Prop where
  lower : (L : ℝ) ≤ 2 ^ 420 * y
  lower_near : 2 ^ 420 * y ≤ L + 2 ^ ulpExp L / 2
  upper : 2 ^ 420 * y ≤ U
  upper_near : (U : ℝ) ≤ 2 ^ 420 * y + 2 ^ ulpExp (fixedFloor y) / 2
  upper_le_double : (U : ℝ) ≤ 2 * (2 ^ 420 * y)

/-- A factor of e^(2^-103) is less than half a unit of a number with 24 bits. -/
theorem mul_exp_le {x t : ℝ} {k : Nat} (hx : 0 ≤ x) (hxk : x ≤ 2 ^ (k + 24)) (ht : 0 ≤ t) (ht' : t ≤ 2⁻¹ ^ 103) :
    x * Real.exp t ≤ x + 2 ^ k / 2 ∧ x * Real.exp t ≤ 2 * x := by
  have hsmall : t ≤ 2⁻¹ ^ 26 := ht'.trans (pow_le_pow_of_le_one (by norm_num) (by norm_num) (by norm_num))
  have hexp : Real.exp t ≤ 1 + 2 * t := by
    have h1 := Real.one_sub_le_exp_neg t
    have h2 : Real.exp t * Real.exp (-t) = 1 := by rw [← Real.exp_add, add_neg_cancel, Real.exp_zero]
    have h3 := mul_le_mul_of_nonneg_left h1 (Real.exp_pos t).le
    norm_num at hsmall
    nlinarith
  have hmul := mul_le_mul_of_nonneg_left hexp hx
  have hunit : x * (2 * t) ≤ 2 ^ (k + 24) * (2 * 2⁻¹ ^ 26) := by gcongr
  have hhalf : (2 : ℝ) ^ (k + 24) * (2 * 2⁻¹ ^ 26) = 2 ^ k / 2 := by
    rw [pow_add]
    norm_num
    ring
  norm_num at hsmall
  constructor <;> nlinarith

theorem expEnclosure (neg : Bool) (mag : Nat) (h : mag < 2 ^ 156) :
    ExpEnclosure (Real.exp (signedReal neg mag)) (expLower neg mag) (expUpper neg mag) := by
  have hlower := expLower_le neg mag h
  have hlow := exp_le_expLower neg mag h
  have hupp := expUpper_le_exp neg mag h
  have hpos : (0 : ℝ) < 2 ^ 420 * Real.exp (signedReal neg mag) := by positivity
  have hL : (expLower neg mag : ℝ) ≤ 2 ^ (ulpExp (expLower neg mag) + 24) := by
    exact_mod_cast (lt_two_pow_ulpExp (expLower neg mag)).le
  have hF : 2 ^ 420 * Real.exp (signedReal neg mag) ≤ 2 ^ (ulpExp (fixedFloor (Real.exp (signedReal neg mag))) + 24) := by
    refine (lt_fixedFloor_add_one _).le.trans ?_
    exact_mod_cast lt_two_pow_ulpExp (fixedFloor (Real.exp (signedReal neg mag)))
  rw [sub_eq_add_neg, Real.exp_add] at hlow
  rw [Real.exp_add, ← mul_assoc] at hupp
  have htight := mul_exp_le (Nat.cast_nonneg (expLower neg mag)) hL (t := 2⁻¹ ^ 104) (by positivity)
    (pow_le_pow_of_le_one (by norm_num) (by norm_num) (by norm_num))
  obtain ⟨hU, hU'⟩ := mul_exp_le hpos.le hF (t := 2⁻¹ ^ 103) (by positivity) le_rfl
  refine ⟨hlower, le_trans ?_ htight.1, le_expUpper neg mag h, hupp.trans hU, hupp.trans hU'⟩
  have hback := mul_le_mul_of_nonneg_right hlow (Real.exp_pos ((2⁻¹ : ℝ) ^ 104)).le
  rwa [mul_assoc, mul_assoc, ← Real.exp_add, neg_add_cancel, Real.exp_zero, mul_one] at hback

theorem gridCeil_of_overflow {x : Nat} (h : 548 ≤ x.log2) : gridCeil x = 0x7F800000 := by
  unfold gridCeil
  rw [gridFloor_of_overflow h, if_neg (fun hc => absurd hc.1 (by decide))]

theorem patternValue_one : patternValue 0x3F800000 = 1 := by
  rw [patternValue, gridValue_one, Nat.cast_pow, Nat.cast_two, div_self (by positivity)]

theorem le_patternValue_of_fixed {y : ℝ} {p : Nat} (h : 2 ^ 420 * y ≤ gridValue p) : y ≤ patternValue p := by
  rw [← fixed_patternValue] at h
  exact le_of_mul_le_mul_left h (by positivity)

namespace ExpEnclosure
variable {y : ℝ} {L U : Nat} (h : ExpEnclosure y L U)
include h

theorem lower_le_fixedFloor : L ≤ fixedFloor y := le_fixedFloor h.lower

/-- The lower end of the interval. -/
theorem lowEnd (hy : 0 < y) (hlt : y < 2 ^ 128) : LowEnd y (gridLow L) := by
  have hL : L.log2 < 548 := by
    rcases Nat.eq_zero_or_pos L with rfl | hpos
    · simp
    refine (Nat.log2_lt hpos.ne').2 ?_
    have hreal : (L : ℝ) < 2 ^ (420 + 128) := by
      rw [pow_add]
      exact h.lower.trans_lt (mul_lt_mul_of_pos_left hlt (by positivity))
    exact_mod_cast hreal
  obtain ⟨h1, h2⟩ := gridLow_near L hL
  have h1' : (gridValue (gridLow L) : ℝ) ≤ L := by exact_mod_cast h1
  have h2' : (L : ℝ) < gridValue (gridLow L) + 2 ^ ulpExp L := by exact_mod_cast h2
  have hu : (2 : ℝ) ^ ulpExp L ≤ 2 ^ ulpExp (fixedFloor y) :=
    pow_le_pow_right₀ one_le_two (ulpExp_mono h.lower_le_fixedFloor)
  refine lowEnd_of_fixed hy (h1'.trans h.lower) (h.lower_near.trans_lt ?_)
  have hpos : (0 : ℝ) < 2 ^ ulpExp L := by positivity
  linarith only [h2', hu, hpos]

theorem ulpExp_upper : ulpExp U ≤ ulpExp (fixedFloor y) + 1 := by
  refine ulpExp_le_succ ?_
  have hfloor : (fixedFloor y + 1 : ℝ) ≤ 2 ^ ((fixedFloor y).log2 + 1) := by exact_mod_cast Nat.lt_log2_self
  have hreal : (U : ℝ) < 2 ^ ((fixedFloor y).log2 + 1) * 2 := by
    refine h.upper_le_double.trans_lt ?_
    rw [mul_comm]
    exact mul_lt_mul_of_pos_right ((lt_fixedFloor_add_one y).trans_le hfloor) two_pos
  rw [← pow_succ] at hreal
  exact_mod_cast hreal

/-- The upper end of the interval. -/
theorem highEnd (hy : 0 < y) (hlt : y < 2 ^ 128) : HighEnd y (gridCeil U) := by
  have hpos : (0 : ℝ) < 2 ^ ulpExp (fixedFloor y) := by positivity
  by_cases hU : U.log2 < 548
  · obtain ⟨h1, h2⟩ := gridCeil_near U hU
    have h1' : (U : ℝ) ≤ gridValue (gridCeil U) := by exact_mod_cast h1
    have h2' : (gridValue (gridCeil U) : ℝ) < U + 2 ^ ulpExp U := by exact_mod_cast h2
    have hu : (2 : ℝ) ^ ulpExp U ≤ 2 ^ (ulpExp (fixedFloor y) + 1) := pow_le_pow_right₀ one_le_two h.ulpExp_upper
    rw [pow_succ] at hu
    refine highEnd_of_fixed hy (h.upper.trans h1') (h2'.trans_le ?_)
    linarith only [h.upper_near, hu, hpos]
  · have hpow : 2 ^ 548 ≤ U := by
      refine (Nat.pow_le_pow_right two_pos (not_lt.1 hU)).trans (Nat.log2_self_le ?_)
      rintro rfl
      simp at hU
    have hpow' : (2 : ℝ) ^ 548 ≤ U := by exact_mod_cast hpow
    rw [gridCeil_of_overflow (not_lt.1 hU)]
    refine highEnd_of_fixed hy ?_ ?_ <;> rw [gridValue_inf, Nat.cast_pow, Nat.cast_two]
    · rw [show 548 = 420 + 128 from rfl, pow_add]
      gcongr
    · generalize (2 : ℝ) ^ 548 = b at *
      linarith only [hpow', h.upper_near, hpos]

theorem gridLow_le_of_near {c : Nat} (hy : 0 < y) (hnear : |patternValue c - y| < ulp y) : gridLow L ≤ c :=
  (gridLow_mono h.lower_le_fixedFloor).trans (Machine.gridLow_le_of_near hy hnear)

theorem le_gridCeil_of_near {c : Nat} (hy : 0 < y) (hc : c ≤ 0x7F800000) (hnear : |patternValue c - y| < ulp y) :
    c ≤ gridCeil U := by
  by_cases hU : U.log2 < 548
  · refine le_of_near hy hnear hc (le_patternValue_of_fixed (h.upper.trans ?_))
    exact_mod_cast (gridCeil_near U hU).1
  · rwa [gridCeil_of_overflow (not_lt.1 hU)]

end ExpEnclosure

end Sys2Proof.Machine
end

section
/-! Exp (spec/45_transcendental.md R276): the special operands, the interval of a finite one, and the choice inside it. -/

namespace Sys2Proof.Machine

/-! ### The interval of an operand -/

theorem expBounds_of_large {a : Word} (h : 2 ^ 156 ≤ ieeeMag a) :
    expBounds a = if sign a then (0, 1) else (0x7F800000, 0x7F800000) := if_pos h

theorem expBounds_of_negative {a : Word} (h : ieeeMag a < 2 ^ 156) (hs : sign a = true) :
    (expBounds a).1 = gridLow (expLower true (ieeeMag a)) ∧
    (expBounds a).2 = min (gridCeil (expUpper true (ieeeMag a))) 0x3F800000 := by
  simp only [expBounds, hs, if_neg (Nat.not_le.2 h), if_true, and_self]

theorem expBounds_of_positive {a : Word} (h : ieeeMag a < 2 ^ 156) (hs : sign a = false) :
    (expBounds a).1 = max (gridLow (expLower false (ieeeMag a))) 0x3F800000 ∧
    (expBounds a).2 = gridCeil (expUpper false (ieeeMag a)) := by
  simp only [expBounds, hs, if_neg (Nat.not_le.2 h), Bool.false_eq_true, if_false, and_self]

/-- No upper end is past the infinity. -/
theorem expBounds_snd_le (a : Word) : (expBounds a).2 ≤ 0x7F800000 := by
  rcases Nat.lt_or_ge (ieeeMag a) (2 ^ 156) with hmag | hmag
  · cases hs : sign a with
    | true =>
      rw [(expBounds_of_negative hmag hs).2]
      exact (min_le_left _ _).trans (gridCeil_le _)
    | false =>
      rw [(expBounds_of_positive hmag hs).2]
      exact gridCeil_le _
  · rw [expBounds_of_large hmag]
    split <;> decide

/-! ### The result and its key -/

theorem toNat_ofOrderKey {k : Nat} (h : 2 ^ 31 ≤ k) (h' : k < 2 ^ 32) : (ofOrderKey k).toNat = k - 2 ^ 31 := by
  rw [ofOrderKey, if_pos h, BitVec.toNat_ofNat]
  omega

theorem sign_of_toNat_le_inf {v : Word} (h : v.toNat ≤ 0x7F800000) : sign v = false ∧ ieeeClass v ≠ .nan := by
  rw [sign_eq, Ne, ieeeClass_eq_nan_iff, expf_eq, frac_eq]
  exact ⟨decide_eq_false (by omega), by omega⟩

theorem expFn_of_nan {a : Word} (h : ieeeClass a = .nan) : expFn a = nativeNan (.exponent a) := by
  simp [expFn, h]

theorem expFn_of_inf {a : Word} (h : ieeeClass a = .inf) : expFn a = if sign a then ZERO else POS_INF := by
  simp [expFn, h]

theorem expFn_of_zero {a : Word} (h : ieeeClass a = .zero) : expFn a = ONE := by
  simp [expFn, h]

/-- The key that the host's switch function picks. -/
def expKey (a : Word) : Nat :=
  pick Config.expSwitch (orderKey a) (2 ^ 31 + (expBounds a).1) ((expBounds a).2 - (expBounds a).1)

theorem expFn_of_finite {a : Word} (h : ieeeClass a = .finite) : expFn a = ofOrderKey (expKey a) := by
  simp [expFn, h, expKey]

theorem expKey_bounds (a : Word) : 2 ^ 31 + (expBounds a).1 ≤ expKey a ∧ expKey a ≤ 2 ^ 31 + (expBounds a).2 := by
  have hle := expBounds_le a
  refine ⟨pick_ge _ _ _ _, (pick_le _ _ _ _).trans ?_⟩
  omega

theorem toNat_expFn {a : Word} (h : ieeeClass a = .finite) : 2 ^ 31 + (expFn a).toNat = expKey a := by
  have hkey := expKey_bounds a
  have hle := expBounds_snd_le a
  rw [expFn_of_finite h, toNat_ofOrderKey (by omega) (by omega)]
  omega

theorem expFn_bounds {a : Word} (h : ieeeClass a = .finite) :
    (expBounds a).1 ≤ (expFn a).toNat ∧ (expFn a).toNat ≤ (expBounds a).2 := by
  have hkey := expKey_bounds a
  have hnum := toNat_expFn h
  omega

theorem expFn_le_inf {a : Word} (h : ieeeClass a ≠ .nan) : (expFn a).toNat ≤ 0x7F800000 := by
  cases hc : ieeeClass a with
  | nan => exact absurd hc h
  | inf =>
    rw [expFn_of_inf hc]
    split <;> decide
  | zero =>
    rw [expFn_of_zero hc]
    decide
  | finite => exact (expFn_bounds hc).2.trans (expBounds_snd_le a)

/-! ### The power of an operand -/

theorem ieeeVal_of_negative {a : Word} (hs : sign a = true) : ieeeVal a = -((ieeeMag a : ℝ) / 2 ^ 149) := by
  rw [ieeeVal, if_pos hs]

theorem ieeeVal_of_nonnegative {a : Word} (hs : sign a = false) : ieeeVal a = (ieeeMag a : ℝ) / 2 ^ 149 := by
  rw [ieeeVal, hs, if_neg Bool.false_ne_true]

theorem two_pow_lt_exp_128 : (2 : ℝ) ^ 149 < Real.exp 128 := by
  rw [show (128 : ℝ) = (128 : ℕ) * 1 by norm_num, Real.exp_nat_mul]
  exact lt_of_lt_of_le (by norm_num) (pow_le_pow_left₀ (by norm_num) Real.exp_one_gt_d9.le 128)

/-- From 128 on the magnitude's power is past every finite pattern. -/
theorem exp_of_large {mag : Nat} (h : 2 ^ 156 ≤ mag) : (2 : ℝ) ^ 149 ≤ Real.exp ((mag : ℝ) / 2 ^ 149) := by
  refine two_pow_lt_exp_128.le.trans (Real.exp_le_exp.2 ?_)
  rw [le_div_iff₀ (by positivity)]
  calc (128 : ℝ) * 2 ^ 149 = (2 ^ 156 : Nat) := by norm_num
    _ ≤ mag := by exact_mod_cast h

theorem gridValue_zero : gridValue 0 = 0 := by decide +kernel

theorem gridValue_least : gridValue 1 = 2 ^ 271 := by decide +kernel

/-- At -128 and below the power is at most the least subnormal. -/
theorem exp_of_large_negative {a : Word} (h : 2 ^ 156 ≤ ieeeMag a) (hs : sign a = true) :
    Real.exp (ieeeVal a) ≤ patternValue 1 := by
  have hinv := inv_anti₀ (by positivity) (exp_of_large h)
  refine le_patternValue_of_fixed ?_
  rw [gridValue_least, Nat.cast_pow, Nat.cast_two, ieeeVal_of_negative hs, Real.exp_neg, show 420 = 271 + 149 from rfl,
    pow_add, mul_assoc]
  refine mul_le_of_le_one_right (by positivity) ?_
  rwa [mul_comm, ← le_div_iff₀ (by positivity), one_div]

theorem exp_le_one_of_negative {a : Word} (hs : sign a = true) : Real.exp (ieeeVal a) ≤ 1 := by
  rw [ieeeVal_of_negative hs, Real.exp_le_one_iff, neg_nonpos]
  positivity

theorem one_le_exp_of_nonnegative {a : Word} (hs : sign a = false) : 1 ≤ Real.exp (ieeeVal a) := by
  rw [ieeeVal_of_nonnegative hs]
  exact Real.one_le_exp (by positivity)

theorem expEnclosure_ieeeVal {a : Word} {s : Bool} (h : ieeeMag a < 2 ^ 156) (hs : sign a = s) :
    ExpEnclosure (Real.exp (ieeeVal a)) (expLower s (ieeeMag a)) (expUpper s (ieeeMag a)) := by
  rw [ieeeVal_eq_signedReal, hs]
  exact expEnclosure s (ieeeMag a) h

theorem gridLow_le_inf (x : Nat) : gridLow x ≤ 0x7F800000 := (gridLow_le_gridFloor x).trans (gridFloor_le x)

/-- No unit is below the least subnormal. -/
theorem patternValue_least_le_ulp {y : ℝ} (hy : 0 < y) : patternValue 1 ≤ ulp y := by
  refine le_of_mul_le_mul_left (a := 2 ^ 420) ?_ (by positivity)
  rw [fixed_patternValue, gridValue_least, fixed_ulp hy, Nat.cast_pow, Nat.cast_two]
  exact pow_le_pow_right₀ one_le_two (le_ulpExp _)

theorem patternValue_zero : patternValue 0 = 0 := by
  rw [patternValue, gridValue_zero, Nat.cast_zero, zero_div]

theorem ends_of_le_least {y : ℝ} (hy : 0 < y) (h : y ≤ patternValue 1) : LowEnd y 0 ∧ HighEnd y 1 := by
  have hulp := patternValue_least_le_ulp hy
  refine ⟨⟨patternValue_zero.le.trans hy.le, ?_⟩, h, by linarith⟩
  rw [patternValue_zero]
  linarith

/-- R276 (iv): both ends lie next to e^v. -/
theorem expBounds_ends {a : Word} (hlt : Real.exp (ieeeVal a) < 2 ^ 128) :
    LowEnd (Real.exp (ieeeVal a)) (expBounds a).1 ∧ HighEnd (Real.exp (ieeeVal a)) (expBounds a).2 := by
  have hy := Real.exp_pos (ieeeVal a)
  rcases Nat.lt_or_ge (ieeeMag a) (2 ^ 156) with hmag | hmag
  · cases hs : sign a with
    | true =>
      have henc := expEnclosure_ieeeVal hmag hs
      obtain ⟨h1, h2⟩ := expBounds_of_negative hmag hs
      rw [h1, h2]
      exact ⟨henc.lowEnd hy hlt, (henc.highEnd hy hlt).min (Nat.lt_of_le_of_lt (gridCeil_le _) (by decide))
        (patternValue_one.symm ▸ exp_le_one_of_negative hs)⟩
    | false =>
      have henc := expEnclosure_ieeeVal hmag hs
      obtain ⟨h1, h2⟩ := expBounds_of_positive hmag hs
      rw [h1, h2]
      exact ⟨(henc.lowEnd hy hlt).max (Nat.lt_of_le_of_lt (gridLow_le_inf _) (by decide))
        (patternValue_one.symm ▸ one_le_exp_of_nonnegative hs) (by decide), henc.highEnd hy hlt⟩
  · cases hs : sign a with
    | true =>
      rw [expBounds_of_large hmag, hs, if_pos rfl]
      exact ends_of_le_least hy (exp_of_large_negative hmag hs)
    | false =>
      have hge := exp_of_large hmag
      rw [ieeeVal_of_nonnegative hs] at hlt
      exact absurd (hge.trans_lt hlt) (not_lt.2 (pow_le_pow_right₀ one_le_two (by decide)))

/-! ### Overflow -/

/-- 0x42B17217 is the last operand whose power is below 2^128; at the next one the lower bound is past the first half step of
the binade there. -/
theorem exp_overflow_bounds : expUpper false (ieeeMag 0x42B17217) < 2 ^ 548 ∧
    2 ^ 548 + 2 ^ 524 ≤ expLower false (ieeeMag 0x42B17218) := by decide +kernel

theorem gridLow_overflow : gridLow (2 ^ 548 + 2 ^ 524) = 0x7F800000 := by decide +kernel

theorem sign_of_overflow {a : Word} (h : 2 ^ 128 ≤ Real.exp (ieeeVal a)) : sign a = false := by
  refine Bool.eq_false_iff.2 fun hs => absurd (h.trans (exp_le_one_of_negative hs)) (not_le.2 ?_)
  norm_num

/-- An operand whose power overflows is past the last one whose power does not. -/
theorem ieeeMag_of_overflow {a : Word} (h : 2 ^ 128 ≤ Real.exp (ieeeVal a)) : ieeeMag 0x42B17218 ≤ ieeeMag a := by
  have hlast : (0x42B17217 &&& ABS : Word).toNat + 1 = (0x42B17218 &&& ABS : Word).toNat := by decide
  by_cases hgt : ieeeMag 0x42B17217 < ieeeMag a
  · rw [ieeeMag_lt_iff] at hgt
    exact ieeeMag_le_of_abs_le (by omega)
  · have hsmall : ieeeMag 0x42B17217 < 2 ^ 156 := by decide
    have hupper := (expEnclosure_ieeeVal (a := a) (by omega) (sign_of_overflow h)).upper
    have hmono := (expUpper_false_mono (not_lt.1 hgt) hsmall).trans_lt exp_overflow_bounds.1
    have hreal : (expUpper false (ieeeMag a) : ℝ) < 2 ^ (420 + 128) := by exact_mod_cast hmono
    rw [pow_add] at hreal
    exact absurd (lt_of_mul_lt_mul_left (hupper.trans_lt hreal) (by positivity)) (not_lt.2 h)

/-- R276 (iv), "with overflow to 0x7F800000". -/
theorem expBounds_of_overflow {a : Word} (h : 2 ^ 128 ≤ Real.exp (ieeeVal a)) : expBounds a = (0x7F800000, 0x7F800000) := by
  have hs := sign_of_overflow h
  rcases Nat.lt_or_ge (ieeeMag a) (2 ^ 156) with hmag | hmag
  · have hlow : 0x7F800000 ≤ gridLow (expLower false (ieeeMag a)) := gridLow_overflow ▸
      gridLow_mono (exp_overflow_bounds.2.trans (expLower_false_mono (ieeeMag_of_overflow h)))
    have hhigh := hlow.trans (gridLow_le_gridCeil (expLower_le_expUpper false _ hmag))
    have h1 := gridLow_le_inf (expLower false (ieeeMag a))
    have h2 := gridCeil_le (expUpper false (ieeeMag a))
    obtain ⟨hfst, hsnd⟩ := expBounds_of_positive hmag hs
    exact Prod.ext (by rw [hfst]; omega) (by rw [hsnd]; omega)
  · rw [expBounds_of_large hmag, hs, if_neg Bool.false_ne_true]

theorem exp_writesOnly (rd ra : RegIdx) (s : State) : WritesOnly (.exp rd ra) s rd (expFn (readReg s ra)) :=
  writesOnly_of_exec rfl

/-- Settles O55: the special rows, and the ends of the interval of a finite operand. -/
theorem expAtSpecialOperands : Obligations.ExpAtSpecialOperands := by
  refine ⟨exp_writesOnly, fun a h => ?_, expFn_of_inf rfl, expFn_of_inf rfl, expFn_of_zero rfl, expFn_of_zero rfl,
    fun a h => sign_of_toNat_le_inf (expFn_le_inf h), fun a h => ?_,
    runsTo_of_one_operand (exp_writesOnly 2 1) rfl (expFn_of_zero rfl)⟩
  · rw [expFn_of_nan h, ieeeClass_nativeNan]
  · obtain ⟨hlo, hhi⟩ := expFn_bounds h
    refine ⟨hlo, hhi, fun hlt => ?_, expBounds_of_overflow⟩
    obtain ⟨hlow, hhigh⟩ := expBounds_ends hlt
    exact ⟨hlow.le, hlow.lt, hhigh.le, hhigh.lt⟩

/-! ### What the interval admits -/

/-- R276 (iv): no pattern less than a unit from e^v is shut out, but those below 1.0 for a positive operand. -/
theorem expBounds_admit {a : Word} {c : Nat} (hc : c ≤ 0x7F800000) (hone : sign a = false → 0x3F800000 ≤ c)
    (hnear : |patternValue c - Real.exp (ieeeVal a)| < ulp (Real.exp (ieeeVal a))) :
    (expBounds a).1 ≤ c ∧ c ≤ (expBounds a).2 := by
  have hy := Real.exp_pos (ieeeVal a)
  rcases Nat.lt_or_ge (ieeeMag a) (2 ^ 156) with hmag | hmag
  · cases hs : sign a with
    | true =>
      have henc := expEnclosure_ieeeVal hmag hs
      obtain ⟨h1, h2⟩ := expBounds_of_negative hmag hs
      rw [h1, h2]
      exact ⟨henc.gridLow_le_of_near hy hnear, le_min (henc.le_gridCeil_of_near hy hc hnear)
        (le_of_near hy hnear hc (patternValue_one.symm ▸ exp_le_one_of_negative hs))⟩
    | false =>
      have henc := expEnclosure_ieeeVal hmag hs
      obtain ⟨h1, h2⟩ := expBounds_of_positive hmag hs
      rw [h1, h2]
      exact ⟨max_le (henc.gridLow_le_of_near hy hnear) (hone hs), henc.le_gridCeil_of_near hy hc hnear⟩
  · rw [expBounds_of_large hmag]
    cases hs : sign a with
    | true =>
      rw [if_pos rfl]
      exact ⟨Nat.zero_le _, le_of_near hy hnear hc (exp_of_large_negative hmag hs)⟩
    | false =>
      have hbig : ((2 ^ 548 + 2 ^ 524 : Nat) : ℝ) ≤ 2 ^ 420 * Real.exp (ieeeVal a) := by
        rw [ieeeVal_of_nonnegative hs]
        refine le_trans ?_ (mul_le_mul_of_nonneg_left (exp_of_large hmag) (by positivity))
        rw [← pow_add]
        exact_mod_cast (by decide +kernel : 2 ^ 548 + 2 ^ 524 ≤ 2 ^ (420 + 149))
      have hlow : 0x7F800000 ≤ c := gridLow_overflow ▸ (gridLow_mono (le_fixedFloor hbig)).trans (gridLow_le_of_near hy hnear)
      exact ⟨hlow, hc⟩

theorem orderKey_lt (a : Word) : orderKey a < 2 ^ 32 := by
  have := toNat_and_abs_lt a
  unfold orderKey
  split <;> omega

/-- Settles O57: the interval admits what R276 admits, and the switch functions make every choice in it. -/
theorem expAdmitsEveryResultWithinOneUlp : Obligations.ExpAdmitsEveryResultWithinOneUlp := by
  refine ⟨fun a c _ hc hone hnear => expBounds_admit hc hone hnear, fun a h => toNat_expFn h, fun a c _ hlo hhi => ?_,
    fun f hf hmono => ?_, fun a h hover => ?_⟩
  · exact exists_switch _ _ _ _ (by omega) (by omega)
  · refine exists_switch_of_mono (ieeeClass · = .finite) orderKey _ _ (2 ^ 31 + f ·) (fun a ha => ?_)
      (fun a b ha hb hab => Nat.add_le_add_left (hmono a b ha hb hab) _) (2 ^ 32) (fun a _ => orderKey_lt a)
    have := hf a ha
    omega
  · have hb := expFn_bounds h
    rw [expBounds_of_overflow hover] at hb
    exact BitVec.eq_of_toNat_eq (le_antisymm hb.2 hb.1)

/-! ### Monotone choice -/

/-- The places of the classes in the order of R276 (v). -/
theorem toNat_and_abs_of_inf {a : Word} (h : ieeeClass a = .inf) : (a &&& ABS).toNat = 0x7F800000 := by
  obtain ⟨he, hf⟩ := (ieeeClass_eq_inf_iff a).1 h
  rw [toNat_and_abs_eq_fields]
  omega

theorem toNat_and_abs_of_not_nan {a : Word} (h : ieeeClass a ≠ .nan) :
    (a &&& ABS).toNat ≤ 0x7F800000 ∧ ((a &&& ABS).toNat = 0x7F800000 → ieeeClass a = .inf) := by
  rw [Ne, ieeeClass_eq_nan_iff] at h
  rw [ieeeClass_eq_inf_iff, toNat_and_abs_eq_fields]
  have := expf_lt a
  have := frac_lt a
  omega

theorem toNat_and_abs_of_zero {a : Word} (h : ieeeClass a = .zero) : (a &&& ABS).toNat = 0 := by
  unfold ieeeClass at h
  rw [toNat_and_abs_eq_fields]
  split_ifs at h
  omega

theorem orderKey_of_negative {a : Word} (h : sign a = true) : orderKey a = 2 ^ 31 - (a &&& ABS).toNat := if_pos h

theorem orderKey_of_nonnegative {a : Word} (h : sign a = false) : orderKey a = 2 ^ 31 + (a &&& ABS).toNat := by
  rw [orderKey, h, if_neg Bool.false_ne_true]

theorem orderKey_of_zero {a : Word} (h : ieeeClass a = .zero) : orderKey a = 2 ^ 31 := by
  unfold orderKey
  rw [toNat_and_abs_of_zero h]
  split <;> rfl

/-- Only +infinity stands at or above +infinity, only -infinity at or below -infinity. -/
theorem eq_inf_of_le_orderKey {a b : Word} (ha : ieeeClass a = .inf) (hs : sign a = false) (hb : ieeeClass b ≠ .nan)
    (h : orderKey a ≤ orderKey b) : ieeeClass b = .inf ∧ sign b = false := by
  obtain ⟨hle, hinf⟩ := toNat_and_abs_of_not_nan hb
  rw [orderKey_of_nonnegative hs, toNat_and_abs_of_inf ha] at h
  cases hsb : sign b with
  | true =>
    rw [orderKey_of_negative hsb] at h
    omega
  | false =>
    rw [orderKey_of_nonnegative hsb] at h
    exact ⟨hinf (by omega), rfl⟩

theorem eq_inf_of_orderKey_le {a b : Word} (hb : ieeeClass b = .inf) (hs : sign b = true) (ha : ieeeClass a ≠ .nan)
    (h : orderKey a ≤ orderKey b) : ieeeClass a = .inf ∧ sign a = true := by
  obtain ⟨hle, hinf⟩ := toNat_and_abs_of_not_nan ha
  rw [orderKey_of_negative hs, toNat_and_abs_of_inf hb] at h
  cases hsa : sign a with
  | true =>
    rw [orderKey_of_negative hsa] at h
    exact ⟨hinf (by omega), rfl⟩
  | false =>
    rw [orderKey_of_nonnegative hsa] at h
    omega

/-- R276 (iii), (v): 1.0 bounds the results of the operands up to zero, and of those from zero on. -/
theorem expFn_le_one {a : Word} (ha : ieeeClass a = .finite) (h : orderKey a ≤ 2 ^ 31) : (expFn a).toNat ≤ 0x3F800000 := by
  have hpos := abs_pos_of_finite ha
  have hs : sign a = true := by
    by_contra hs
    rw [orderKey_of_nonnegative (Bool.eq_false_iff.2 hs)] at h
    omega
  refine (expFn_bounds ha).2.trans ?_
  rcases Nat.lt_or_ge (ieeeMag a) (2 ^ 156) with hmag | hmag
  · rw [(expBounds_of_negative hmag hs).2]
    exact min_le_right _ _
  · rw [expBounds_of_large hmag, hs, if_pos rfl]
    decide

theorem one_le_expFn {a : Word} (ha : ieeeClass a = .finite) (h : 2 ^ 31 ≤ orderKey a) : 0x3F800000 ≤ (expFn a).toNat := by
  have hpos := abs_pos_of_finite ha
  have hs : sign a = false := by
    by_contra hs
    rw [orderKey_of_negative (Bool.not_eq_false _ ▸ hs)] at h
    omega
  refine le_trans ?_ (expFn_bounds ha).1
  rcases Nat.lt_or_ge (ieeeMag a) (2 ^ 156) with hmag | hmag
  · rw [(expBounds_of_positive hmag hs).1]
    exact le_max_right _ _
  · rw [expBounds_of_large hmag, hs, if_neg Bool.false_ne_true]
    decide

theorem expFn_mono_finite {a b : Word} (ha : ieeeClass a = .finite) (hb : ieeeClass b = .finite)
    (h : orderKey a ≤ orderKey b) : (expFn a).toNat ≤ (expFn b).toNat := by
  obtain ⟨hlo, hhi⟩ := expBounds_mono ha h
  have hkeys : expKey a ≤ expKey b := pick_mono _ h (by omega) (by
    have := expBounds_le a
    have := expBounds_le b
    omega)
  have hna := toNat_expFn ha
  have hnb := toNat_expFn hb
  omega

theorem expFn_mono {a b : Word} (ha : ieeeClass a = .zero ∨ ieeeClass a = .finite)
    (hb : ieeeClass b = .zero ∨ ieeeClass b = .finite) (h : orderKey a ≤ orderKey b) : (expFn a).toNat ≤ (expFn b).toNat := by
  rcases ha with ha | ha <;> rcases hb with hb | hb
  · rw [expFn_of_zero ha, expFn_of_zero hb]
  · rw [expFn_of_zero ha]
    exact one_le_expFn hb (orderKey_of_zero ha ▸ h)
  · rw [expFn_of_zero hb]
    exact expFn_le_one ha (orderKey_of_zero hb ▸ h)
  · exact expFn_mono_finite ha hb h

/-- Settles O58: the infinities are the ends of the order, 1.0 stands between the signs, and the choice is monotone. -/
theorem expIsMonotone : Obligations.ExpIsMonotone := by
  intro a b ha hb h
  by_cases hia : ieeeClass a = .inf
  · cases hsa : sign a with
    | true =>
      rw [expFn_of_inf hia, hsa]
      exact Nat.zero_le _
    | false =>
      obtain ⟨hib, hsb⟩ := eq_inf_of_le_orderKey hia hsa hb h
      rw [expFn_of_inf hia, expFn_of_inf hib, hsa, hsb]
  by_cases hib : ieeeClass b = .inf
  · cases hsb : sign b with
    | true => exact absurd (eq_inf_of_orderKey_le hib hsb ha h).1 hia
    | false =>
      rw [expFn_of_inf hib, hsb]
      exact expFn_le_inf ha
  have rest {v : Word} (hn : ieeeClass v ≠ .nan) (hi : ieeeClass v ≠ .inf) : ieeeClass v = .zero ∨ ieeeClass v = .finite := by
    cases hv : ieeeClass v <;> simp_all
  exact expFn_mono (rest ha hia) (rest hb hib) h

end Sys2Proof.Machine
end

section
/-! The logarithm's interval (spec/45_transcendental.md R277 (vi)): what the search finds lies next to |ln v|. -/

namespace Sys2Proof.Machine

/-! ### The magnitude of the logarithm -/

/-- |ln v| for the operand `v = mag * 2^-149`. -/
noncomputable def absLog (mag : Nat) : ℝ := |Real.log ((mag : ℝ) / 2 ^ 149)|

section
variable {mag : Nat} (hmag : 0 < mag)
include hmag

theorem operand_pos : (0 : ℝ) < (mag : ℝ) / 2 ^ 149 := by
  have : (0 : ℝ) < mag := by exact_mod_cast hmag
  positivity

theorem absLog_of_lt (h : mag < 2 ^ 149) : absLog mag = -Real.log ((mag : ℝ) / 2 ^ 149) := by
  refine abs_of_nonpos (Real.log_nonpos (operand_pos hmag).le ?_)
  rw [div_le_one (by positivity)]
  exact_mod_cast h.le

omit hmag in
theorem absLog_of_ge (h : 2 ^ 149 ≤ mag) : absLog mag = Real.log ((mag : ℝ) / 2 ^ 149) := by
  refine abs_of_nonneg (Real.log_nonneg ?_)
  rw [one_le_div (by positivity)]
  exact_mod_cast h

omit hmag in
theorem fixed_operand (mag : Nat) : ((mag * 2 ^ 271 : Nat) : ℝ) = 2 ^ 420 * ((mag : ℝ) / 2 ^ 149) := by
  rw [show 420 = 149 + 271 from rfl, pow_add, mul_assoc, mul_left_comm, mul_div_cancel₀ _ (by positivity), Nat.cast_mul,
    Nat.cast_pow, Nat.cast_two, mul_comm]

theorem le_log_iff {t : ℝ} : t ≤ Real.log ((mag : ℝ) / 2 ^ 149) ↔ 2 ^ 420 * Real.exp t ≤ (mag * 2 ^ 271 : Nat) := by
  rw [Real.le_log_iff_exp_le (operand_pos hmag), fixed_operand, mul_le_mul_iff_right₀ (by positivity)]

theorem log_le_iff {t : ℝ} : Real.log ((mag : ℝ) / 2 ^ 149) ≤ t ↔ ((mag * 2 ^ 271 : Nat) : ℝ) ≤ 2 ^ 420 * Real.exp t := by
  rw [Real.log_le_iff_le_exp (operand_pos hmag), fixed_operand, mul_le_mul_iff_right₀ (by positivity)]

end

/-! ### What the test of a magnitude says -/

theorem lt_of_lnReaches {certain : Bool} {mag m : Nat} (h : lnReaches certain mag m = true) : m < 2 ^ 156 := by
  by_contra hm
  unfold lnReaches at h
  rw [if_pos (Nat.le_of_not_lt hm)] at h
  exact Bool.false_ne_true h

theorem lnReaches_below {certain : Bool} {mag m : Nat} (hm : m < 2 ^ 156) (h : mag < 2 ^ 149) :
    lnReaches certain mag m = true ↔ mag * 2 ^ 271 ≤ if certain then expLower true m else expUpper true m := by
  unfold lnReaches
  rw [if_neg (Nat.not_le.2 hm), if_pos h, decide_eq_true_eq]

theorem lnReaches_above {certain : Bool} {mag m : Nat} (hm : m < 2 ^ 156) (h : 2 ^ 149 ≤ mag) :
    lnReaches certain mag m = true ↔ (if certain then expUpper false m else expLower false m) ≤ mag * 2 ^ 271 := by
  unfold lnReaches
  rw [if_neg (Nat.not_le.2 hm), if_neg (Nat.not_lt.2 h), decide_eq_true_eq]

theorem signedReal_true (m : Nat) : signedReal true m = -((m : ℝ) / 2 ^ 149) := rfl

theorem signedReal_false (m : Nat) : signedReal false m = (m : ℝ) / 2 ^ 149 := rfl

section
variable {mag m : Nat} (hmag : 0 < mag)
include hmag

theorem le_absLog_of_reaches (h : lnReaches true mag m = true) : (m : ℝ) / 2 ^ 149 ≤ absLog mag := by
  have hm := lt_of_lnReaches h
  rcases Nat.lt_or_ge mag (2 ^ 149) with hlt | hge
  · rw [lnReaches_below hm hlt, if_pos rfl, ← Nat.cast_le (α := ℝ)] at h
    have hlog := (log_le_iff hmag).2 (h.trans (expLower_le true m hm))
    rw [signedReal_true] at hlog
    rw [absLog_of_lt hmag hlt]
    linarith only [hlog]
  · rw [lnReaches_above hm hge, if_pos rfl, ← Nat.cast_le (α := ℝ)] at h
    have hlog := (le_log_iff hmag).2 ((le_expUpper false m hm).trans h)
    rwa [absLog_of_ge hge]

theorem le_absLog_add_of_reaches (h : lnReaches false mag m = true) : (m : ℝ) / 2 ^ 149 ≤ absLog mag + 2⁻¹ ^ 103 := by
  have hm := lt_of_lnReaches h
  rcases Nat.lt_or_ge mag (2 ^ 149) with hlt | hge
  · rw [lnReaches_below hm hlt, if_neg Bool.false_ne_true, ← Nat.cast_le (α := ℝ)] at h
    have hlog := (log_le_iff hmag).2 (h.trans (expUpper_le_exp true m hm))
    rw [signedReal_true] at hlog
    rw [absLog_of_lt hmag hlt]
    linarith only [hlog]
  · rw [lnReaches_above hm hge, if_neg Bool.false_ne_true, ← Nat.cast_le (α := ℝ)] at h
    have hlog := (le_log_iff hmag).2 ((exp_le_expLower false m hm).trans h)
    have hsmall : (2⁻¹ : ℝ) ^ 104 ≤ 2⁻¹ ^ 103 := pow_le_pow_of_le_one (by norm_num) (by norm_num) (by norm_num)
    rw [signedReal_false] at hlog
    rw [absLog_of_ge hge]
    linarith only [hlog, hsmall]

theorem absLog_lt_of_not_reaches (hm : m < 2 ^ 156) (h : lnReaches false mag m = false) : absLog mag < (m : ℝ) / 2 ^ 149 := by
  rw [← Bool.not_eq_true] at h
  by_contra hle
  refine h ?_
  rcases Nat.lt_or_ge mag (2 ^ 149) with hlt | hge
  · rw [absLog_of_lt hmag hlt] at hle
    rw [lnReaches_below hm hlt, if_neg Bool.false_ne_true, ← Nat.cast_le (α := ℝ)]
    refine le_trans ((log_le_iff hmag).1 ?_) (le_expUpper true m hm)
    rw [signedReal_true]
    linarith only [hle]
  · rw [absLog_of_ge hge, not_lt] at hle
    rw [lnReaches_above hm hge, if_neg Bool.false_ne_true, ← Nat.cast_le (α := ℝ)]
    exact (expLower_le false m hm).trans ((le_log_iff hmag).1 hle)

theorem absLog_lt_add_of_not_reaches (hm : m < 2 ^ 156) (h : lnReaches true mag m = false) :
    absLog mag < (m : ℝ) / 2 ^ 149 + 2⁻¹ ^ 103 := by
  rw [← Bool.not_eq_true] at h
  by_contra hle
  refine h ?_
  rcases Nat.lt_or_ge mag (2 ^ 149) with hlt | hge
  · have hsmall : (2⁻¹ : ℝ) ^ 104 ≤ 2⁻¹ ^ 103 := pow_le_pow_of_le_one (by norm_num) (by norm_num) (by norm_num)
    rw [absLog_of_lt hmag hlt] at hle
    rw [lnReaches_below hm hlt, if_pos rfl, ← Nat.cast_le (α := ℝ)]
    refine le_trans ((log_le_iff hmag).1 ?_) (exp_le_expLower true m hm)
    rw [signedReal_true]
    linarith only [hle, hsmall]
  · rw [absLog_of_ge hge, not_lt] at hle
    rw [lnReaches_above hm hge, if_pos rfl, ← Nat.cast_le (α := ℝ)]
    exact (expUpper_le_exp false m hm).trans ((le_log_iff hmag).1 hle)

end

/-! ### The operands of R277 (vi) -/

/-- The magnitudes of the positive finite patterns but 1.0: each is a step or more from 1.0. -/
structure LogOperand (mag : Nat) : Prop where
  pos : 0 < mag
  lt : mag < 2 ^ 277
  away : mag + 2 ^ 125 ≤ 2 ^ 149 ∨ 2 ^ 149 + 2 ^ 125 ≤ mag

namespace LogOperand
variable {mag : Nat} (h : LogOperand mag)
include h

theorem absLog_lt : absLog mag < 128 := by
  rcases Nat.lt_or_ge mag (2 ^ 149) with hlt | hge
  · rw [absLog_of_lt h.pos hlt, neg_lt, Real.lt_log_iff_exp_lt (operand_pos h.pos), Real.exp_neg]
    refine (inv_strictAnti₀ (by positivity) two_pow_lt_exp_128).trans_le ?_
    rw [inv_eq_one_div]
    have : (1 : ℝ) ≤ mag := by exact_mod_cast h.pos
    gcongr
  · rw [absLog_of_ge hge, Real.log_lt_iff_lt_exp (operand_pos h.pos), div_lt_iff₀ (by positivity)]
    have hlt : (mag : ℝ) < 2 ^ 277 := by exact_mod_cast h.lt
    refine hlt.trans_le ?_
    calc (2 : ℝ) ^ 277 ≤ 2 ^ 149 * 2 ^ 149 := by rw [← pow_add]; exact pow_le_pow_right₀ one_le_two (by norm_num)
      _ ≤ Real.exp 128 * 2 ^ 149 := by gcongr; exact two_pow_lt_exp_128.le

/-- |ln v| is least next to 1.0. -/
theorem le_absLog : (2 : ℝ)⁻¹ ^ 25 ≤ absLog mag := by
  have hv := operand_pos h.pos
  rcases h.away with hlow | hhigh
  · rw [absLog_of_lt h.pos (by omega)]
    have hcast : ((mag : ℝ) + 2 ^ 125) ≤ 2 ^ 149 := by exact_mod_cast hlow
    have hle : (mag : ℝ) / 2 ^ 149 ≤ 1 - 2⁻¹ ^ 24 := by
      rw [div_le_iff₀ (by positivity), show ((1 : ℝ) - 2⁻¹ ^ 24) * 2 ^ 149 = 2 ^ 149 - 2 ^ 125 by norm_num]
      exact le_sub_iff_add_le.2 hcast
    have hlog := Real.log_le_sub_one_of_pos hv
    have hsmall : (2 : ℝ)⁻¹ ^ 25 ≤ 2⁻¹ ^ 24 := pow_le_pow_of_le_one (by norm_num) (by norm_num) (by norm_num)
    linarith only [hle, hlog, hsmall]
  · rw [absLog_of_ge (by omega)]
    have hcast : ((2 : ℝ) ^ 149 + 2 ^ 125) ≤ mag := by exact_mod_cast hhigh
    have hge : 1 + 2⁻¹ ^ 24 ≤ (mag : ℝ) / 2 ^ 149 := by
      rwa [le_div_iff₀ (by positivity), show ((1 : ℝ) + 2⁻¹ ^ 24) * 2 ^ 149 = 2 ^ 149 + 2 ^ 125 by norm_num]
    refine le_trans ?_ (Real.one_sub_inv_le_log_of_pos hv)
    have hinv : ((mag : ℝ) / 2 ^ 149)⁻¹ ≤ (1 + 2⁻¹ ^ 24)⁻¹ := inv_anti₀ (by positivity) hge
    norm_num at hinv ⊢
    linarith only [hinv]

theorem absLog_pos : 0 < absLog mag := lt_of_lt_of_le (by positivity) h.le_absLog

end LogOperand

/-! ### Steps of the patterns as real numbers -/

/-- The step from a pattern to the next. -/
noncomputable def patternStep (p : Nat) : ℝ := 2 ^ ulpExp (gridValue p) / 2 ^ 420

theorem patternValue_succ {p : Nat} (h : p + 1 < 2 ^ 31) : patternValue (p + 1) = patternValue p + patternStep p := by
  rw [patternValue, gridValue_add_one h, Nat.cast_add, Nat.cast_pow, Nat.cast_two, add_div]
  rfl

theorem patternValue_eq_ieeeMag (p : Nat) : patternValue p = (ieeeMag (BitVec.ofNat 32 p) : ℝ) / 2 ^ 149 := by
  refine mul_left_cancel₀ (show (2 : ℝ) ^ 420 ≠ 0 by positivity) ?_
  rw [fixed_patternValue, ← fixed_operand]
  rfl

section
variable {y : ℝ} {p : Nat} (hy : 0 < y)
include hy

theorem patternStep_le_ulp (h : patternValue p ≤ y) : patternStep p ≤ ulp y := by
  have hle : gridValue p ≤ fixedFloor y := le_fixedFloor (by rw [← fixed_patternValue]; gcongr)
  refine le_of_mul_le_mul_left (a := 2 ^ 420) ?_ (by positivity)
  rw [fixed_ulp hy, patternStep, mul_div_cancel₀ _ (by positivity)]
  exact pow_le_pow_right₀ one_le_two (ulpExp_mono hle)

theorem ulp_two_mul_le : ulp (2 * y) ≤ 2 * ulp y := by
  refine le_of_mul_le_mul_left (a := 2 ^ 420) ?_ (by positivity)
  have hexp : ulpExp (fixedFloor (2 * y)) ≤ ulpExp (fixedFloor y) + 1 := by
    refine ulpExp_le_succ ?_
    have hfloor : (fixedFloor y + 1 : ℝ) ≤ 2 ^ ((fixedFloor y).log2 + 1) := by exact_mod_cast Nat.lt_log2_self
    have hreal : (fixedFloor (2 * y) : ℝ) < 2 ^ ((fixedFloor y).log2 + 1) * 2 := by
      refine (fixedFloor_le (by positivity)).trans_lt ?_
      rw [mul_left_comm, mul_comm]
      exact mul_lt_mul_of_pos_right ((lt_fixedFloor_add_one y).trans_le hfloor) two_pos
    rw [← pow_succ] at hreal
    exact_mod_cast hreal
  rw [fixed_ulp (mul_pos two_pos hy), mul_left_comm, fixed_ulp hy, mul_comm (2 : ℝ) (2 ^ _), ← pow_succ]
  exact pow_le_pow_right₀ one_le_two hexp

/-- A number has at most 24 bits in its unit. -/
theorem lt_mul_ulp : y < 2 ^ 24 * ulp y := by
  refine lt_of_mul_lt_mul_left (a := 2 ^ 420) ?_ (by positivity)
  rw [mul_left_comm, fixed_ulp hy, ← pow_add, add_comm]
  refine (lt_fixedFloor_add_one y).trans_le ?_
  exact_mod_cast lt_two_pow_ulpExp (fixedFloor y)

end

/-! ### The ends that the search gives -/

/-- The magnitude tested for the first half step of a binade: the pattern before, and the unit of the pattern on it. -/
def halfStep (p : Nat) : Nat := ieeeMag (BitVec.ofNat 32 (p - 1)) + 2 ^ (expf (BitVec.ofNat 32 p) - 1)

theorem halfStep_eq {p : Nat} (h : p < 2 ^ 31) :
    ((halfStep p : Nat) : ℝ) / 2 ^ 149 = patternValue (p - 1) + patternStep p := by
  have hexpf : expf (BitVec.ofNat 32 p) = p / 2 ^ 23 := by
    rw [expf_eq, BitVec.toNat_ofNat]
    omega
  have hexp : ulpExp (gridValue p) = p / 2 ^ 23 - 1 + 271 := by
    rw [ulpExp_gridValue h]
    omega
  rw [halfStep, hexpf, patternValue_eq_ieeeMag, patternStep, hexp, Nat.cast_add, add_div, Nat.cast_pow, Nat.cast_two,
    show 420 = 149 + 271 from rfl, pow_add, pow_add, mul_div_mul_right _ _ (by positivity)]

theorem logBounds_fst (mag : Nat) : (logBounds mag).1 =
    if lnReaches true mag (halfStep (lnSearch true mag 31 0)) then lnSearch true mag 31 0 else lnSearch true mag 31 0 - 1 := rfl

theorem logBounds_snd (mag : Nat) : (logBounds mag).2 = lnSearch false mag 31 0 + 1 := rfl

/-- Nothing from 128.0 on is found. -/
theorem lnSearch_lt (certain : Bool) (mag : Nat) : lnSearch certain mag 31 0 < 0x43000000 := by
  obtain ⟨hlt, h0 | hr, -⟩ := lnSearch_greatest certain mag
  · omega
  · have hmag : ieeeMag (BitVec.ofNat 32 0x43000000) = 2 ^ 156 := by decide +kernel
    by_contra hge
    have := ieeeMag_mono (Nat.le_of_not_lt hge) hlt
    have := lt_of_lnReaches hr
    omega

namespace LogOperand
variable {mag : Nat} (h : LogOperand mag)
include h

theorem absLog_lt_of_large {m : Nat} (hm : 2 ^ 156 ≤ m) : absLog mag < (m : ℝ) / 2 ^ 149 := by
  refine h.absLog_lt.trans_le ?_
  have hm' : (2 : ℝ) ^ 156 ≤ m := by exact_mod_cast hm
  rw [le_div_iff₀ (by positivity)]
  exact (by norm_num : (128 : ℝ) * 2 ^ 149 = 2 ^ 156).trans_le hm'

theorem lt_of_not_reaches {m : Nat} (hr : lnReaches false mag m = false) : absLog mag < (m : ℝ) / 2 ^ 149 := by
  rcases Nat.lt_or_ge m (2 ^ 156) with hm | hm
  · exact absLog_lt_of_not_reaches h.pos hm hr
  · exact h.absLog_lt_of_large hm

theorem lt_add_of_not_reaches {m : Nat} (hr : lnReaches true mag m = false) : absLog mag < (m : ℝ) / 2 ^ 149 + 2⁻¹ ^ 103 := by
  rcases Nat.lt_or_ge m (2 ^ 156) with hm | hm
  · exact absLog_lt_add_of_not_reaches h.pos hm hr
  · exact lt_add_of_lt_of_pos (h.absLog_lt_of_large hm) (by positivity)

/-- The error of the fixed-point bounds is far less than a unit. -/
theorem error_lt : (2⁻¹ : ℝ) ^ 103 < ulp (absLog mag) ∧ (2⁻¹ : ℝ) ^ 103 ≤ absLog mag := by
  have hle := h.le_absLog
  have hulp := lt_mul_ulp h.absLog_pos
  have hsmall : (2⁻¹ : ℝ) ^ 103 ≤ 2⁻¹ ^ 25 * 2⁻¹ ^ 24 := by
    rw [← pow_add]
    exact pow_le_pow_of_le_one (by norm_num) (by norm_num) (by norm_num)
  norm_num at hle hulp hsmall ⊢
  constructor <;> linarith

theorem patternValue_low : patternValue (lnSearch true mag 31 0) ≤ absLog mag := by
  obtain ⟨-, h0 | hr, -⟩ := lnSearch_greatest true mag
  · rw [h0, patternValue_zero]
    exact h.absLog_pos.le
  · rw [patternValue_eq_ieeeMag]
    exact le_absLog_of_reaches h.pos hr

theorem patternValue_high : patternValue (lnSearch false mag 31 0) ≤ absLog mag + 2⁻¹ ^ 103 := by
  obtain ⟨-, h0 | hr, -⟩ := lnSearch_greatest false mag
  · rw [h0, patternValue_zero]
    have := h.absLog_pos
    positivity
  · rw [patternValue_eq_ieeeMag]
    exact le_absLog_add_of_reaches h.pos hr

theorem lt_patternValue_high_succ : absLog mag < patternValue (lnSearch false mag 31 0 + 1) := by
  have hlt := lnSearch_lt false mag
  rw [patternValue_eq_ieeeMag]
  exact h.lt_of_not_reaches ((lnSearch_greatest false mag).2.2 _ (Nat.lt_succ_self _) (by omega))

/-- The lower end of the interval. -/
theorem lowEnd : LowEnd (absLog mag) (logBounds mag).1 := by
  have hlt := lnSearch_lt true mag
  have hlow := h.patternValue_low
  have hstep := patternStep_le_ulp h.absLog_pos hlow
  have herr := h.error_lt.1
  rw [logBounds_fst]
  cases hhalf : lnReaches true mag (halfStep (lnSearch true mag 31 0)) with
  | true =>
    have hnext := h.lt_add_of_not_reaches ((lnSearch_greatest true mag).2.2 _ (Nat.lt_succ_self _) (by omega))
    rw [← patternValue_eq_ieeeMag, patternValue_succ (by omega)] at hnext
    rw [if_pos rfl]
    exact ⟨hlow, by linarith only [hnext, hstep, herr]⟩
  | false =>
    have hnext := h.lt_add_of_not_reaches hhalf
    rw [halfStep_eq (by omega)] at hnext
    rw [if_neg Bool.false_ne_true]
    exact ⟨(patternValue_mono (Nat.sub_le _ 1) (by omega)).trans hlow, by linarith only [hnext, hstep, herr]⟩

/-- The upper end of the interval. -/
theorem highEnd : HighEnd (absLog mag) (logBounds mag).2 := by
  have hlt := lnSearch_lt false mag
  have hhigh := h.patternValue_high
  obtain ⟨herr, herr'⟩ := h.error_lt
  have hstep := patternStep_le_ulp (y := 2 * absLog mag) (by linarith only [h.absLog_pos])
    (by linarith only [hhigh, herr'] : patternValue (lnSearch false mag 31 0) ≤ 2 * absLog mag)
  have hdouble := ulp_two_mul_le h.absLog_pos
  refine ⟨h.lt_patternValue_high_succ.le, ?_⟩
  rw [logBounds_snd, patternValue_succ (by omega)]
  linarith only [hhigh, hstep, hdouble, herr]

/-- R277 (vi): no magnitude less than a unit from |ln v| is shut out. -/
theorem mem_of_near {c : Nat} (hc : c ≤ 0x7F800000) (hnear : |patternValue c - absLog mag| < ulp (absLog mag)) :
    (logBounds mag).1 ≤ c ∧ c ≤ (logBounds mag).2 := by
  have hlt := lnSearch_lt true mag
  have fixed {n : Nat} {t : ℝ} (hn : (n : ℝ) = 2 ^ 420 * t) (ht : t ≤ absLog mag) : n ≤ fixedFloor (absLog mag) :=
    le_fixedFloor (by rw [hn]; gcongr)
  have hgrid := fixed (fixed_patternValue _).symm h.patternValue_low
  refine ⟨le_trans ?_ (gridLow_le_of_near h.absLog_pos hnear),
    le_of_near h.absLog_pos hnear hc (h.lt_patternValue_high_succ.le)⟩
  rw [logBounds_fst]
  split
  case isFalse => exact pred_le_gridLow (by omega) hgrid
  case isTrue hhalf =>
    have hreal := le_absLog_of_reaches h.pos hhalf
    rw [halfStep_eq (by omega)] at hreal
    refine le_gridLow (by omega) hgrid (fixed ?_ hreal)
    rw [mul_add, fixed_patternValue, patternStep, mul_div_cancel₀ _ (by positivity), Nat.cast_add, Nat.cast_pow, Nat.cast_two]

theorem two_le_lnSearch : 2 ≤ lnSearch true mag 31 0 := by
  by_contra hlt
  have hnext := h.lt_add_of_not_reaches ((lnSearch_greatest true mag).2.2 2 (Nat.lt_of_not_le hlt) (by decide))
  have hmag : ieeeMag (BitVec.ofNat 32 2) = 2 := by decide
  have hle := h.le_absLog
  rw [hmag] at hnext
  norm_num at hnext hle
  linarith only [hnext, hle]

/-- The lower end is no zero, the interval is not empty, and no end is past 128.0. -/
theorem logBounds_order : 1 ≤ (logBounds mag).1 ∧ (logBounds mag).1 ≤ (logBounds mag).2 ∧ (logBounds mag).2 ≤ 0x43000000 := by
  have hlow := lnSearch_lt true mag
  have hbound : lnSearch true mag 31 0 - 1 ≤ (logBounds mag).1 ∧ (logBounds mag).1 ≤ lnSearch true mag 31 0 := by
    rw [logBounds_fst]
    split <;> omega
  have htwo := h.two_le_lnSearch
  refine ⟨by omega, ?_, lnSearch_lt false mag⟩
  by_contra hgt
  have hmono := patternValue_mono (Nat.lt_of_not_le hgt).le (by omega)
  exact absurd (h.lt_patternValue_high_succ.trans_le (hmono.trans h.lowEnd.le)) (lt_irrefl _)

end LogOperand

end Sys2Proof.Machine
end

section
/-! Log (spec/45_transcendental.md R277): the special operands, the interval of a finite one, and the choice inside it. -/

namespace Sys2Proof.Machine

/-! ### The pattern of a key -/

theorem ofOrderKey_of_le {k : Nat} (h : 2 ^ 31 ≤ k) (h' : k < 2 ^ 32) :
    sign (ofOrderKey k) = false ∧ (ofOrderKey k &&& ABS).toNat = k - 2 ^ 31 := by
  have hnat := toNat_ofOrderKey h h'
  rw [sign_eq, toNat_and_abs, hnat]
  exact ⟨decide_eq_false (by omega), by omega⟩

theorem toNat_or_ofNat {m : Nat} (h : m < 2 ^ 31) : (SIGN ||| BitVec.ofNat 32 m).toNat = 2 ^ 31 + m := by
  rw [BitVec.toNat_or, BitVec.toNat_ofNat, Nat.mod_eq_of_lt (by omega), show SIGN.toNat = 2 ^ 31 * 1 from rfl,
    ← Nat.two_pow_add_eq_or_of_lt h, Nat.mul_one]

theorem ofOrderKey_of_lt {k : Nat} (h : 0 < k) (h' : k < 2 ^ 31) :
    sign (ofOrderKey k) = true ∧ (ofOrderKey k &&& ABS).toNat = 2 ^ 31 - k := by
  have hnat : (ofOrderKey k).toNat = 2 ^ 31 + (2 ^ 31 - k) := by
    rw [ofOrderKey, if_neg (by omega), toNat_or_ofNat (by omega)]
  rw [sign_eq, toNat_and_abs, hnat]
  exact ⟨decide_eq_true (by omega), by omega⟩

/-- A key that is no zero and fits is the key of its pattern. -/
theorem orderKey_ofOrderKey {k : Nat} (h : 0 < k) (h' : k < 2 ^ 32) : orderKey (ofOrderKey k) = k := by
  rcases Nat.lt_or_ge k (2 ^ 31) with hlt | hge
  · obtain ⟨hs, ha⟩ := ofOrderKey_of_lt h hlt
    rw [orderKey_of_negative hs, ha]
    omega
  · obtain ⟨hs, ha⟩ := ofOrderKey_of_le hge h'
    rw [orderKey_of_nonnegative hs, ha]
    omega

/-! ### The rows of R277 -/

theorem logFn_of_nan {a : Word} (h : ieeeClass a = .nan) : logFn a = nativeNan (.logarithm a) := by
  simp [logFn, h]

theorem logFn_of_zero {a : Word} (h : ieeeClass a = .zero) : logFn a = NEG_INF := by
  simp [logFn, h]

theorem logFn_of_negative {a : Word} (hs : sign a = true) (hz : ieeeClass a ≠ .zero) : logFn a = nativeNan (.logarithm a) := by
  simp [logFn, hs, hz]

theorem logFn_of_inf {a : Word} (h : ieeeClass a = .inf) (hs : sign a = false) : logFn a = POS_INF := by
  simp [logFn, h, hs]

theorem logFn_one : logFn ONE = ZERO := by
  have hc : ieeeClass ONE = .finite := by decide
  have hs : sign ONE = false := by decide
  simp [logFn, hc, hs]

/-- R277 (vi): the positive finite operands other than 1.0. -/
structure LogDomain (a : Word) : Prop where
  finite : ieeeClass a = .finite
  nonnegative : sign a = false
  ne_one : a ≠ ONE

/-- The lowest key of the interval. -/
def logLow (a : Word) : Nat :=
  if ieeeMag a < 2 ^ 149 then 2 ^ 31 - (logBounds (ieeeMag a)).2 else 2 ^ 31 + (logBounds (ieeeMag a)).1

/-- The number of keys above the lowest. -/
def logWidth (a : Word) : Nat := (logBounds (ieeeMag a)).2 - (logBounds (ieeeMag a)).1

/-- The key that the host's switch function picks. -/
def logKey (a : Word) : Nat := pick Config.logSwitch (orderKey a) (logLow a) (logWidth a)

theorem toNat_and_abs_of_nonnegative {a : Word} (h : sign a = false) : (a &&& ABS).toNat = a.toNat := by
  rw [sign_eq, decide_eq_false_iff_not] at h
  rw [toNat_and_abs]
  omega

theorem ieeeMag_one : ieeeMag ONE = 2 ^ 149 := by decide +kernel

/-- The patterns next to 1.0. -/
theorem ieeeMag_next_to_one : ieeeMag 0x3F7FFFFF + 2 ^ 125 ≤ 2 ^ 149 ∧ 2 ^ 149 + 2 ^ 125 ≤ ieeeMag 0x3F800001 := by
  decide +kernel

theorem ieeeMag_lt_of_finite {a : Word} (h : ieeeClass a = .finite) : ieeeMag a < 2 ^ 277 := by
  have hinf : ieeeMag POS_INF = 2 ^ 277 := by decide +kernel
  have hclass : ieeeClass a ≠ .nan := by rw [h]; decide
  have hne : (a &&& ABS).toNat ≠ 0x7F800000 := fun heq => by
    have := (toNat_and_abs_of_not_nan hclass).2 heq
    rw [h] at this
    exact absurd this (by decide)
  have hle := (toNat_and_abs_of_not_nan hclass).1
  have habs : (POS_INF &&& ABS).toNat = 0x7F800000 := by decide
  rw [← hinf, ieeeMag_lt_iff]
  omega

namespace LogDomain
variable {a b : Word} (h : LogDomain a)
include h

theorem logFn_eq : logFn a = ofOrderKey (logKey a) := by
  unfold logFn
  rw [h.finite, h.nonnegative, if_neg (by decide), if_neg (by decide), if_neg Bool.false_ne_true, if_neg (by decide),
    if_neg h.ne_one]
  rfl

theorem logOperand : LogOperand (ieeeMag a) where
  pos := ieeeMag_pos_of_finite h.finite
  lt := ieeeMag_lt_of_finite h.finite
  away := by
    have habs := toNat_and_abs_of_nonnegative h.nonnegative
    have hbefore : (0x3F7FFFFF &&& ABS : Word).toNat = 0x3F7FFFFF := by decide
    have hafter : (0x3F800001 &&& ABS : Word).toNat = 0x3F800001 := by decide
    obtain ⟨h1, h2⟩ := ieeeMag_next_to_one
    rcases Nat.lt_trichotomy a.toNat 0x3F800000 with hlt | heq | hgt
    · have hle : ieeeMag a ≤ ieeeMag 0x3F7FFFFF := ieeeMag_le_of_abs_le (by rw [hbefore, habs]; exact Nat.le_of_lt_succ hlt)
      exact .inl ((Nat.add_le_add_right hle _).trans h1)
    · exact absurd (BitVec.eq_of_toNat_eq heq) h.ne_one
    · have hge : ieeeMag 0x3F800001 ≤ ieeeMag a := ieeeMag_le_of_abs_le (by rw [hafter, habs]; exact hgt)
      exact .inr (h2.trans hge)

theorem absLog_eq : absLog (ieeeMag a) = |Real.log (ieeeVal a)| := by
  rw [ieeeVal_of_nonnegative h.nonnegative, absLog]

theorem ieeeVal_lt_one_iff : ieeeVal a < 1 ↔ ieeeMag a < 2 ^ 149 := by
  rw [ieeeVal_of_nonnegative h.nonnegative, div_lt_one (by positivity)]
  exact_mod_cast Iff.rfl

omit h in
theorem logKey_bounds (a : Word) : logLow a ≤ logKey a ∧ logKey a ≤ logLow a + logWidth a := ⟨pick_ge _ _ _ _, pick_le _ _ _ _⟩

/-- Below 1.0 the keys are those of the negated interval. -/
theorem logKey_of_lt (hlt : ieeeMag a < 2 ^ 149) :
    2 ^ 31 - (logBounds (ieeeMag a)).2 ≤ logKey a ∧ logKey a ≤ 2 ^ 31 - (logBounds (ieeeMag a)).1 := by
  obtain ⟨hlo, hhi⟩ := logKey_bounds a
  obtain ⟨h1, h2, h3⟩ := h.logOperand.logBounds_order
  rw [logWidth, logLow, if_pos hlt] at hhi
  rw [logLow, if_pos hlt] at hlo
  omega

theorem logKey_of_ge (hge : 2 ^ 149 ≤ ieeeMag a) :
    2 ^ 31 + (logBounds (ieeeMag a)).1 ≤ logKey a ∧ logKey a ≤ 2 ^ 31 + (logBounds (ieeeMag a)).2 := by
  obtain ⟨hlo, hhi⟩ := logKey_bounds a
  obtain ⟨h1, h2, h3⟩ := h.logOperand.logBounds_order
  rw [logWidth, logLow, if_neg (by omega)] at hhi
  rw [logLow, if_neg (by omega)] at hlo
  omega

theorem logKey_range : 0 < logKey a ∧ logKey a ≤ 2 ^ 31 + 0x43000000 ∧ 2 ^ 31 ≤ logKey a + 0x43000000 := by
  obtain ⟨h1, h2, h3⟩ := h.logOperand.logBounds_order
  rcases Nat.lt_or_ge (ieeeMag a) (2 ^ 149) with hlt | hge
  · have := h.logKey_of_lt hlt
    omega
  · have := h.logKey_of_ge hge
    omega

/-- The keys of the interval's magnitudes, negated below 1.0, are those from the lowest on. -/
theorem key_of_magnitude {c : Nat} (hlo : (logBounds (ieeeMag a)).1 ≤ c) (hhi : c ≤ (logBounds (ieeeMag a)).2) :
    logLow a ≤ (if ieeeMag a < 2 ^ 149 then 2 ^ 31 - c else 2 ^ 31 + c) ∧
    (if ieeeMag a < 2 ^ 149 then 2 ^ 31 - c else 2 ^ 31 + c) ≤ logLow a + logWidth a := by
  obtain ⟨h1, h2, h3⟩ := h.logOperand.logBounds_order
  unfold logLow logWidth
  split <;> omega

theorem orderKey_logFn : orderKey (logFn a) = logKey a := by
  obtain ⟨h1, h2, -⟩ := h.logKey_range
  rw [h.logFn_eq, orderKey_ofOrderKey h1 (by omega)]

/-- The sign of the result, and its magnitude in the interval. -/
theorem logFn_sign_magnitude : (sign (logFn a) = true ↔ ieeeMag a < 2 ^ 149) ∧
    (logBounds (ieeeMag a)).1 ≤ (logFn a &&& ABS).toNat ∧ (logFn a &&& ABS).toNat ≤ (logBounds (ieeeMag a)).2 := by
  obtain ⟨h1, h2, h3⟩ := h.logOperand.logBounds_order
  have hpos := h.logKey_range.1
  rw [h.logFn_eq]
  rcases Nat.lt_or_ge (ieeeMag a) (2 ^ 149) with hlt | hge
  · have hkey := h.logKey_of_lt hlt
    obtain ⟨hs, habs⟩ := ofOrderKey_of_lt hpos (by omega)
    rw [hs, habs]
    exact ⟨iff_of_true rfl hlt, by omega, by omega⟩
  · have hkey := h.logKey_of_ge hge
    obtain ⟨hs, habs⟩ := ofOrderKey_of_le (k := logKey a) (by omega) (by omega)
    rw [hs, habs]
    exact ⟨iff_of_false Bool.false_ne_true (by omega), by omega, by omega⟩

end LogDomain

theorem log_writesOnly (rd ra : RegIdx) (s : State) : WritesOnly (.log rd ra) s rd (logFn (readReg s ra)) :=
  writesOnly_of_exec rfl

/-- Settles O56: the special rows, and the ends of the interval of any other positive operand. -/
theorem logAtSpecialOperands : Obligations.LogAtSpecialOperands := by
  refine ⟨log_writesOnly, fun a h => ?_, logFn_of_zero rfl, logFn_of_zero rfl, fun a hs hz => ?_, logFn_of_inf rfl rfl, logFn_one,
    fun a hf hs hne => ?_, runsTo_of_one_operand (log_writesOnly 2 1) rfl logFn_one⟩
  · rw [logFn_of_nan h, ieeeClass_nativeNan]
  · rw [logFn_of_negative hs hz, ieeeClass_nativeNan]
  · have h : LogDomain a := ⟨hf, hs, hne⟩
    obtain ⟨hsign, hlo, hhi⟩ := h.logFn_sign_magnitude
    have hlow := h.logOperand.lowEnd
    have hhigh := h.logOperand.highEnd
    rw [h.absLog_eq] at hlow hhigh
    exact ⟨hsign.trans h.ieeeVal_lt_one_iff.symm, hlo, hhi, hlow.le, hlow.lt, hhigh.le, hhigh.lt⟩

/-! ### What the interval admits -/

/-- Settles O60: the interval admits what R277 admits, and the switch functions make every choice in it. -/
theorem logAdmitsEveryResultWithinOneUlp : Obligations.LogAdmitsEveryResultWithinOneUlp := by
  have dom {a : Word} (ha : ieeeClass a = .finite ∧ sign a = false ∧ a ≠ 0x3F800000) : LogDomain a :=
    ⟨ha.1, ha.2.1, ha.2.2⟩
  refine ⟨fun a c ha hc hnear => ?_, fun a ha => (dom ha).orderKey_logFn, fun a c ha hlo hhi => ?_,
    fun f hf hmono => exists_switch_of_mono (fun a => ieeeClass a = .finite ∧ sign a = false ∧ a ≠ 0x3F800000) orderKey
      logLow logWidth f hf hmono (2 ^ 32) fun a _ => orderKey_lt a⟩
  · rw [← (dom ha).absLog_eq] at hnear
    exact (dom ha).logOperand.mem_of_near hc hnear
  · obtain ⟨h1, h2⟩ := (dom ha).key_of_magnitude hlo hhi
    exact exists_switch (orderKey a) (logLow a) (logWidth a) _ h1 h2

/-! ### Monotone choice -/

theorem ieeeMag_le_of_orderKey_le {a b : Word} (ha : sign a = false) (hb : sign b = false) (h : orderKey a ≤ orderKey b) :
    ieeeMag a ≤ ieeeMag b := by
  rw [orderKey_of_nonnegative ha, orderKey_of_nonnegative hb] at h
  exact ieeeMag_le_of_abs_le (Nat.le_of_add_le_add_left h)

/-- R277 (vi): neither end of the keys decreases. -/
theorem logLow_mono {a b : Word} (ha : LogDomain a) (hb : LogDomain b) (h : orderKey a ≤ orderKey b) :
    logLow a ≤ logLow b ∧ logLow a + logWidth a ≤ logLow b + logWidth b := by
  obtain ⟨ha1, ha2, ha3⟩ := ha.logOperand.logBounds_order
  obtain ⟨hb1, hb2, hb3⟩ := hb.logOperand.logBounds_order
  have hmag := ieeeMag_le_of_orderKey_le ha.nonnegative hb.nonnegative h
  unfold logLow logWidth
  rcases Nat.lt_or_ge (ieeeMag b) (2 ^ 149) with hlt | hge
  · have hbounds := logBounds_mono fun c m => lnReaches_anti c hlt hmag
    rw [if_pos (by omega), if_pos hlt]
    omega
  · rw [if_neg (show ¬ ieeeMag b < 2 ^ 149 by omega)]
    split
    · omega
    · have hbounds := logBounds_mono fun c m => lnReaches_mono c (by omega) hmag
      omega

section
variable {a b : Word} (ha : ieeeClass a = .finite) (hsa : sign a = false)
include ha hsa

theorem orderKey_logFn_eq : a = ONE ∧ orderKey (logFn a) = 2 ^ 31 ∨ LogDomain a ∧ orderKey (logFn a) = logKey a := by
  by_cases h1 : a = ONE
  · rw [h1, logFn_one]
    exact .inl ⟨rfl, by decide⟩
  · have h : LogDomain a := ⟨ha, hsa, h1⟩
    exact .inr ⟨h, h.orderKey_logFn⟩

/-- The logarithms of the finite operands lie between the infinities. -/
theorem orderKey_logFn_range : orderKey NEG_INF ≤ orderKey (logFn a) ∧ orderKey (logFn a) ≤ orderKey POS_INF := by
  have hneg : orderKey NEG_INF = 2 ^ 31 - 0x7F800000 := by decide
  have hpos : orderKey POS_INF = 2 ^ 31 + 0x7F800000 := by decide
  rcases orderKey_logFn_eq ha hsa with ⟨-, hkey⟩ | ⟨h, hkey⟩
  · omega
  · have := h.logKey_range
    omega

/-- R277 (v), (vi): the key of 1.0's logarithm stands between those of the operands below and above, and the choice is
monotone. -/
theorem logFn_mono_finite (hb : ieeeClass b = .finite) (hsb : sign b = false) (h : orderKey a ≤ orderKey b) :
    orderKey (logFn a) ≤ orderKey (logFn b) := by
  have hmag := ieeeMag_le_of_orderKey_le hsa hsb h
  have hone := ieeeMag_one
  rcases orderKey_logFn_eq ha hsa with ⟨ha1, hka⟩ | ⟨hda, hka⟩ <;>
    rcases orderKey_logFn_eq hb hsb with ⟨hb1, hkb⟩ | ⟨hdb, hkb⟩ <;> rw [hka, hkb]
  · rw [ha1, hone] at hmag
    exact (Nat.le_add_right _ _).trans (hdb.logKey_of_ge hmag).1
  · rw [hb1, hone] at hmag
    have haway := hda.logOperand.away
    exact (hda.logKey_of_lt (by omega)).2.trans (Nat.sub_le _ _)
  · obtain ⟨hlo, hhi⟩ := logLow_mono hda hdb h
    exact pick_mono _ h hlo hhi

end

theorem ieeeClass_zero_of_abs {a : Word} (h : (a &&& ABS).toNat = 0) : ieeeClass a = .zero := by
  rw [toNat_and_abs_eq_fields] at h
  have he : expf a = 0 := by omega
  have hf : frac a = 0 := by omega
  simp [ieeeClass, he, hf]

/-- An operand not below a positive one, or not below a zero without being one, is positive. -/
theorem sign_of_le_orderKey {a b : Word} (hs : sign a = false) (h : orderKey a ≤ orderKey b) :
    sign b = false ∨ (ieeeClass a = .zero ∧ ieeeClass b = .zero) := by
  cases hsb : sign b with
  | false => exact .inl rfl
  | true =>
    rw [orderKey_of_nonnegative hs, orderKey_of_negative hsb] at h
    exact .inr ⟨ieeeClass_zero_of_abs (by omega), ieeeClass_zero_of_abs (by have := toNat_and_abs_lt b; omega)⟩

/-- Settles O59: the infinities are the ends of the order, and between them the choice is monotone. -/
theorem logIsMonotone : Obligations.LogIsMonotone := by
  intro a b hsa ha hb h
  rcases sign_of_le_orderKey hsa h with hsb | ⟨hza, hzb⟩
  case inr => rw [logFn_of_zero hza, logFn_of_zero hzb]
  cases hca : ieeeClass a with
  | nan => exact absurd hca ha
  | inf =>
    obtain ⟨hcb, -⟩ := eq_inf_of_le_orderKey hca hsa hb h
    rw [logFn_of_inf hca hsa, logFn_of_inf hcb hsb]
  | zero =>
    rw [logFn_of_zero hca]
    cases hcb : ieeeClass b with
    | nan => exact absurd hcb hb
    | inf =>
      rw [logFn_of_inf hcb hsb]
      decide
    | zero => rw [logFn_of_zero hcb]
    | finite => exact (orderKey_logFn_range hcb hsb).1
  | finite =>
    cases hcb : ieeeClass b with
    | nan => exact absurd hcb hb
    | inf =>
      rw [logFn_of_inf hcb hsb]
      exact (orderKey_logFn_range hca hsa).2
    | zero =>
      have hpos := abs_pos_of_finite hca
      rw [orderKey_of_zero hcb, orderKey_of_nonnegative hsa] at h
      omega
    | finite => exact logFn_mono_finite hca hsa hcb hsb h

end Sys2Proof.Machine
end

section
/-! The fault entry, and the runs that stay out of the fault state (spec/60_exceptions.md R302, R303, R306, R309, R317). -/

namespace Sys2Proof.Machine

/-! ### The fault entry (R306) -/

/-- Settles O13: of the effects of a step only the raise leaves a record, and no step exists in the fault state. -/
theorem faultEntryChangesOnlyTheFaultStatus : Obligations.FaultEntryChangesOnlyTheFaultStatus := by
  intro s t r h hr
  have hstuck : ∀ u, step t ≠ .next u := by simp [step_of_fault hr]
  obtain ⟨hf, w, -, he⟩ := stepEffect_of_step h
  cases he with
  | get _ => simp [hf] at hr
  | write v _ _ => simp [hf] at hr
  | raise _ =>
    have hindex : r.index = s.pc := by cases hr; rfl
    exact ⟨hindex, rfl, rfl, rfl, rfl, runResult_of_fault hr, hstuck⟩

/-! ### A run by its last step -/

theorem run_one (s : State) : core.run 1 s = step s := by
  rcases step_fault_or_next s with ⟨r, hr⟩ | ⟨t, ht⟩
  · exact (run_succ_of_fault 0 hr).trans hr.symm
  · exact (run_succ_of_next 0 ht).trans ht.symm

/-- `Host.Core.run` takes its first step first; the invariants of a run look at its last one. -/
theorem run_succ_eq_next_iff {k : Nat} {s t : State} :
    core.run (k + 1) s = .next t ↔ ∃ u, core.run k s = .next u ∧ step u = .next t := by
  induction k generalizing s with
  | zero =>
    rw [run_one]
    refine ⟨fun h => ⟨s, rfl, h⟩, ?_⟩
    rintro ⟨u, ⟨⟩, h⟩
    exact h
  | succ k ih =>
    rcases step_fault_or_next s with ⟨r, hr⟩ | ⟨u, hu⟩
    · simp [run_succ_of_fault _ hr]
    · rw [run_succ_of_next _ hu, run_succ_of_next _ hu, ih]

/-- What every step keeps, a run keeps. -/
theorem run_preserves {P : State → Prop} (hstep : ∀ s t, P s → step s = .next t → P t) {k : Nat} {s t : State}
    (hs : P s) (h : core.run k s = .next t) : P t := by
  induction k generalizing t with
  | zero =>
    cases h
    exact hs
  | succ k ih =>
    obtain ⟨u, hu, ht⟩ := run_succ_eq_next_iff.1 h
    exact hstep u t (ih hu) ht

theorem program_of_step {s t : State} (h : step s = .next t) : t.program = s.program := by
  obtain ⟨-, w, -, he⟩ := stepEffect_of_step h
  cases he with
  | get _ => rfl
  | write v _ _ => rfl
  | raise _ => rfl

theorem program_of_run {k : Nat} {s t : State} (h : core.run k s = .next t) : t.program = s.program :=
  run_preserves (P := fun u => u.program = s.program) (fun _ _ hu ht => (program_of_step ht).trans hu) rfl h

theorem runInv_of_run_load {p : List Word} {k : Nat} {s : State} (h : core.run k (State.load p) = .next s) :
    RunInv s :=
  run_preserves everyStepKeepsTheRunInvariant (runInv_load p) h

/-- Settles O21: a step starts without a fault and, if it ends without one, advances the index. -/
theorem stepsTakenEqualThePc : Obligations.StepsTakenEqualThePc := by
  intro p k s h hs
  induction k generalizing s with
  | zero =>
    cases h
    rfl
  | succ k ih =>
    obtain ⟨u, hu, ht⟩ := run_succ_eq_next_iff.1 h
    have hfault : u.fault = none := (stepEffect_of_step ht).1
    rw [(pcAdvancesByOneOrStaysAtTheFault u s ht).1 hs, ih u hu hfault]

/-! ### Safe runs (R302, R309) -/

/-- A record stands at an illegal word of the program. -/
theorem safeRun_of_programLegal {p : List Word} (hp : programLegal p = true) : SafeRun p := by
  intro k s h
  by_contra hf
  obtain ⟨r, hr⟩ := Option.ne_none_iff_exists'.1 hf
  obtain ⟨-, -, w, hw, hillegal⟩ := (runInv_of_run_load h).fault_here r hr
  have hprogram : s.program = p := program_of_run h
  have hmem : w ∈ p := hprogram ▸ List.mem_of_getElem? hw
  simp [List.all_eq_true.1 hp w hmem] at hillegal

/-- A safe run goes on until its program is over. -/
theorem SafeRun.exists_run {p : List Word} (hp : SafeRun p) {k : Nat} (hk : k ≤ p.length) :
    ∃ s, core.run k (State.load p) = .next s := by
  induction k with
  | zero => exact ⟨_, rfl⟩
  | succ k ih =>
    obtain ⟨s, hs⟩ := ih (Nat.le_of_succ_le hk)
    have hf : s.fault = none := hp k s hs
    have hpc : s.pc < s.program.length := by
      rw [stepsTakenEqualThePc p k s hs hf, program_of_run hs]
      exact hk
    obtain ⟨t, ht⟩ := ((stepExistsOnlyInsideTheProgram s).1).2 ⟨hf, hpc⟩
    exact ⟨t, run_succ_eq_next_iff.2 ⟨s, hs, ht⟩⟩

/-- At the end of a safe run every word of the program lies before the index. -/
theorem SafeRun.programLegal {p : List Word} (hp : SafeRun p) : programLegal p = true := by
  obtain ⟨s, hs⟩ := hp.exists_run le_rfl
  have hpc : s.pc = p.length := stepsTakenEqualThePc p _ s hs (hp _ s hs)
  have hlegal := (runInv_of_run_load hs).legal_before
  rw [hpc, program_of_run hs, State.load_program, List.take_length] at hlegal
  exact List.all_eq_true.2 hlegal

/-- Settles O20: a legal program has no word to raise at, and a safe run reaches every word. -/
theorem legalProgramsAreTheSafeOnes : Obligations.LegalProgramsAreTheSafeOnes :=
  fun _ => ⟨safeRun_of_programLegal, SafeRun.programLegal⟩

end Sys2Proof.Machine
end

section
/-! Reset and the fault state (spec/70_reset_and_hazards.md R330, R331, spec/60_exceptions.md R307). -/

namespace Sys2Proof.Machine

/-- R330: asserted in any state, reset leaves the register file of the state after reset. -/
theorem readReg_assertReset (s : State) (i : RegIdx) : readReg s.assertReset i = readReg State.reset i := rfl

/-- Settles O16: reset's registers are those of R40 and its other fields are given; a step to a next state starts
without a fault. -/
theorem resetIsTheOnlyExitFromAFault : Obligations.ResetIsTheOnlyExitFromAFault := by
  refine ⟨fun s => ?_, fun s t hf ht => ?_⟩
  · obtain ⟨hzero, -, -, -⟩ := resetClearsTheState
    have hregs : ∀ i, readReg s.assertReset i = 0 := fun i => (readReg_assertReset s i).trans (hzero i)
    exact ⟨hregs, s.assertReset_pc, s.assertReset_out, s.assertReset_fault, s.assertReset_program⟩
  · obtain ⟨hnone, -⟩ := stepEffect_of_step ht
    exact hf hnone

end Sys2Proof.Machine
end
